-- ==== Sys2Proof/Word.lean ====
section
/-! DEFINITION. The words of the block and the small enumerations its parameters and operands range over
(00_scope.md R10, R11). Every number of the block is unsigned. -/

namespace Sys2Proof

/-- A `u8` (R11). -/
abbrev Byte := BitVec 8

/-- A `u16` (R11): one operand field, one coordinate, one colour. -/
abbrev HalfWord := BitVec 16

/-- A `u32` (R11): a payload length, a time stamp. -/
abbrev Word := BitVec 32

/-- One command word `CW` (30_encoding.md R90). -/
abbrev CommandWord := BitVec 72

/-- A byte order of 16-bit items (R14). -/
inductive ByteOrder where
  | le | be
  deriving DecidableEq, Repr

/-- What a framebuffer cell stores (R10 `COLOR_MODE`, R66). -/
inductive ColorMode where
  | raw565 | binary
  deriving DecidableEq, Repr

/-- The orientation variants (10_state.md R26). PRESUMED by the spec itself (93 G1): the source lists no variants. -/
inductive Orientation where
  | portrait | landscape | portraitFlipped | landscapeFlipped
  deriving DecidableEq, Repr

/-- The two directions a phase pattern can stand for (R10 `EV_A_LEADS`, `EV_B_LEADS`). -/
inductive Direction where
  | up | down
  deriving DecidableEq, Repr

/-- The payload shapes with codes 0 to 7 (30_encoding.md R103). -/
inductive Shape where
  | u8 | u16 | u16le | u16be | u8i | u16i | u16lei | u16bei
  deriving DecidableEq, Repr

/-- The destination distinction of a transport call, a logical phase (R120). -/
inductive Phase where
  | command | data
  deriving DecidableEq, Repr

end Sys2Proof
end

