-- ==== Sys2Proof/Config.lean ====
section
/-! DEFINITION. The implementation parameters of 00_scope.md R10, one field each. A model takes an `OPEN` parameter as
an argument: the machine's state carries one `Config` that no step changes (R282), so a claim about every state is a
claim about every parameter value. The defaults are R10's values (for an `OPEN` parameter its vector value,
notes/assumptions/1.md). -/

namespace Sys2Proof

/-- The parameters (R10). `FB_INIT` is the function `State.fbInit`, `PH_BITS`, `BTN_BITS` and `TS_BITS` are the widths
of the fields of `Machine.Qda`, and the invert opcodes stand with the other wire opcodes in Decode.lean. -/
structure Config where
  /-- `CHUNK_BYTES`, even and at least 2. -/
  chunkBytes : Nat := 64
  /-- `NATIVE_ORDER`, OPEN. -/
  nativeOrder : ByteOrder := .le
  /-- `PB_BYTES`, OPEN, even and at least 2. -/
  pbBytes : Nat := 512
  /-- `W0`, OPEN, 1 to 65535. -/
  w0 : HalfWord := 8
  /-- `H0`, OPEN, 1 to 65535. -/
  h0 : HalfWord := 6
  /-- `COLOR_MODE`. -/
  colorMode : ColorMode := .raw565
  /-- `BIN_ON`, used only in the binary colour mode. -/
  binOn : HalfWord := 0xFFFF
  /-- `BIN_OFF`, used only in the binary colour mode. -/
  binOff : HalfWord := 0x0000
  /-- `MADCTL[0]`; PRESUMED by the spec itself (93 G2), as are the next three. -/
  madctlPortrait : Byte := 0x48
  /-- `MADCTL[1]`. -/
  madctlLandscape : Byte := 0x28
  /-- `MADCTL[2]`. -/
  madctlPortraitFlipped : Byte := 0x88
  /-- `MADCTL[3]`. -/
  madctlLandscapeFlipped : Byte := 0xE8
  /-- `PIXFMT_16BPP`; PRESUMED by the spec itself (93 G3). -/
  pixfmt16bpp : Byte := 0x55
  /-- `T_RST_LOW`, in microseconds, as are the four after it. -/
  tRstLow : Nat := 10
  /-- `T_RST_SETTLE`. -/
  tRstSettle : Nat := 5000
  /-- `T_SWRESET`. -/
  tSwReset : Nat := 120000
  /-- `T_CFG`. -/
  tCfg : Nat := 5000
  /-- `T_WAKE`. -/
  tWake : Nat := 5000
  /-- `DC_CMD`; PRESUMED by the spec itself (93 G5), as is `DC_DATA`. -/
  dcCmd : BitVec 1 := 0
  /-- `DC_DATA`. -/
  dcData : BitVec 1 := 1
  /-- `PAT_A_LEADS`. -/
  patALeads : BitVec 4 := 0b0100
  /-- `PAT_B_LEADS`, different from `PAT_A_LEADS`. -/
  patBLeads : BitVec 4 := 0b0001
  /-- `EV_A_LEADS`. -/
  evALeads : Direction := .down
  /-- `EV_B_LEADS`. -/
  evBLeads : Direction := .up
  /-- `MIN_INTERVAL_MS`, OPEN, 0 to 2^31-1. -/
  minInterval : Word := 200
  deriving DecidableEq, Repr

end Sys2Proof
end

