-- ==== Sys2Proof/Syntax.lean ====
section
/-! DEFINITION. The operations: one constructor for each row of spec/opcode_table.json. The 45 rows of format `CW72`
are the host's command words (30_encoding.md R94, R95, R103); the 13 rows of format `WIRE` are the transactions the
block puts on the bus (R96 to R98), each with the data bytes that follow its opcode. Operand bits an operation does
not use (R92) are no part of its constructor. -/

namespace Sys2Proof

/-- An operation of the block, or a transaction of its bus. -/
inductive Instr where
  /-- `SENDC.U8 len` (R129, R130). -/
  | sendcU8 (len : Word)
  /-- `SENDC.U16 len` (R129, R131). -/
  | sendcU16 (len : Word)
  /-- `SENDC.U16LE len` (R129, R132). -/
  | sendcU16le (len : Word)
  /-- `SENDC.U16BE len` (R129, R133). -/
  | sendcU16be (len : Word)
  /-- `SENDC.U8I len` (R129, R134). -/
  | sendcU8i (len : Word)
  /-- `SENDC.U16I len` (R129, R135). -/
  | sendcU16i (len : Word)
  /-- `SENDC.U16LEI len` (R129, R136). -/
  | sendcU16lei (len : Word)
  /-- `SENDC.U16BEI len` (R129, R137). -/
  | sendcU16bei (len : Word)
  /-- `SENDD.U8 len` (R129, R130). -/
  | senddU8 (len : Word)
  /-- `SENDD.U16 len` (R129, R131). -/
  | senddU16 (len : Word)
  /-- `SENDD.U16LE len` (R129, R132). -/
  | senddU16le (len : Word)
  /-- `SENDD.U16BE len` (R129, R133). -/
  | senddU16be (len : Word)
  /-- `SENDD.U8I len` (R129, R134). -/
  | senddU8i (len : Word)
  /-- `SENDD.U16I len` (R129, R135). -/
  | senddU16i (len : Word)
  /-- `SENDD.U16LEI len` (R129, R136). -/
  | senddU16lei (len : Word)
  /-- `SENDD.U16BEI len` (R129, R137). -/
  | senddU16bei (len : Word)
  /-- `SENDC` with the reserved shape code 8 (R95, R121). -/
  | sendcReserved8 (len : Word)
  /-- `SENDC` with the reserved shape code 9 (R95, R121). -/
  | sendcReserved9 (len : Word)
  /-- `SENDC` with the reserved shape code 10 (R95, R121). -/
  | sendcReserved10 (len : Word)
  /-- `SENDC` with the reserved shape code 11 (R95, R121). -/
  | sendcReserved11 (len : Word)
  /-- `SENDC` with the reserved shape code 12 (R95, R121). -/
  | sendcReserved12 (len : Word)
  /-- `SENDC` with the reserved shape code 13 (R95, R121). -/
  | sendcReserved13 (len : Word)
  /-- `SENDC` with the reserved shape code 14 (R95, R121). -/
  | sendcReserved14 (len : Word)
  /-- `SENDC` with the reserved shape code 15 (R95, R121). -/
  | sendcReserved15 (len : Word)
  /-- `SENDD` with the reserved shape code 8 (R95, R121). -/
  | senddReserved8 (len : Word)
  /-- `SENDD` with the reserved shape code 9 (R95, R121). -/
  | senddReserved9 (len : Word)
  /-- `SENDD` with the reserved shape code 10 (R95, R121). -/
  | senddReserved10 (len : Word)
  /-- `SENDD` with the reserved shape code 11 (R95, R121). -/
  | senddReserved11 (len : Word)
  /-- `SENDD` with the reserved shape code 12 (R95, R121). -/
  | senddReserved12 (len : Word)
  /-- `SENDD` with the reserved shape code 13 (R95, R121). -/
  | senddReserved13 (len : Word)
  /-- `SENDD` with the reserved shape code 14 (R95, R121). -/
  | senddReserved14 (len : Word)
  /-- `SENDD` with the reserved shape code 15 (R95, R121). -/
  | senddReserved15 (len : Word)
  /-- `INIT v` (R162). -/
  | init (v : Orientation)
  /-- `SETWIN x0, y0, x1, y1` (R164). -/
  | setwin (x0 y0 x1 y1 : HalfWord)
  /-- `WRPIX x, y, color` (R165). -/
  | wrpix (x y color : HalfWord)
  /-- `CLEAR color` (R166). -/
  | clear (color : HalfWord)
  /-- `FLUSH` (R167). -/
  | flush
  /-- `BRIGHT value` (R171). -/
  | bright (value : Byte)
  /-- `SLEEP mode` (R172). -/
  | sleep (mode : BitVec 1)
  /-- `DISPLAY mode` (R173). -/
  | display (mode : BitVec 1)
  /-- `INVERT mode` (R174). -/
  | invert (mode : BitVec 1)
  /-- `SETORI v` (R175). -/
  | setori (v : Orientation)
  /-- `GETW` (R176). -/
  | getw
  /-- `GETH` (R177). -/
  | geth
  /-- `POLL` (R225). -/
  | poll
  /-- The wire transaction `software-reset` (R96 to R98). -/
  | wireSoftwareReset
  /-- The wire transaction `sleep-on` (R96 to R98). -/
  | wireSleepOn
  /-- The wire transaction `sleep-off` (R96 to R98). -/
  | wireSleepOff
  /-- The wire transaction `invert-off` (R96 to R98). -/
  | wireInvertOff
  /-- The wire transaction `invert-on` (R96 to R98). -/
  | wireInvertOn
  /-- The wire transaction `display-off` (R96 to R98). -/
  | wireDisplayOff
  /-- The wire transaction `display-on` (R96 to R98). -/
  | wireDisplayOn
  /-- The wire transaction `column-range` (R96 to R98). -/
  | wireColumnRange (x0 x1 : HalfWord)
  /-- The wire transaction `page-range` (R96 to R98). -/
  | wirePageRange (y0 y1 : HalfWord)
  /-- The wire transaction `memory-write` (R96 to R98). -/
  | wireMemoryWrite (pixels : List HalfWord)
  /-- The wire transaction `memory-access-control` (R96 to R98). -/
  | wireMemoryAccessControl (flags : Byte)
  /-- The wire transaction `pixel-format` (R96 to R98). -/
  | wirePixelFormat (format : Byte)
  /-- The wire transaction `brightness` (R96 to R98). -/
  | wireBrightness (value : Byte)
  deriving DecidableEq, Repr

end Sys2Proof
end

