-- ==== Sys2Proof/WellFormed.lean ====
section
/-! DEFINITION. What the types do not already say of an operation, and the ranges R10 gives the parameters. -/

namespace Sys2Proof

/-- A frame's length is 32 bits (R92, R138), so a memory-write transaction carries fewer than 2^32 pixels. Every other
operand is of a type that holds exactly the values its field admits (R92, R95 (4)). -/
def Instr.WellFormed : Instr → Prop
  | .wireMemoryWrite pixels => pixels.length < 2 ^ 32
  | _ => True

/-- The ranges of R10: `CHUNK_BYTES` even and at least 2, `PB_BYTES` even and at least 2, `W0` and `H0` at least 1
(16 bits each bound them above), the two phase patterns different (R222), `MIN_INTERVAL_MS` below 2^31, and the two
levels of the select line different (R28). -/
structure Config.WellFormed (c : Config) : Prop where
  chunk_even : c.chunkBytes % 2 = 0
  chunk_two : 2 ≤ c.chunkBytes
  pb_even : c.pbBytes % 2 = 0
  pb_two : 2 ≤ c.pbBytes
  width_pos : c.w0 ≠ 0
  height_pos : c.h0 ≠ 0
  levels_differ : c.dcCmd ≠ c.dcData
  patterns_differ : c.patALeads ≠ c.patBLeads
  interval_bound : c.minInterval.toNat < 2 ^ 31

end Sys2Proof
end

