-- ==== Sys2Proof/Decode.lean ====
section
/-! DEFINITION. The host encoding (30_encoding.md R90 to R95, R103) and the wire encoding (R96 to R98, R100): the
decoder, total, rejecting by name; after it the encoder, written from the same tables; and the host's `decodeTableWord`.
The wire opcodes stand here as named constants (93_implementation_defined.md U1: unaudited literals). -/

namespace Sys2Proof

/-- Wire opcode `software-reset` (R96). -/
def opcSoftwareReset : Byte := 0x01
/-- Wire opcode `sleep-on` (R96). -/
def opcSleepOn : Byte := 0x10
/-- Wire opcode `sleep-off` (R96). -/
def opcSleepOff : Byte := 0x11
/-- Wire opcode `OPC_INVERT_OFF` (R96; PRESUMED by the spec itself, 93 G4). -/
def opcInvertOff : Byte := 0x20
/-- Wire opcode `OPC_INVERT_ON` (R96; PRESUMED by the spec itself, 93 G4). -/
def opcInvertOn : Byte := 0x21
/-- Wire opcode `display-off` (R96). -/
def opcDisplayOff : Byte := 0x28
/-- Wire opcode `display-on` (R96). -/
def opcDisplayOn : Byte := 0x29
/-- Wire opcode `column-range` (R96). -/
def opcColumnRange : Byte := 0x2A
/-- Wire opcode `page-range` (R96). -/
def opcPageRange : Byte := 0x2B
/-- Wire opcode `memory-write` (R96). -/
def opcMemoryWrite : Byte := 0x2C
/-- Wire opcode `memory-access-control` (R96). -/
def opcMemoryAccessControl : Byte := 0x36
/-- Wire opcode `pixel-format` (R96). -/
def opcPixelFormat : Byte := 0x3A
/-- Wire opcode `brightness` (R96). -/
def opcBrightness : Byte := 0x51

/-- The words an operation is given in: one command word (R90), or the bytes of a wire transaction, its opcode first
(R100). -/
inductive Words where
  | command (cw : CommandWord)
  | wire (bytes : List Byte)
  deriving DecidableEq, Repr

/-- Why words are no operation. -/
inductive DecodeError where
  /-- The `OP` field names no operation (R95 (2)). -/
  | unassignedOp
  /-- A wire transaction begins with an opcode byte (R97); there is none. -/
  | emptyTransaction
  /-- The opcode is not in R96's table. -/
  | unlistedOpcode
  /-- The opcode is followed by a number of data bytes other than R96 gives it. -/
  | dataLength
  deriving DecidableEq, Repr

/-- Field `OP` (R90). -/
def opField (cw : CommandWord) : Byte := cw.extractLsb' 64 8
/-- Field `A0` (R90). -/
def a0Field (cw : CommandWord) : HalfWord := cw.extractLsb' 48 16
/-- Field `A1` (R90). -/
def a1Field (cw : CommandWord) : HalfWord := cw.extractLsb' 32 16
/-- Field `A2` (R90). -/
def a2Field (cw : CommandWord) : HalfWord := cw.extractLsb' 16 16
/-- Field `A3` (R90). -/
def a3Field (cw : CommandWord) : HalfWord := cw.extractLsb' 0 16

/-- The command word `OP A0 A1 A2 A3` (R90). -/
def commandWord (op : Byte) (a0 a1 a2 a3 : HalfWord) : CommandWord := op ++ a0 ++ a1 ++ a2 ++ a3

/-- `LEN = {A1, A0}` (R92). -/
def lenOperand (a0 a1 : HalfWord) : Word := a1 ++ a0
/-- An orientation is `A0[1:0]` (R92, R26). -/
def orientationOperand (a0 : HalfWord) : Orientation :=
  match (a0.extractLsb' 0 2).toNat with
  | 0 => .portrait
  | 1 => .landscape
  | 2 => .portraitFlipped
  | _ => .landscapeFlipped
/-- A mode is `A0[0]` (R92). -/
def modeOperand (a0 : HalfWord) : BitVec 1 := a0.extractLsb' 0 1
/-- A brightness is `A0[7:0]` (R92). -/
def brightnessOperand (a0 : HalfWord) : Byte := a0.extractLsb' 0 8

/-- The code of an orientation (R26). -/
def orientationCode : Orientation → BitVec 2
  | .portrait => 0
  | .landscape => 1
  | .portraitFlipped => 2
  | .landscapeFlipped => 3

/-- `SENDC` with shape code `s` (R94, R95 (1), R103). -/
def decodeSendc (s : Nat) (len : Word) : Instr :=
  match s with
  | 0 => .sendcU8 len
  | 1 => .sendcU16 len
  | 2 => .sendcU16le len
  | 3 => .sendcU16be len
  | 4 => .sendcU8i len
  | 5 => .sendcU16i len
  | 6 => .sendcU16lei len
  | 7 => .sendcU16bei len
  | 8 => .sendcReserved8 len
  | 9 => .sendcReserved9 len
  | 10 => .sendcReserved10 len
  | 11 => .sendcReserved11 len
  | 12 => .sendcReserved12 len
  | 13 => .sendcReserved13 len
  | 14 => .sendcReserved14 len
  | _ => .sendcReserved15 len

/-- `SENDD` with shape code `s` (R94, R95 (1), R103). -/
def decodeSendd (s : Nat) (len : Word) : Instr :=
  match s with
  | 0 => .senddU8 len
  | 1 => .senddU16 len
  | 2 => .senddU16le len
  | 3 => .senddU16be len
  | 4 => .senddU8i len
  | 5 => .senddU16i len
  | 6 => .senddU16lei len
  | 7 => .senddU16bei len
  | 8 => .senddReserved8 len
  | 9 => .senddReserved9 len
  | 10 => .senddReserved10 len
  | 11 => .senddReserved11 len
  | 12 => .senddReserved12 len
  | 13 => .senddReserved13 len
  | 14 => .senddReserved14 len
  | _ => .senddReserved15 len

/-- The Panel Driver's operations, class 3 (R94, R95 (2)). -/
def decodeDriver (member : Nat) (a0 a1 a2 a3 : HalfWord) : Except DecodeError Instr :=
  match member with
  | 0 => .ok (.init (orientationOperand a0))
  | 1 => .ok (.setwin a0 a1 a2 a3)
  | 2 => .ok (.wrpix a0 a1 a2)
  | 3 => .ok (.clear a0)
  | 4 => .ok .flush
  | 5 => .ok (.bright (brightnessOperand a0))
  | 6 => .ok (.sleep (modeOperand a0))
  | 7 => .ok (.display (modeOperand a0))
  | 8 => .ok (.invert (modeOperand a0))
  | 9 => .ok (.setori (orientationOperand a0))
  | 10 => .ok .getw
  | 11 => .ok .geth
  | _ => .error .unassignedOp

/-- A command word by its fields: the class is `OP[7:4]`, the member `OP[3:0]` (R90). -/
def decodeFields (op : Byte) (a0 a1 a2 a3 : HalfWord) : Except DecodeError Instr :=
  match op.toNat / 16 with
  | 1 => .ok (decodeSendc (op.toNat % 16) (lenOperand a0 a1))
  | 2 => .ok (decodeSendd (op.toNat % 16) (lenOperand a0 a1))
  | 3 => decodeDriver (op.toNat % 16) a0 a1 a2 a3
  | 4 => if op.toNat % 16 = 0 then .ok .poll else .error .unassignedOp
  | _ => .error .unassignedOp

/-- The operation of a command word (R90, R94, R95). -/
def decodeCommand (cw : CommandWord) : Except DecodeError Instr :=
  decodeFields (opField cw) (a0Field cw) (a1Field cw) (a2Field cw) (a3Field cw)

/-- An opcode with no data bytes (R96, R97). -/
def wireNoData (i : Instr) : List Byte → Except DecodeError Instr
  | [] => .ok i
  | _ => .error .dataLength

/-- An opcode with one data byte (R96, R98). -/
def wireOneByte (i : Byte → Instr) : List Byte → Except DecodeError Instr
  | [b] => .ok (i b)
  | _ => .error .dataLength

/-- An opcode with a range, two 16-bit values big-endian (R96, R98). -/
def wireRange (i : HalfWord → HalfWord → Instr) : List Byte → Except DecodeError Instr
  | [a, b, c, d] => .ok (i (a ++ b) (c ++ d))
  | _ => .error .dataLength

/-- The pixels of a data phase, each two bytes big-endian (R98). -/
def wirePixels : List Byte → Option (List HalfWord)
  | [] => some []
  | [_] => none
  | h :: l :: rest => (wirePixels rest).map ((h ++ l) :: ·)

/-- The memory-write transaction of `n` pixels (R96, R98), `n` below 2^32 (R92). -/
def wirePixelData (data : List Byte) : Except DecodeError Instr :=
  match wirePixels data with
  | some pixels => if pixels.length < 2 ^ 32 then .ok (.wireMemoryWrite pixels) else .error .dataLength
  | none => .error .dataLength

/-- A wire transaction by its opcode and its data bytes (R96 to R98). -/
def decodeTransaction (op : Byte) (data : List Byte) : Except DecodeError Instr :=
  if op = opcSoftwareReset then wireNoData .wireSoftwareReset data
  else if op = opcSleepOn then wireNoData .wireSleepOn data
  else if op = opcSleepOff then wireNoData .wireSleepOff data
  else if op = opcInvertOff then wireNoData .wireInvertOff data
  else if op = opcInvertOn then wireNoData .wireInvertOn data
  else if op = opcDisplayOff then wireNoData .wireDisplayOff data
  else if op = opcDisplayOn then wireNoData .wireDisplayOn data
  else if op = opcColumnRange then wireRange .wireColumnRange data
  else if op = opcPageRange then wireRange .wirePageRange data
  else if op = opcMemoryWrite then wirePixelData data
  else if op = opcMemoryAccessControl then wireOneByte .wireMemoryAccessControl data
  else if op = opcPixelFormat then wireOneByte .wirePixelFormat data
  else if op = opcBrightness then wireOneByte .wireBrightness data
  else .error .unlistedOpcode

/-- The transaction of the bytes of a wire transaction (R100). -/
def decodeWire : List Byte → Except DecodeError Instr
  | [] => .error .emptyTransaction
  | op :: data => decodeTransaction op data

/-- The decoder: total on any words. -/
def decode : Words → Except DecodeError Instr
  | .command cw => decodeCommand cw
  | .wire bytes => decodeWire bytes

/-- The operand word of an orientation: `A0[1:0]`, the unused bits 0. -/
def orientationField (v : Orientation) : HalfWord := (orientationCode v).setWidth 16

/-- A command word with a 32-bit length (R92): `A0` its low half, `A1` its high half, `A2` and `A3` unused. -/
def lenCommand (op : Byte) (len : Word) : Words :=
  .command (commandWord op (len.extractLsb' 0 16) (len.extractLsb' 16 16) 0 0)

/-- A 16-bit value big-endian on the wire (R67, R98). -/
def wireHalf (v : HalfWord) : List Byte := [v.extractLsb' 8 8, v.extractLsb' 0 8]

/-- The encoder, from R90, R92, R94, R95, R103 (host) and R96, R98 (wire); the bits an operation does not use are 0. -/
def encode : Instr → Words
  | .sendcU8 len => lenCommand 0x10 len
  | .sendcU16 len => lenCommand 0x11 len
  | .sendcU16le len => lenCommand 0x12 len
  | .sendcU16be len => lenCommand 0x13 len
  | .sendcU8i len => lenCommand 0x14 len
  | .sendcU16i len => lenCommand 0x15 len
  | .sendcU16lei len => lenCommand 0x16 len
  | .sendcU16bei len => lenCommand 0x17 len
  | .sendcReserved8 len => lenCommand 0x18 len
  | .sendcReserved9 len => lenCommand 0x19 len
  | .sendcReserved10 len => lenCommand 0x1A len
  | .sendcReserved11 len => lenCommand 0x1B len
  | .sendcReserved12 len => lenCommand 0x1C len
  | .sendcReserved13 len => lenCommand 0x1D len
  | .sendcReserved14 len => lenCommand 0x1E len
  | .sendcReserved15 len => lenCommand 0x1F len
  | .senddU8 len => lenCommand 0x20 len
  | .senddU16 len => lenCommand 0x21 len
  | .senddU16le len => lenCommand 0x22 len
  | .senddU16be len => lenCommand 0x23 len
  | .senddU8i len => lenCommand 0x24 len
  | .senddU16i len => lenCommand 0x25 len
  | .senddU16lei len => lenCommand 0x26 len
  | .senddU16bei len => lenCommand 0x27 len
  | .senddReserved8 len => lenCommand 0x28 len
  | .senddReserved9 len => lenCommand 0x29 len
  | .senddReserved10 len => lenCommand 0x2A len
  | .senddReserved11 len => lenCommand 0x2B len
  | .senddReserved12 len => lenCommand 0x2C len
  | .senddReserved13 len => lenCommand 0x2D len
  | .senddReserved14 len => lenCommand 0x2E len
  | .senddReserved15 len => lenCommand 0x2F len
  | .init v => .command (commandWord 0x30 (orientationField v) 0 0 0)
  | .setwin x0 y0 x1 y1 => .command (commandWord 0x31 x0 y0 x1 y1)
  | .wrpix x y color => .command (commandWord 0x32 x y color 0)
  | .clear color => .command (commandWord 0x33 color 0 0 0)
  | .flush => .command (commandWord 0x34 0 0 0 0)
  | .bright value => .command (commandWord 0x35 (value.setWidth 16) 0 0 0)
  | .sleep mode => .command (commandWord 0x36 (mode.setWidth 16) 0 0 0)
  | .display mode => .command (commandWord 0x37 (mode.setWidth 16) 0 0 0)
  | .invert mode => .command (commandWord 0x38 (mode.setWidth 16) 0 0 0)
  | .setori v => .command (commandWord 0x39 (orientationField v) 0 0 0)
  | .getw => .command (commandWord 0x3A 0 0 0 0)
  | .geth => .command (commandWord 0x3B 0 0 0 0)
  | .poll => .command (commandWord 0x40 0 0 0 0)
  | .wireSoftwareReset => .wire [opcSoftwareReset]
  | .wireSleepOn => .wire [opcSleepOn]
  | .wireSleepOff => .wire [opcSleepOff]
  | .wireInvertOff => .wire [opcInvertOff]
  | .wireInvertOn => .wire [opcInvertOn]
  | .wireDisplayOff => .wire [opcDisplayOff]
  | .wireDisplayOn => .wire [opcDisplayOn]
  | .wireColumnRange x0 x1 => .wire (opcColumnRange :: (wireHalf x0 ++ wireHalf x1))
  | .wirePageRange y0 y1 => .wire (opcPageRange :: (wireHalf y0 ++ wireHalf y1))
  | .wireMemoryWrite pixels => .wire (opcMemoryWrite :: pixels.flatMap wireHalf)
  | .wireMemoryAccessControl flags => .wire [opcMemoryAccessControl, flags]
  | .wirePixelFormat format => .wire [opcPixelFormat, format]
  | .wireBrightness value => .wire [opcBrightness, value]

/-- The number of data bytes R96 gives a wire opcode, for a table row whose data bytes are all 0; for memory-write,
whose number is `2*n`, the least one, 0 (notes/assumptions/12.md). -/
def tableDataBytes (op : Byte) : Nat :=
  if op = opcColumnRange ∨ op = opcPageRange then 4
  else if op = opcMemoryAccessControl ∨ op = opcPixelFormat ∨ op = opcBrightness then 1
  else 0

/-- The words of an opcode-table row whose bits are `w`: a row of 72 bits is one command word, a row of 8 bits the opcode
byte of a wire transaction, whose data bytes are then 0. -/
def tableWords (nbits w : Nat) : Option Words :=
  if nbits = 72 then some (.command (BitVec.ofNat 72 w))
  else if nbits = 8 then
    some (.wire (BitVec.ofNat 8 w :: List.replicate (tableDataBytes (BitVec.ofNat 8 w)) 0))
  else none

/-- The instruction the decoder reads from an opcode-table word. -/
def decodeTableWord (nbits w : Nat) : Option Instr :=
  match tableWords nbits w with
  | some words =>
    match decode words with
    | .ok i => some i
    | .error _ => none
  | none => none

end Sys2Proof
end

