-- ==== Sys2Proof/Machine/State.lean ====
section
/-! DEFINITION. The state of the block (10_state.md R20), of the lines and inputs it is connected to, of the spec's
bookkeeping (R36) and of the informative panel on the far side of the bus (20_memory.md R80 to R83), as plain data;
the faults and the refusals; and the state right after block reset (70_reset_and_hazards.md R280). -/

namespace Sys2Proof.Machine

/-- A memory of the block: the addresses that hold a value, each with its value, in strictly rising order
(`Memory.wf`). An unlisted address holds no value: the spec gives memories none after block reset (R38). A memory of
bytes is a list of `Host.Cell`. -/
abbrev Memory (β : Type) := List (Nat × β)

/-- The one canonical form of a memory. -/
abbrev Memory.wf {β : Type} (m : Memory β) : Prop := m.Pairwise (fun p q => p.1 < q.1)

/-- `PD_STATE` (R25). The codes 6 and 7 are never taken. -/
inductive PdState where
  | uninitialized | resetting | softwareReset | configuringFormat | wakingFromSleep | ready
  deriving DecidableEq, Repr

/-- The statuses (60_exceptions.md R250). -/
inductive Status where
  | ok
  | resetError
  | busWriteError
  /-- Reserved: no rule produces it (R253). -/
  | busReadError
  | selectLineError
  | unsupportedPayloadShape
  | outOfBoundsError
  | badState
  | illegalOp
  deriving DecidableEq, Repr

/-- A result word (30_encoding.md R91). -/
structure Result where
  status : Status
  res : HalfWord
  deriving DecidableEq, Repr

/-- ENV's answer to a fallible event (R62). After a failure, and while an event stays unanswered, what the event left
is unknown (R63): `draw` is the number of bytes of a write that reached the panel (all of them when it is larger than
their number), or the level of a line in its lowest bit. A claim must hold for every draw (93 U3, U10). -/
inductive Answer where
  | ok
  | fail (draw : Nat)
  /-- ENV never answers (R9, R293; 93 U5). -/
  | never (draw : Nat)
  deriving DecidableEq, Repr

/-- A bus event with ENV's answer (R36, R62). -/
inductive Event where
  /-- `RST(l)`. -/
  | rst (level : BitVec 1) (answer : Answer)
  /-- `DC(l)`. -/
  | dc (level : BitVec 1) (answer : Answer)
  /-- `WR(bytes)`. -/
  | wr (bytes : List Byte) (answer : Answer)
  /-- `DLY(t)`, `t` a lower bound in microseconds; it has no answer (R284). -/
  | dly (t : Nat)
  deriving DecidableEq, Repr

/-- `WIN` (R27). -/
structure Window where
  x0 : HalfWord
  y0 : HalfWord
  x1 : HalfWord
  y1 : HalfWord
  deriving DecidableEq, Repr

/-- QDA's part of the state (R21, R33 to R35). -/
structure Qda where
  /-- `QA`: bit 0 the most recent sample of phase A. -/
  qa : BitVec 2
  /-- `QB`. -/
  qb : BitVec 2
  /-- `BTN`: bit 0 the most recent sample, 1 when the switch is closed. -/
  btn : BitVec 8
  /-- `T_LAST`. -/
  tLast : Word
  /-- `T_VALID`. -/
  tValid : Bool
  deriving DecidableEq, Repr

/-- The levels of the input pins and the time input (42_quadrature_decoder.md R220). -/
structure Pins where
  a : BitVec 1
  b : BitVec 1
  swN : BitVec 1
  now : Word
  deriving DecidableEq, Repr

/-- What a test bench assumes of the panel where the source says nothing (20_memory.md R83; 93 U13, D41): free, and no
step of the block changes it. Without an assumption nothing is known there. -/
structure Bench where
  /-- What is assumed of the pixel memory after the panel's hardware and software reset (R83, R291). -/
  pixels : Memory HalfWord := []
  /-- The panel is assumed to keep its pixel memory over a software-reset (R83 against 93 U13). -/
  keepsReset : Bool := false
  /-- The panel is assumed to keep all it holds while it is asleep (R269; 93 U13). -/
  keepsAsleep : Bool := false
  deriving DecidableEq, Repr

/-- The panel as the block assumes it (20_memory.md R80 to R83), no state of the block (R37). `none` and an unlisted
pixel stand for what is not known of the panel. -/
structure Panel where
  /-- The current command (R80). -/
  command : Option Byte
  /-- The data bytes of the current command that are not yet used up. -/
  args : List Byte
  /-- The column range `x0 .. x1` (R81). -/
  columns : Option (HalfWord × HalfWord)
  /-- The page range `y0 .. y1` (R81). -/
  pages : Option (HalfWord × HalfWord)
  /-- The write cursor `(x, y)` (R82). -/
  cursor : Option (Nat × Nat)
  /-- The pixel memory; pixel `(x, y)` stands at address `y * 65536 + x`. -/
  pixels : Memory HalfWord
  /-- Asleep (R269). -/
  asleep : Option Bool
  /-- Display on, not blanked (R269). -/
  displayOn : Option Bool
  /-- Inverted (R174). -/
  inverted : Option Bool
  /-- The last memory-access-control byte taken (R96). -/
  accessControl : Option Byte
  /-- The last pixel-format byte taken (R96). -/
  pixelFormat : Option Byte
  /-- The last brightness byte taken (R96). -/
  brightness : Option Byte
  /-- What a test bench assumes of this panel (R83; 93 U13). -/
  bench : Bench
  deriving DecidableEq, Repr

/-- Nothing is known of the panel and nothing is assumed of it: the panel before any input. -/
def Panel.unknown : Panel where
  command := none
  args := []
  columns := none
  pages := none
  cursor := none
  pixels := []
  asleep := none
  displayOn := none
  inverted := none
  accessControl := none
  pixelFormat := none
  brightness := none
  bench := {}

/-- Whether SEQ can take a command, or hangs for ever (R9, R264, R293) and in which kind of operation. -/
inductive SeqMode where
  | idle
  /-- Hung in SENDC or SENDD: HOST must not touch `PB` (R64, R297). -/
  | hungInTransport
  /-- Hung in a Panel Driver operation: HOST may touch `PB` (R297). -/
  | hungInDriver
  deriving DecidableEq, Repr

/-- The ports a command word can arrive on (R93), and the model's own port for a wire transaction by itself
(notes/assumptions/11.md). -/
inductive Port where
  | seqCmd | qdaCmd | wire
  deriving DecidableEq, Repr

/-- What HOST read from `PB` (R64). -/
inductive HostRead where
  /-- The bytes from byte index `i`. -/
  | bytes (i : Nat) (l : List Byte)
  /-- The words from word index `i`, in the native word view. -/
  | words (i : Nat) (l : List HalfWord)
  deriving DecidableEq, Repr

/-- What HOST and ENV do to the block from outside (00_scope.md R8; the directives of 30_encoding.md R101). -/
inductive Input where
  /-- HOST issues a command word on `SEQ_CMD`. -/
  | seqCmd (cw : CommandWord)
  /-- HOST issues a command word on `QDA_CMD`. -/
  | qdaCmd (cw : CommandWord)
  /-- A wire transaction by itself (notes/assumptions/11.md). -/
  | wire (bytes : List Byte)
  /-- HOST writes bytes into `PB` from byte index `i` (`.pb8`). -/
  | payloadBytes (i : Nat) (bytes : List Byte)
  /-- HOST writes words into `PB` from word index `i`, in `NATIVE_ORDER` (`.pb16`). -/
  | payloadWords (i : Nat) (words : List HalfWord)
  /-- HOST reads `n` bytes of `PB` from byte index `i` (R64). -/
  | readBytes (i n : Nat)
  /-- HOST reads `n` words of `PB` from word index `i` through the native word view (R64, R68). -/
  | readWords (i n : Nat)
  /-- The items of 8 bits the producer port will deliver (`.prod`). -/
  | produceBytes (items : List Byte)
  /-- The items of 16 bits the producer port will deliver (`.prod`). -/
  | produceWords (items : List HalfWord)
  /-- ENV's answers to the next fallible events (`.fail`). -/
  | answers (list : List Answer)
  /-- ENV drives the pins and the time input (`.pins`). -/
  | pins (levels : Pins)
  /-- A test bench states what it assumes of the panel (R83; 93 U13). -/
  | bench (assumed : Bench)
  /-- Block reset (R280). -/
  | blockReset
  deriving DecidableEq, Repr

/-- The state. The fields to `qda` are the spec's elements (R20); `pins`, `prod8` and `prod16` its inputs; `cfg` its
parameters (R10); `history` and `panel` its bookkeeping and its informative panel; the rest is the model's own. -/
structure State where
  /-- The parameters (R10); no step changes them (R282). -/
  cfg : Config
  /-- `PD_STATE`. -/
  pd : PdState
  /-- `ORIENT`. -/
  orient : Orientation
  /-- `WIN`. -/
  win : Window
  /-- The framebuffer `current`, a cell at its linear index (R66). -/
  cur : Memory HalfWord
  /-- The framebuffer `sent`. -/
  snt : Memory HalfWord
  /-- The payload buffer. -/
  pb : Memory Byte
  /-- The chunk staging buffer (R32). -/
  cb : Memory Byte
  /-- The output latch `DC`. -/
  dc : BitVec 1
  /-- The output latch `RST_n`. -/
  rstN : BitVec 1
  /-- QDA's part. -/
  qda : Qda
  /-- The input lines. -/
  pins : Pins
  /-- The items of 8 bits the producer port will deliver, in order (R65). -/
  prod8 : List Byte
  /-- The items of 16 bits the producer port will deliver, in order (R65). -/
  prod16 : List HalfWord
  /-- The event history (R36), oldest event first. -/
  history : List Event
  /-- The panel (R80 to R83). -/
  panel : Panel
  /-- ENV's answers to the next fallible events; every event beyond them is answered `ok` (as `.fail` has it, R101). -/
  answers : List Answer
  /-- What HOST and ENV do next, in the order it is taken. -/
  inputs : List Input
  /-- Whether SEQ hangs. -/
  seqMode : SeqMode
  /-- The results `SEQ_CMD` returned since block reset, oldest first. -/
  seqResults : List Result
  /-- The results `QDA_CMD` returned since block reset, oldest first. -/
  qdaResults : List Result
  /-- What HOST has read from `PB` since block reset, oldest first. -/
  hostReads : List HostRead
  deriving DecidableEq, Repr

/-- Why the machine stops with a fault. -/
inductive Fault where
  /-- Raised by a HOST read or write of `PB` at a byte index at or above `PB_BYTES`: the spec has no such address (R64).
  Safe. -/
  | payloadAddress
  /-- Raised by a HOST read of a byte of `PB` that holds no value: "a read of it before a write is a fault of the model"
  (R38). Safe. -/
  | payloadUnwritten
  /-- Raised by FLUSH when a cell of the dirty rectangle holds no value. No run reaches it: FLUSH runs only after INIT
  gave every cell a value, and R38 makes such a read a fault of the model. Safe. -/
  | unspecifiedCell
  deriving DecidableEq, Repr

/-- Why an input is not admitted. -/
inductive Refusal where
  /-- Raised by `exec` for an instruction that has no meaning yet. Safe. -/
  | notModelled (mnemonic : String)
  /-- Raised by SENDC and SENDD with a slice shape over a byte of `PB` that holds no value: "a model refuses such an
  operation" (R38; 93 U9). Safe. -/
  | unwrittenPayload
  /-- Raised by the model's own wire port for bytes that are no transaction of R96's table. Safe. -/
  | noTransaction
  deriving DecidableEq, Repr

/-- What a step answers. -/
abbrev Outcome := Host.Outcome State Fault Refusal

/-- The machine right after block reset (R20, R280). `T_LAST`, the parameters marked OPEN, the pins and what is known of
the panel have no value in the spec: notes/assumptions/6.md, 1.md, 10.md, 13.md. Nothing is issued yet. -/
def State.reset : State where
  cfg := {}
  pd := .uninitialized
  orient := .portrait
  win := ⟨0, 0, 0, 0⟩
  cur := []
  snt := []
  pb := []
  cb := []
  dc := 0
  rstN := 1
  qda := { qa := 0, qb := 0, btn := 0, tLast := 0, tValid := false }
  pins := { a := 0, b := 0, swN := 1, now := 0 }
  prod8 := []
  prod16 := []
  history := []
  panel := Panel.unknown
  answers := []
  inputs := []
  seqMode := .idle
  seqResults := []
  qdaResults := []
  hostReads := []

end Sys2Proof.Machine
end

