-- ==== Sys2Proof/Machine/Operands.lean ====
section
/-! DEFINITION. How operands and payloads are read and serialised: the byte order of 16-bit items (00_scope.md R14),
chunk framing (30_encoding.md R99), payload shapes (R103), cells and coordinates (20_memory.md R66), the orientation
function (41_panel_driver.md R178) and the data bytes of the wire (R98). -/

namespace Sys2Proof

/-- `hi(v) = v[15:8]` (R11). -/
def hi (v : HalfWord) : Byte := v.extractLsb' 8 8

/-- `lo(v) = v[7:0]` (R11). -/
def lo (v : HalfWord) : Byte := v.extractLsb' 0 8

/-- `ser16(v, order)` (R14). -/
def ser16 (v : HalfWord) : ByteOrder → List Byte
  | .le => [lo v, hi v]
  | .be => [hi v, lo v]

/-- `ser16(v_0, o) ++ ser16(v_1, o) ++ ...` (R124). -/
def serAll (o : ByteOrder) (vs : List HalfWord) : List Byte := vs.flatMap fun v => ser16 v o

/-- The two bytes of every word exchanged: what the in-place conversion does to a slice (R122). -/
def swapPairs : List Byte → List Byte
  | a :: b :: rest => b :: a :: swapPairs rest
  | rest => rest

/-- `bswap16(v) = {lo(v), hi(v)}` (R68). -/
def bswap16 (v : HalfWord) : HalfWord := lo v ++ hi v

/-- The word whose two bytes lie at `PB[2i]` and `PB[2i+1]`, as a machine of that order reads it: `PBW(i)` (R64). -/
def word16 : ByteOrder → Byte → Byte → HalfWord
  | .le, a, b => b ++ a
  | .be, a, b => a ++ b

/-- `ceil(n/m)` (R12). -/
def ceilDiv (n m : Nat) : Nat := (n + m - 1) / m

/-- Chunk framing: the `WR` payloads of the byte stream `l`, chunk `k` being
`l[k*c .. min((k+1)*c, |l|))` for `k` from 0 below `ceil(|l|/c)` (R99). -/
def chunksOf (c : Nat) (l : List Byte) : List (List Byte) :=
  (List.range (ceilDiv l.length c)).map fun k => (l.drop (k * c)).take c

/-- The length of one item of a shape in bytes (R103, R120). -/
def Shape.itemSize : Shape → Nat
  | .u8 | .u8i => 1
  | .u16 | .u16le | .u16be | .u16i | .u16lei | .u16bei => 2

/-- The slice shapes, whose items lie in `PB` (R103). -/
def Shape.isSlice : Shape → Bool
  | .u8 | .u16 | .u16le | .u16be => true
  | .u8i | .u16i | .u16lei | .u16bei => false

/-- The order a shape's 16-bit items are sent in (R103). -/
def Shape.order (native : ByteOrder) : Shape → ByteOrder
  | .u16le | .u16lei => .le
  | .u16be | .u16bei => .be
  | .u8 | .u16 | .u8i | .u16i => native

/-- The converting slice shapes swap when the requested order is not the native one (R103, R122). -/
def Shape.converts (native : ByteOrder) : Shape → Bool
  | .u16le => native != .le
  | .u16be => native != .be
  | .u8 | .u16 | .u8i | .u16i | .u16lei | .u16bei => false

/-- The level of the select line for a phase (R123). -/
def Config.level (c : Config) : Phase → BitVec 1
  | .command => c.dcCmd
  | .data => c.dcData

/-- `is_landscape(v)` (R26, R178). -/
def isLandscape : Orientation → Bool
  | .portrait | .portraitFlipped => false
  | .landscape | .landscapeFlipped => true

/-- `MADCTL[v]` (R178). -/
def Config.madctl (c : Config) : Orientation → Byte
  | .portrait => c.madctlPortrait
  | .landscape => c.madctlLandscape
  | .portraitFlipped => c.madctlPortraitFlipped
  | .landscapeFlipped => c.madctlLandscapeFlipped

/-- `width` in an orientation (R26, R178). -/
def Config.width (c : Config) (v : Orientation) : HalfWord := if isLandscape v then c.h0 else c.w0

/-- `height` in an orientation (R26, R178). -/
def Config.height (c : Config) (v : Orientation) : HalfWord := if isLandscape v then c.w0 else c.h0

/-- `N = W0*H0`, the number of cells of a framebuffer (R66). -/
def Config.cells (c : Config) : Nat := c.w0.toNat * c.h0.toNat

/-- `reduce(c)` (R66). In the binary colour mode a cell is one bit, held as 0 or 1. -/
def Config.reduce (c : Config) (color : HalfWord) : HalfWord :=
  match c.colorMode with
  | .raw565 => color
  | .binary => if color = 0 then 0 else 1

/-- `expand(v)` (R66). -/
def Config.expand (c : Config) (cell : HalfWord) : HalfWord :=
  match c.colorMode with
  | .raw565 => cell
  | .binary => if cell = 0 then c.binOff else c.binOn

/-- `FB_INIT = reduce(0x0000)` (R10). -/
def Config.fbInit (c : Config) : HalfWord := c.reduce 0x0000

/-- The four bytes of a range, two 16-bit values big-endian (R98). -/
def rangeBytes (first last : HalfWord) : List Byte := ser16 first .be ++ ser16 last .be

end Sys2Proof

namespace Sys2Proof.Machine

/-- `width`, a function of `ORIENT` (R26). -/
def State.width (s : State) : HalfWord := s.cfg.width s.orient

/-- `height`, a function of `ORIENT` (R26). -/
def State.height (s : State) : HalfWord := s.cfg.height s.orient

/-- The linear index `y*width + x` of cell `(x, y)` in the current orientation (R66). -/
def State.cellIndex (s : State) (x y : Nat) : Nat := y * s.width.toNat + x

end Sys2Proof.Machine
end

