-- ==== Sys2Proof/Machine/Flags.lean ====
section
/-! DEFINITION. The block has no condition codes (10_state.md R24). What stands in their place: the status codes
(60_exceptions.md R250), the codes of the decoder's events (42_quadrature_decoder.md R226), and the conditions POLL
classifies its samples by (R221 to R224, R227). -/

namespace Sys2Proof

/-- The event code of a direction (R226): `Up` 1, `Down` 2. -/
def Direction.eventCode : Direction → HalfWord
  | .up => 1
  | .down => 2

end Sys2Proof

namespace Sys2Proof.Machine

/-- The code of a status (R250). Codes 9 to 15 are no status. -/
def Status.code : Status → BitVec 4
  | .ok => 0
  | .resetError => 1
  | .busWriteError => 2
  | .busReadError => 3
  | .selectLineError => 4
  | .unsupportedPayloadShape => 5
  | .outOfBoundsError => 6
  | .badState => 7
  | .illegalOp => 8

/-- The code of `PD_STATE` (R25). -/
def PdState.code : PdState → BitVec 3
  | .uninitialized => 0
  | .resetting => 1
  | .softwareReset => 2
  | .configuringFormat => 3
  | .wakingFromSleep => 4
  | .ready => 5

/-- The event code of `None` (R226). -/
def eventNone : HalfWord := 0

/-- The event code of `Select` (R226). -/
def eventSelect : HalfWord := 3

/-- Every POLL shifts all three registers by one sample; only the button line is inverted (R221). -/
def sample (p : Pins) (q : Qda) : Qda :=
  { q with
    qa := q.qa.extractLsb' 0 1 ++ p.a
    qb := q.qb.extractLsb' 0 1 ++ p.b
    btn := q.btn.extractLsb' 0 7 ++ ~~~p.swN }

/-- The phase pattern `{QA[1], QA[0], QB[1], QB[0]}` (R222). -/
def phasePattern (q : Qda) : BitVec 4 := q.qa ++ q.qb

/-- Direction classification: only the two configured patterns are edges, `PAT_A_LEADS` tested first (R222, R224). -/
def directionOf (c : Config) (pat : BitVec 4) : Option Direction :=
  if pat = c.patALeads then some c.evALeads
  else if pat = c.patBLeads then some c.evBLeads
  else none

/-- `elapsed = (now - T_LAST) mod 2^32` (R223, R227). -/
def elapsed (p : Pins) (q : Qda) : Word := p.now - q.tLast

/-- The button condition, on the registers after the shift (R223): all eight samples closed, and no press accepted yet
or the minimum interval elapsed, compared unsigned. -/
def pressAcceptable (c : Config) (p : Pins) (q : Qda) : Bool :=
  q.btn == 0xFF && (!q.tValid || decide (c.minInterval.toNat ≤ (elapsed p q).toNat))

end Sys2Proof.Machine
end

