-- ==== Sys2Proof/Machine/Panel.lean ====
section
/-! DEFINITION. The memories' operations, and with them the panel on the far side of the bus as the block assumes it
(20_memory.md R80 to R83; informative, notes/assumptions/13.md to 16.md). Whatever the spec does not give of the panel
is dropped from what is known of it. -/

namespace Sys2Proof.Machine

/-- The value at an address, none where nothing was written. -/
def Memory.read {β : Type} : Memory β → Nat → Option β
  | [], _ => none
  | (k, v) :: rest, a => if k = a then some v else Memory.read rest a

/-- Write one address, keeping the canonical form. -/
def Memory.write {β : Type} : Memory β → Nat → β → Memory β
  | [], a, v => [(a, v)]
  | (k, w) :: rest, a, v =>
    if a < k then (a, v) :: (k, w) :: rest
    else if a = k then (a, v) :: rest
    else (k, w) :: Memory.write rest a v

/-- Write consecutive addresses from `a`. -/
def Memory.writeFrom {β : Type} (m : Memory β) (a : Nat) : List β → Memory β
  | [] => m
  | v :: vs => Memory.writeFrom (Memory.write m a v) (a + 1) vs

/-- The values at consecutive addresses from `a`, none when one of them holds no value. -/
def Memory.readFrom {β : Type} (m : Memory β) (a : Nat) : Nat → Option (List β)
  | 0 => some []
  | n + 1 =>
    match Memory.read m a, Memory.readFrom m (a + 1) n with
    | some v, some vs => some (v :: vs)
    | _, _ => none

/-- The values at a list of addresses, none when one of them holds no value. -/
def Memory.readAll {β : Type} (m : Memory β) : List Nat → Option (List β)
  | [] => some []
  | a :: as =>
    match Memory.read m a, Memory.readAll m as with
    | some v, some vs => some (v :: vs)
    | _, _ => none

/-- The memory whose addresses `0 .. n-1` all hold `v`. -/
def Memory.fill {β : Type} (n : Nat) (v : β) : Memory β := (List.range n).map fun i => (i, v)

/-- The memory that holds a list of entries, in its canonical form. -/
def Memory.ofList {β : Type} (l : List (Nat × β)) : Memory β := l.foldl (fun m p => Memory.write m p.1 p.2) []

/-- The native word view `PBW(i)` of a byte memory, for a machine of the order `o` (R64); none when one of the two bytes
holds no value. -/
def Memory.word (o : ByteOrder) (m : Memory Byte) (i : Nat) : Option HalfWord :=
  match Memory.read m (2 * i), Memory.read m (2 * i + 1) with
  | some a, some b => some (word16 o a b)
  | _, _ => none

/-- The words `PBW(i) .. PBW(i+n-1)`, none when one of them holds no value. -/
def Memory.words (o : ByteOrder) (m : Memory Byte) (i : Nat) : Nat → Option (List HalfWord)
  | 0 => some []
  | n + 1 =>
    match Memory.word o m i, Memory.words o m (i + 1) n with
    | some v, some vs => some (v :: vs)
    | _, _ => none

/-- The address of pixel `(x, y)` in the panel's pixel memory. -/
def pixelAddress (x y : Nat) : Nat := y * 65536 + x

/-- A pixel of the panel's pixel memory, none where it is not known. -/
def Panel.pixel (p : Panel) (x y : Nat) : Option HalfWord := Memory.read p.pixels (pixelAddress x y)

/-- Where memory-write places the cursor (R82): `(x0, y0)` of a window that satisfies the window invariant (R71) for
a panel of `w` by `h` pixels. For any other window the panel's reaction is unknown (93 U6). -/
def Panel.windowStart (w h : HalfWord) (p : Panel) : Option (Nat × Nat) :=
  match p.columns, p.pages with
  | some (x0, x1), some (y0, y1) =>
    if x0.toNat ≤ x1.toNat ∧ x1.toNat < w.toNat ∧ y0.toNat ≤ y1.toNat ∧ y1.toNat < h.toNat then
      some (x0.toNat, y0.toNat)
    else none
  | _, _ => none

/-- The panel stops knowing its pixels when a memory-write's data ends in half a pixel (93 U12). -/
def Panel.endData (p : Panel) : Panel :=
  if p.command = some opcMemoryWrite ∧ p.args ≠ [] then { p with pixels := [] } else p

/-- Nothing is known of the panel any more; what a test bench assumes of it stays. -/
def Panel.forget (p : Panel) : Panel := { Panel.unknown with bench := p.bench }

/-- The panel after its hardware reset: nothing is known of it but what a test bench assumes of its pixel memory
(R83, R291; 93 U13). -/
def Panel.afterReset (p : Panel) : Panel := { p.forget with pixels := p.bench.pixels }

/-- Nothing but the current command is known (R80). -/
def Panel.onlyCommand (p : Panel) : Panel := { p.forget with command := p.command }

/-- What is known of a panel that was asleep or goes to sleep: "what the panel keeps while asleep is not in the source"
(R269), so nothing but its current command, unless a test bench assumes that it keeps everything (93 U13). -/
def Panel.slept (p : Panel) : Panel := if p.bench.keepsAsleep then p else p.onlyCommand

/-- A byte in the command phase becomes the current command, whatever it is (R80). -/
def Panel.beginCommand (b : Byte) (p : Panel) : Panel := { Panel.endData p with command := some b, args := [] }

/-- What the panel does at its new current command. Memory-write places the cursor (R82); the other opcodes of R96
change no pixel (R83), but what the panel keeps over software-reset and while asleep is not in the source (R269;
93 U13); an opcode R96 does not list leaves everything else unknown. DESIGN CHOICE (notes/assumptions/33.md): at
sleep-off a panel whose sleep state is not known counts as awake, so all that is known of it stays known; and a panel that
is asleep takes commands and data as one that is awake. -/
def Panel.obey (w h : HalfWord) (b : Byte) (q : Panel) : Panel :=
  if b = opcSoftwareReset then
    { q.onlyCommand with pixels := if q.bench.keepsReset then q.pixels else q.bench.pixels }
  else if b = opcSleepOn then { q.slept with asleep := some true }
  else if b = opcSleepOff then { (if q.asleep = some true then q.slept else q) with asleep := some false }
  else if b = opcInvertOff then { q with inverted := some false }
  else if b = opcInvertOn then { q with inverted := some true }
  else if b = opcDisplayOff then { q with displayOn := some false }
  else if b = opcDisplayOn then { q with displayOn := some true }
  else if b = opcMemoryWrite then { q with cursor := Panel.windowStart w h q }
  else if b = opcColumnRange ∨ b = opcPageRange ∨ b = opcMemoryAccessControl ∨ b = opcPixelFormat
      ∨ b = opcBrightness then q
  else q.onlyCommand

/-- The panel takes a byte in the command phase (R80). -/
def Panel.takeCommand (w h : HalfWord) (b : Byte) (p : Panel) : Panel := Panel.obey w h b (Panel.beginCommand b p)

/-- A range of four data bytes, once all four have arrived (R81); until then it is not known. -/
def rangeOf : List Byte → Option (HalfWord × HalfWord)
  | [a, b, c, d] => some (a ++ b, c ++ d)
  | _ => none

/-- Store a pixel at the cursor and advance it: `x` by 1; past `x1` back to `x0` and `y` by 1 (R82). Past the end of the
window, or with no cursor, the effect is unknown (93 U12). -/
def Panel.storePixel (color : HalfWord) (p : Panel) : Panel :=
  match p.cursor, p.columns, p.pages with
  | some (x, y), some (x0, x1), some (_, y1) =>
    if y ≤ y1.toNat then
      { p with
        pixels := Memory.write p.pixels (pixelAddress x y) color
        cursor := some (if x < x1.toNat then (x + 1, y) else (x0.toNat, y + 1)) }
    else { p with pixels := [], cursor := none }
  | _, _, _ => { p with pixels := [], cursor := none }

/-- A byte in the data phase is a data byte of the current command (R80): a byte of a range (R81), half a pixel (R82),
or the one argument byte of the three commands that take one (R96). Any other data byte leaves everything unknown but
the current command and that it had data (R80; 93 U12). -/
def Panel.takeData (b : Byte) (p : Panel) : Panel :=
  if p.command = some opcColumnRange ∧ p.args.length < 4 then
    { p with args := p.args ++ [b], columns := rangeOf (p.args ++ [b]) }
  else if p.command = some opcPageRange ∧ p.args.length < 4 then
    { p with args := p.args ++ [b], pages := rangeOf (p.args ++ [b]) }
  else if p.command = some opcMemoryWrite then
    match p.args with
    | [] => { p with args := [b] }
    | h :: _ => Panel.storePixel (h ++ b) { p with args := [] }
  else if p.command = some opcMemoryAccessControl ∧ p.args = [] then
    { p with args := [b], accessControl := some b }
  else if p.command = some opcPixelFormat ∧ p.args = [] then { p with args := [b], pixelFormat := some b }
  else if p.command = some opcBrightness ∧ p.args = [] then { p with args := [b], brightness := some b }
  else { p.onlyCommand with args := p.args ++ [b] }

/-- The panel takes one byte, as a command or as data by the level of the select line (R80). -/
def Panel.takeByte (c : Config) (w h : HalfWord) (level : BitVec 1) (p : Panel) (b : Byte) : Panel :=
  if level = c.dcCmd then Panel.takeCommand w h b p else Panel.takeData b p

/-- The panel takes the delivered bytes of a write, in order (R63, R67, R80). -/
def Panel.takeBytes (c : Config) (w h : HalfWord) (level : BitVec 1) (bytes : List Byte) (p : Panel) : Panel :=
  bytes.foldl (Panel.takeByte c w h level) p

end Sys2Proof.Machine
end

