-- ==== Sys2Proof/Machine/Ops.lean ====
section
/-! DEFINITION. The shared operations: returning a status (60_exceptions.md R250, R261), the four bus events and ENV's
answers (20_memory.md R62, R63), the Transport Codec's call `tc_send` (40_transport_codec.md R120 to R128), the Panel
Driver's helpers `pd_command` and `set_window` (41_panel_driver.md R160, R161, R164), and the dirty rectangle
(R168, R169). -/

namespace Sys2Proof.Machine

/-! ### Results and statuses -/

/-- SEQ returns a result (R91, R250). -/
def State.finishSeq (st : Status) (res : HalfWord) (s : State) : State :=
  { s with seqResults := s.seqResults ++ [⟨st, res⟩] }

/-- QDA returns a result (R91, R226). -/
def State.finishQda (st : Status) (res : HalfWord) (s : State) : State :=
  { s with qdaResults := s.qdaResults ++ [⟨st, res⟩] }

/-- The block's one way of taking an exception (R261): nothing is saved, no mode changes and control goes nowhere; the
operation returns its status in place of `OK`, with `RES = 0` (R91). Every effect that stays is already in `s` (R262). -/
def returnStatus (st : Status) (s : State) : Outcome := .next (s.finishSeq st 0)

/-- How a part of an operation ended: the spec's `x ?` goes on only after `ok` (00_scope.md R13). -/
inductive Reply where
  | ok
  | err (st : Status)
  | hung
  deriving DecidableEq, Repr

/-- A part of an operation: the state it leaves and how it ended. -/
abbrev Run := State × Reply

/-- `x ?` (R13): go on after `ok`, else end at once with what is done so far. -/
def Run.andThen (r : Run) (k : State → Run) : Run :=
  match r.2 with
  | .ok => k r.1
  | .err _ => r
  | .hung => r

/-- The end of an operation: it returns its status, or hangs for ever without one (R9, R293). -/
def conclude (mode : SeqMode) (r : Run) : Outcome :=
  match r.2 with
  | .ok => returnStatus .ok r.1
  | .err st => returnStatus st r.1
  | .hung => .next { r.1 with seqMode := mode }

/-! ### Bus events -/

/-- ENV's answer to the next fallible event (R62); beyond the listed answers it is `ok` (notes/assumptions/3.md). -/
def State.nextAnswer (s : State) : Answer := s.answers.headD .ok

/-- How an event answered so ends, `st` the status of its failure (R62). -/
def Answer.reply (st : Status) : Answer → Reply
  | .ok => .ok
  | .fail _ => .err st
  | .never _ => .hung

/-- The level of a line after an event that drives it to `l`: `l` after `ok`, else unknown, the draw (R63). -/
def Answer.settle (l : BitVec 1) : Answer → BitVec 1
  | .ok => l
  | .fail draw => BitVec.ofNat 1 draw
  | .never draw => BitVec.ofNat 1 draw

/-- The bytes of a write that reached the panel: all after `ok`, else an unknown prefix, the draw (R63). -/
def Answer.delivered (bytes : List Byte) : Answer → List Byte
  | .ok => bytes
  | .fail draw => bytes.take draw
  | .never draw => bytes.take draw

/-- `emit RST(l)` (R62): after it nothing is known of the panel but what a test bench assumes (R83; 93 U13). -/
def emitRst (l : BitVec 1) (s : State) : Run :=
  ({ s with
      answers := s.answers.tail
      history := s.history ++ [.rst l s.nextAnswer]
      rstN := s.nextAnswer.settle l
      panel := s.panel.afterReset },
    s.nextAnswer.reply .resetError)

/-- `emit DC(l)` (R62, R123). -/
def emitDc (l : BitVec 1) (s : State) : Run :=
  ({ s with
      answers := s.answers.tail
      history := s.history ++ [.dc l s.nextAnswer]
      dc := s.nextAnswer.settle l },
    s.nextAnswer.reply .selectLineError)

/-- `emit WR(bytes)` (R62): the panel takes what reached it. -/
def emitWr (bytes : List Byte) (s : State) : Run :=
  ({ s with
      answers := s.answers.tail
      history := s.history ++ [.wr bytes s.nextAnswer]
      panel := Panel.takeBytes s.cfg s.width s.height s.dc (s.nextAnswer.delivered bytes) s.panel },
    s.nextAnswer.reply .busWriteError)

/-- `emit DLY(t)` (R62, R284): it cannot fail. -/
def emitDly (t : Nat) (s : State) : State := { s with history := s.history ++ [.dly t] }

/-! ### The Transport Codec -/

/-- Where the bytes of a frame come from (R120, R124): a byte sequence that is known whole (a slice, a literal of the
Panel Driver, the sequence FLUSH computes), or the producer port, pulled item by item. -/
inductive Source where
  | bytes (l : List Byte)
  | port8
  | port16 (o : ByteOrder)
  deriving DecidableEq, Repr

/-- `CB[0 .. n) <- ...` (R120). -/
def stage (chunk : List Byte) (s : State) : State := { s with cb := Memory.writeFrom s.cb 0 chunk }

/-- The next `n` bytes of a frame (R124); a producer shape pulls just the items these bytes need (R127). A producer
that runs out delivers no chunk; the items it did deliver are consumed (R65, R298). -/
def Source.fill (n : Nat) (s : State) : Source → State × Option (List Byte × Source)
  | .bytes l => (s, some (l.take n, .bytes (l.drop n)))
  | .port8 =>
    if n ≤ s.prod8.length then ({ s with prod8 := s.prod8.drop n }, some (s.prod8.take n, .port8))
    else (stage s.prod8 { s with prod8 := [] }, none)
  | .port16 o =>
    if n / 2 ≤ s.prod16.length then
      ({ s with prod16 := s.prod16.drop (n / 2) }, some (serAll o (s.prod16.take (n / 2)), .port16 o))
    else (stage (serAll o s.prod16) { s with prod16 := [] }, none)

/-- The chunked writes of a frame with `left` bytes to go (R120, R125 to R127); `fuel` bounds the number of writes. -/
def writeStream : Nat → Nat → Source → State → Run
  | 0, _, _, s => (s, .ok)
  | fuel + 1, left, src, s =>
    if left = 0 then (s, .ok)
    else
      match src.fill (min s.cfg.chunkBytes left) s with
      | (s1, none) => (s1, .hung)
      | (s1, some (chunk, src1)) =>
        (emitWr chunk (stage chunk s1)).andThen (writeStream fuel (left - min s.cfg.chunkBytes left) src1)

/-- Steps (3) to (5) of `tc_send` (R120): the select-line event, the chunked writes of `total` bytes, `OK`. -/
def tcSend (ph : Phase) (src : Source) (total : Nat) (s : State) : Run :=
  (emitDc (s.cfg.level ph) s).andThen (writeStream total total src)

/-- `tc_send` of a byte sequence that is known whole. -/
def sendBytes (ph : Phase) (l : List Byte) (s : State) : Run := tcSend ph (.bytes l) l.length s

/-- SENDC and SENDD with a reserved shape code (R95, R121, R129). -/
def sendReserved (s : State) : Outcome := returnStatus .unsupportedPayloadShape s

/-- SENDC and SENDD with a slice shape (R129 to R133): a slice that does not fit is `IllegalOp` with no effect; else the
in-place conversion of the whole slice (R122), then the select line and the writes. A slice over a byte of `PB` that
holds no value is not admitted (R38). -/
def sendSlice (ph : Phase) (sh : Shape) (len : Word) (s : State) : Outcome :=
  if s.cfg.pbBytes < len.toNat * sh.itemSize then returnStatus .illegalOp s
  else
    match Memory.readFrom s.pb 0 (len.toNat * sh.itemSize) with
    | none => .refused .unwrittenPayload
    | some bytes =>
      if sh.converts s.cfg.nativeOrder then
        conclude .hungInTransport
          (sendBytes ph (swapPairs bytes) { s with pb := Memory.writeFrom s.pb 0 (swapPairs bytes) })
      else conclude .hungInTransport (sendBytes ph bytes s)

/-- SENDC and SENDD with the byte producer shape (R134). -/
def sendProducer8 (ph : Phase) (len : Word) (s : State) : Outcome :=
  conclude .hungInTransport (tcSend ph .port8 len.toNat s)

/-- SENDC and SENDD with a 16-bit producer shape (R135 to R137). -/
def sendProducer16 (ph : Phase) (sh : Shape) (len : Word) (s : State) : Outcome :=
  conclude .hungInTransport (tcSend ph (.port16 (sh.order s.cfg.nativeOrder)) (2 * len.toNat) s)

/-! ### The Panel Driver -/

/-- State gating (R161): in any other `PD_STATE` than `need`, `BadState` with no effect. -/
def gated (need : PdState) (k : State → Outcome) (s : State) : Outcome :=
  if s.pd = need then k s else returnStatus .badState s

/-- `pd_command(op, args)` (R160), one wire transaction (R97): a command phase, and a data phase only when there are
data bytes. -/
def pdCommand (op : Byte) (args : List Byte) (s : State) : Run :=
  (sendBytes .command [op] s).andThen fun s1 => if args = [] then (s1, .ok) else sendBytes .data args s1

/-- `set_window(x0, y0, x1, y1)` (R164): `WIN` only when both range commands succeeded. -/
def setWindow (w : Window) (s : State) : Run :=
  (pdCommand opcColumnRange (rangeBytes w.x0 w.x1) s).andThen fun s1 =>
    (pdCommand opcPageRange (rangeBytes w.y0 w.y1) s1).andThen fun s2 => ({ s2 with win := w }, .ok)

/-- A wire transaction by itself (R97), as the bus sees it. -/
def transaction (op : Byte) (args : List Byte) (s : State) : Outcome :=
  conclude .hungInDriver (pdCommand op args s)

/-- A single-argument command write, valid in `Ready` only (R171 to R174). -/
def commandWrite (op : Byte) (args : List Byte) (s : State) : Outcome := gated .ready (transaction op args) s

/-! ### The dirty rectangle -/

/-- A rectangle, its four sides inclusive (R168). -/
structure Box where
  xmin : Nat
  ymin : Nat
  xmax : Nat
  ymax : Nat
  deriving DecidableEq, Repr

/-- The least rectangle that contains `b` and the cell `p`. -/
def Box.grow (b : Box) (p : Nat × Nat) : Box :=
  ⟨min b.xmin p.1, min b.ymin p.2, max b.xmax p.1, max b.ymax p.2⟩

/-- The bounding box of a set of cells, none of the empty set (R167, R168). -/
def boundingBox : List (Nat × Nat) → Option Box
  | [] => none
  | p :: ps => some (ps.foldl Box.grow ⟨p.1, p.2, p.1, p.2⟩)

/-- Every cell `(x, y)` of a rectangle of `w` by `h` cells with corner `(x0, y0)`, row by row (R169). -/
def cellsFrom (x0 y0 w h : Nat) : List (Nat × Nat) :=
  (List.range h).flatMap fun dy => (List.range w).map fun dx => (x0 + dx, y0 + dy)

/-- The set `D` of FLUSH (R167): the cells where the framebuffers differ, as stored. -/
def State.dirtyCells (s : State) : List (Nat × Nat) :=
  (cellsFrom 0 0 s.width.toNat s.height.toNat).filter fun p =>
    Memory.read s.cur (s.cellIndex p.1 p.2) != Memory.read s.snt (s.cellIndex p.1 p.2)

/-- The cells of a box, row by row, top row first, left to right (R169). -/
def Box.cells (b : Box) : List (Nat × Nat) :=
  cellsFrom b.xmin b.ymin (b.xmax - b.xmin + 1) (b.ymax - b.ymin + 1)

/-- `seq` of FLUSH (R169): the box's pixels as they are sent, none when a cell holds no value. -/
def State.boxPixels (s : State) (b : Box) : Option (List HalfWord) :=
  (Memory.readAll s.cur (b.cells.map fun p => s.cellIndex p.1 p.2)).map fun cells => cells.map s.cfg.expand

/-- The window of a box; a box of the framebuffer fits 16 bits (R71, R168). -/
def Box.window (b : Box) : Window :=
  ⟨BitVec.ofNat 16 b.xmin, BitVec.ofNat 16 b.ymin, BitVec.ofNat 16 b.xmax, BitVec.ofNat 16 b.ymax⟩

/-- The sending part of FLUSH (R167, R170): window, memory-write, pixels, and only then `snt` becomes `cur`. -/
def flushBox (b : Box) (pixels : List HalfWord) (s : State) : Run :=
  (setWindow b.window s).andThen fun s1 =>
    (sendBytes .command [opcMemoryWrite] s1).andThen fun s2 =>
      (sendBytes .data (serAll .be pixels) s2).andThen fun s3 => ({ s3 with snt := s3.cur }, .ok)

/-! ### Initialisation -/

/-- What INIT writes before its first event (R162): `ORIENT`, both framebuffers, `Resetting`. -/
def initStart (v : Orientation) (s : State) : State :=
  { s with
    orient := v
    cur := Memory.fill s.cfg.cells s.cfg.fbInit
    snt := Memory.fill s.cfg.cells s.cfg.fbInit
    pd := .resetting }

/-- INIT in `Resetting`: the reset pulse and its delays (R162, R163). -/
def initResetting (s : State) : Run :=
  (emitRst 0 s).andThen fun s1 =>
    (emitRst 1 (emitDly s.cfg.tRstLow s1)).andThen fun s2 =>
      ({ emitDly s.cfg.tRstSettle s2 with pd := .softwareReset }, .ok)

/-- INIT in `SoftwareReset` (R162, R163). -/
def initSoftwareReset (s : State) : Run :=
  (pdCommand opcSoftwareReset [] s).andThen fun s1 =>
    ({ emitDly s.cfg.tSwReset s1 with pd := .configuringFormat }, .ok)

/-- INIT in `ConfiguringFormat` (R162, R163). -/
def initConfiguring (v : Orientation) (s : State) : Run :=
  (pdCommand opcMemoryAccessControl [s.cfg.madctl v] s).andThen fun s1 =>
    (pdCommand opcPixelFormat [s.cfg.pixfmt16bpp] s1).andThen fun s2 =>
      ({ emitDly s.cfg.tCfg s2 with pd := .wakingFromSleep }, .ok)

/-- INIT in `WakingFromSleep` (R162, R163). -/
def initWaking (s : State) : Run :=
  (pdCommand opcSleepOff [] s).andThen fun s1 =>
    (pdCommand opcDisplayOn [] (emitDly s.cfg.tWake s1)).andThen fun s2 => ({ s2 with pd := .ready }, .ok)

/-- The whole walk of INIT, forward only (R25, R162, R163). -/
def initSequence (v : Orientation) (s : State) : Run :=
  (initResetting (initStart v s)).andThen fun s1 =>
    (initSoftwareReset s1).andThen fun s2 => (initConfiguring v s2).andThen initWaking

end Sys2Proof.Machine
end

