-- ==== Sys2Proof/Machine/Driver.lean ====
section
/-! DEFINITION. The meanings of the Panel Driver's operations (41_panel_driver.md R162 to R177). -/

namespace Sys2Proof.Machine

/-- `INIT v` (R162): accepted in `Uninitialized` only; a failed INIT leaves `PD_STATE` at the state the failing step lies
in (R163). -/
def execInit (v : Orientation) (s : State) : Outcome :=
  gated .uninitialized (fun s => conclude .hungInDriver (initSequence v s)) s

/-- `SETWIN x0, y0, x1, y1` (R164): nothing is checked. -/
def execSetwin (x0 y0 x1 y1 : HalfWord) (s : State) : Outcome :=
  gated .ready (fun s => conclude .hungInDriver (setWindow ⟨x0, y0, x1, y1⟩ s)) s

/-- `WRPIX x, y, color` (R165): bounds-checked, no event ever. -/
def execWrpix (x y color : HalfWord) (s : State) : Outcome :=
  gated .ready
    (fun s =>
      if s.width.toNat ≤ x.toNat ∨ s.height.toNat ≤ y.toNat then returnStatus .outOfBoundsError s
      else
        returnStatus .ok
          { s with cur := Memory.write s.cur (s.cellIndex x.toNat y.toNat) (s.cfg.reduce color) })
    s

/-- `CLEAR color` (R166): every cell of `cur`, no event. -/
def execClear (color : HalfWord) (s : State) : Outcome :=
  gated .ready
    (fun s => returnStatus .ok { s with cur := Memory.fill s.cfg.cells (s.cfg.reduce color) }) s

/-- `FLUSH` (R167): no event at all when nothing differs; else the bounding box of the difference is sent. -/
def execFlush (s : State) : Outcome :=
  gated .ready
    (fun s =>
      match boundingBox s.dirtyCells with
      | none => returnStatus .ok s
      | some b =>
        match s.boxPixels b with
        | none => .fault .unspecifiedCell
        | some pixels => conclude .hungInDriver (flushBox b pixels s))
    s

/-- `BRIGHT value` (R171). -/
def execBright (value : Byte) (s : State) : Outcome := commandWrite opcBrightness [value] s

/-- `SLEEP mode` (R172): no delay after either opcode (R292). -/
def execSleep (mode : BitVec 1) (s : State) : Outcome :=
  commandWrite (if mode = 1 then opcSleepOn else opcSleepOff) [] s

/-- `DISPLAY mode` (R173). -/
def execDisplay (mode : BitVec 1) (s : State) : Outcome :=
  commandWrite (if mode = 1 then opcDisplayOn else opcDisplayOff) [] s

/-- `INVERT mode` (R174). -/
def execInvert (mode : BitVec 1) (s : State) : Outcome :=
  commandWrite (if mode = 1 then opcInvertOn else opcInvertOff) [] s

/-- `SETORI v` (R175): `ORIENT` only on success; no cell of a framebuffer is touched. -/
def execSetori (v : Orientation) (s : State) : Outcome :=
  gated .ready
    (fun s =>
      conclude .hungInDriver
        ((pdCommand opcMemoryAccessControl [s.cfg.madctl v] s).andThen fun s1 => ({ s1 with orient := v }, .ok)))
    s

/-- `GETW` (R176): accepted in every `PD_STATE`. -/
def execGetw (s : State) : Outcome := .next (s.finishSeq .ok s.width)

/-- `GETH` (R177): accepted in every `PD_STATE`. -/
def execGeth (s : State) : Outcome := .next (s.finishSeq .ok s.height)

end Sys2Proof.Machine
end

