-- ==== Sys2Proof/Machine/Quadrature.lean ====
section
/-! DEFINITION. The meaning of the Quadrature Decoder's operation POLL (42_quadrature_decoder.md R220 to R225). -/

namespace Sys2Proof.Machine

/-- What a POLL makes of the registers after the shift (R222 to R225): a direction wins over the button, and then the
button condition is not evaluated at all; an accepted press is stamped. -/
def classify (c : Config) (p : Pins) (q : Qda) : Qda × HalfWord :=
  match directionOf c (phasePattern q) with
  | some d => (q, d.eventCode)
  | none =>
    if pressAcceptable c p q then ({ q with tLast := p.now, tValid := true }, eventSelect)
    else (q, eventNone)

/-- `POLL` (R225): the pins and `now` are sampled once; it cannot fail and emits no bus event. -/
def execPoll (s : State) : Outcome :=
  .next
    (({ s with qda := (classify s.cfg s.pins (sample s.pins s.qda)).1 }).finishQda .ok
      (classify s.cfg s.pins (sample s.pins s.qda)).2)

end Sys2Proof.Machine
end

