-- ==== Sys2Proof/Machine/Transport.lean ====
section
/-! DEFINITION. The meanings of the Transport Codec's host operations SENDC and SENDD (40_transport_codec.md R129 to
R137) and of the sixteen reserved shape codes (30_encoding.md R95 (1), R121). They are accepted in every `PD_STATE`
(R129). -/

namespace Sys2Proof.Machine

/-- `SENDC.U8` (R129, R130). -/
def execSendcU8 (len : Word) (s : State) : Outcome := sendSlice .command .u8 len s

/-- `SENDC.U16` (R129, R131). -/
def execSendcU16 (len : Word) (s : State) : Outcome := sendSlice .command .u16 len s

/-- `SENDC.U16LE` (R129, R132). -/
def execSendcU16le (len : Word) (s : State) : Outcome := sendSlice .command .u16le len s

/-- `SENDC.U16BE` (R129, R133). -/
def execSendcU16be (len : Word) (s : State) : Outcome := sendSlice .command .u16be len s

/-- `SENDC.U8I` (R129, R134). -/
def execSendcU8i (len : Word) (s : State) : Outcome := sendProducer8 .command len s

/-- `SENDC.U16I` (R129, R135). -/
def execSendcU16i (len : Word) (s : State) : Outcome := sendProducer16 .command .u16i len s

/-- `SENDC.U16LEI` (R129, R136). -/
def execSendcU16lei (len : Word) (s : State) : Outcome := sendProducer16 .command .u16lei len s

/-- `SENDC.U16BEI` (R129, R137). -/
def execSendcU16bei (len : Word) (s : State) : Outcome := sendProducer16 .command .u16bei len s

/-- `SENDD.U8` (R129, R130). -/
def execSenddU8 (len : Word) (s : State) : Outcome := sendSlice .data .u8 len s

/-- `SENDD.U16` (R129, R131). -/
def execSenddU16 (len : Word) (s : State) : Outcome := sendSlice .data .u16 len s

/-- `SENDD.U16LE` (R129, R132). -/
def execSenddU16le (len : Word) (s : State) : Outcome := sendSlice .data .u16le len s

/-- `SENDD.U16BE` (R129, R133). -/
def execSenddU16be (len : Word) (s : State) : Outcome := sendSlice .data .u16be len s

/-- `SENDD.U8I` (R129, R134). -/
def execSenddU8i (len : Word) (s : State) : Outcome := sendProducer8 .data len s

/-- `SENDD.U16I` (R129, R135). -/
def execSenddU16i (len : Word) (s : State) : Outcome := sendProducer16 .data .u16i len s

/-- `SENDD.U16LEI` (R129, R136). -/
def execSenddU16lei (len : Word) (s : State) : Outcome := sendProducer16 .data .u16lei len s

/-- `SENDD.U16BEI` (R129, R137). -/
def execSenddU16bei (len : Word) (s : State) : Outcome := sendProducer16 .data .u16bei len s

/-- `SENDC.reserved8`: `UnsupportedPayloadShape`, no effect, whatever the length (R95, R121, R255). -/
def execSendcReserved8 (_len : Word) (s : State) : Outcome := sendReserved s

/-- `SENDC.reserved9`: `UnsupportedPayloadShape`, no effect, whatever the length (R95, R121, R255). -/
def execSendcReserved9 (_len : Word) (s : State) : Outcome := sendReserved s

/-- `SENDC.reserved10`: `UnsupportedPayloadShape`, no effect, whatever the length (R95, R121, R255). -/
def execSendcReserved10 (_len : Word) (s : State) : Outcome := sendReserved s

/-- `SENDC.reserved11`: `UnsupportedPayloadShape`, no effect, whatever the length (R95, R121, R255). -/
def execSendcReserved11 (_len : Word) (s : State) : Outcome := sendReserved s

/-- `SENDC.reserved12`: `UnsupportedPayloadShape`, no effect, whatever the length (R95, R121, R255). -/
def execSendcReserved12 (_len : Word) (s : State) : Outcome := sendReserved s

/-- `SENDC.reserved13`: `UnsupportedPayloadShape`, no effect, whatever the length (R95, R121, R255). -/
def execSendcReserved13 (_len : Word) (s : State) : Outcome := sendReserved s

/-- `SENDC.reserved14`: `UnsupportedPayloadShape`, no effect, whatever the length (R95, R121, R255). -/
def execSendcReserved14 (_len : Word) (s : State) : Outcome := sendReserved s

/-- `SENDC.reserved15`: `UnsupportedPayloadShape`, no effect, whatever the length (R95, R121, R255). -/
def execSendcReserved15 (_len : Word) (s : State) : Outcome := sendReserved s

/-- `SENDD.reserved8`: `UnsupportedPayloadShape`, no effect, whatever the length (R95, R121, R255). -/
def execSenddReserved8 (_len : Word) (s : State) : Outcome := sendReserved s

/-- `SENDD.reserved9`: `UnsupportedPayloadShape`, no effect, whatever the length (R95, R121, R255). -/
def execSenddReserved9 (_len : Word) (s : State) : Outcome := sendReserved s

/-- `SENDD.reserved10`: `UnsupportedPayloadShape`, no effect, whatever the length (R95, R121, R255). -/
def execSenddReserved10 (_len : Word) (s : State) : Outcome := sendReserved s

/-- `SENDD.reserved11`: `UnsupportedPayloadShape`, no effect, whatever the length (R95, R121, R255). -/
def execSenddReserved11 (_len : Word) (s : State) : Outcome := sendReserved s

/-- `SENDD.reserved12`: `UnsupportedPayloadShape`, no effect, whatever the length (R95, R121, R255). -/
def execSenddReserved12 (_len : Word) (s : State) : Outcome := sendReserved s

/-- `SENDD.reserved13`: `UnsupportedPayloadShape`, no effect, whatever the length (R95, R121, R255). -/
def execSenddReserved13 (_len : Word) (s : State) : Outcome := sendReserved s

/-- `SENDD.reserved14`: `UnsupportedPayloadShape`, no effect, whatever the length (R95, R121, R255). -/
def execSenddReserved14 (_len : Word) (s : State) : Outcome := sendReserved s

/-- `SENDD.reserved15`: `UnsupportedPayloadShape`, no effect, whatever the length (R95, R121, R255). -/
def execSenddReserved15 (_len : Word) (s : State) : Outcome := sendReserved s

end Sys2Proof.Machine
end

