-- ==== Sys2Proof/Machine/Wire.lean ====
section
/-! DEFINITION. The meanings of the wire transactions (30_encoding.md R96 to R98, R100): the transaction itself as it
goes over the bus, a command phase and at most one data phase (R97), which every Panel Driver operation is made of,
and with it what the panel makes of the bytes (20_memory.md R80 to R83). See notes/assumptions/11.md. -/

namespace Sys2Proof.Machine

/-- `wire.software-reset` (R96, R97; R281). -/
def execWireSoftwareReset (s : State) : Outcome := transaction opcSoftwareReset [] s

/-- `wire.sleep-on` (R96, R97; R269). -/
def execWireSleepOn (s : State) : Outcome := transaction opcSleepOn [] s

/-- `wire.sleep-off` (R96, R97; R269). -/
def execWireSleepOff (s : State) : Outcome := transaction opcSleepOff [] s

/-- `wire.invert-off` (R96, R97; R83). -/
def execWireInvertOff (s : State) : Outcome := transaction opcInvertOff [] s

/-- `wire.invert-on` (R96, R97; R83). -/
def execWireInvertOn (s : State) : Outcome := transaction opcInvertOn [] s

/-- `wire.display-off` (R96, R97; R83). -/
def execWireDisplayOff (s : State) : Outcome := transaction opcDisplayOff [] s

/-- `wire.display-on` (R96, R97; R83). -/
def execWireDisplayOn (s : State) : Outcome := transaction opcDisplayOn [] s

/-- `wire.column-range` (R96, R97; R81). -/
def execWireColumnRange (x0 x1 : HalfWord) (s : State) : Outcome := transaction opcColumnRange (rangeBytes x0 x1) s

/-- `wire.page-range` (R96, R97; R81). -/
def execWirePageRange (y0 y1 : HalfWord) (s : State) : Outcome := transaction opcPageRange (rangeBytes y0 y1) s

/-- `wire.memory-write` (R96, R97; R82). -/
def execWireMemoryWrite (pixels : List HalfWord) (s : State) : Outcome := transaction opcMemoryWrite (serAll .be pixels) s

/-- `wire.memory-access-control` (R96, R97; R83). -/
def execWireMemoryAccessControl (flags : Byte) (s : State) : Outcome := transaction opcMemoryAccessControl [flags] s

/-- `wire.pixel-format` (R96, R97; R83). -/
def execWirePixelFormat (format : Byte) (s : State) : Outcome := transaction opcPixelFormat [format] s

/-- `wire.brightness` (R96, R97; R83). -/
def execWireBrightness (value : Byte) (s : State) : Outcome := transaction opcBrightness [value] s

end Sys2Proof.Machine
end

