-- ==== Sys2Proof/Machine/Dispatch.lean ====
section
/-! DEFINITION. One arm per operation. -/

namespace Sys2Proof.Machine

/-- The meaning of an operation that SEQ or QDA has accepted. -/
def exec (i : Instr) (s : State) : Host.Outcome State Fault Refusal :=
  match i with
  | .sendcU8 len => Sys2Proof.Machine.execSendcU8 len s
  | .sendcU16 len => Sys2Proof.Machine.execSendcU16 len s
  | .sendcU16le len => Sys2Proof.Machine.execSendcU16le len s
  | .sendcU16be len => Sys2Proof.Machine.execSendcU16be len s
  | .sendcU8i len => Sys2Proof.Machine.execSendcU8i len s
  | .sendcU16i len => Sys2Proof.Machine.execSendcU16i len s
  | .sendcU16lei len => Sys2Proof.Machine.execSendcU16lei len s
  | .sendcU16bei len => Sys2Proof.Machine.execSendcU16bei len s
  | .senddU8 len => Sys2Proof.Machine.execSenddU8 len s
  | .senddU16 len => Sys2Proof.Machine.execSenddU16 len s
  | .senddU16le len => Sys2Proof.Machine.execSenddU16le len s
  | .senddU16be len => Sys2Proof.Machine.execSenddU16be len s
  | .senddU8i len => Sys2Proof.Machine.execSenddU8i len s
  | .senddU16i len => Sys2Proof.Machine.execSenddU16i len s
  | .senddU16lei len => Sys2Proof.Machine.execSenddU16lei len s
  | .senddU16bei len => Sys2Proof.Machine.execSenddU16bei len s
  | .sendcReserved8 len => Sys2Proof.Machine.execSendcReserved8 len s
  | .sendcReserved9 len => Sys2Proof.Machine.execSendcReserved9 len s
  | .sendcReserved10 len => Sys2Proof.Machine.execSendcReserved10 len s
  | .sendcReserved11 len => Sys2Proof.Machine.execSendcReserved11 len s
  | .sendcReserved12 len => Sys2Proof.Machine.execSendcReserved12 len s
  | .sendcReserved13 len => Sys2Proof.Machine.execSendcReserved13 len s
  | .sendcReserved14 len => Sys2Proof.Machine.execSendcReserved14 len s
  | .sendcReserved15 len => Sys2Proof.Machine.execSendcReserved15 len s
  | .senddReserved8 len => Sys2Proof.Machine.execSenddReserved8 len s
  | .senddReserved9 len => Sys2Proof.Machine.execSenddReserved9 len s
  | .senddReserved10 len => Sys2Proof.Machine.execSenddReserved10 len s
  | .senddReserved11 len => Sys2Proof.Machine.execSenddReserved11 len s
  | .senddReserved12 len => Sys2Proof.Machine.execSenddReserved12 len s
  | .senddReserved13 len => Sys2Proof.Machine.execSenddReserved13 len s
  | .senddReserved14 len => Sys2Proof.Machine.execSenddReserved14 len s
  | .senddReserved15 len => Sys2Proof.Machine.execSenddReserved15 len s
  | .init v => Sys2Proof.Machine.execInit v s
  | .setwin x0 y0 x1 y1 => Sys2Proof.Machine.execSetwin x0 y0 x1 y1 s
  | .wrpix x y color => Sys2Proof.Machine.execWrpix x y color s
  | .clear color => Sys2Proof.Machine.execClear color s
  | .flush => Sys2Proof.Machine.execFlush s
  | .bright value => Sys2Proof.Machine.execBright value s
  | .sleep mode => Sys2Proof.Machine.execSleep mode s
  | .display mode => Sys2Proof.Machine.execDisplay mode s
  | .invert mode => Sys2Proof.Machine.execInvert mode s
  | .setori v => Sys2Proof.Machine.execSetori v s
  | .getw => Sys2Proof.Machine.execGetw s
  | .geth => Sys2Proof.Machine.execGeth s
  | .poll => Sys2Proof.Machine.execPoll s
  | .wireSoftwareReset => Sys2Proof.Machine.execWireSoftwareReset s
  | .wireSleepOn => Sys2Proof.Machine.execWireSleepOn s
  | .wireSleepOff => Sys2Proof.Machine.execWireSleepOff s
  | .wireInvertOff => Sys2Proof.Machine.execWireInvertOff s
  | .wireInvertOn => Sys2Proof.Machine.execWireInvertOn s
  | .wireDisplayOff => Sys2Proof.Machine.execWireDisplayOff s
  | .wireDisplayOn => Sys2Proof.Machine.execWireDisplayOn s
  | .wireColumnRange x0 x1 => Sys2Proof.Machine.execWireColumnRange x0 x1 s
  | .wirePageRange y0 y1 => Sys2Proof.Machine.execWirePageRange y0 y1 s
  | .wireMemoryWrite pixels => Sys2Proof.Machine.execWireMemoryWrite pixels s
  | .wireMemoryAccessControl flags => Sys2Proof.Machine.execWireMemoryAccessControl flags s
  | .wirePixelFormat format => Sys2Proof.Machine.execWirePixelFormat format s
  | .wireBrightness value => Sys2Proof.Machine.execWireBrightness value s

end Sys2Proof.Machine
end

