-- ==== Sys2Proof/Machine/Inputs.lean ====
section
/-! DEFINITION. How the block takes what HOST and ENV do: which input is taken next (30_encoding.md R93, 20_memory.md
R73), the fetch of a command word, HOST's writes to the payload buffer (R64), the producer port (R65), the lines ENV
drives (R220), and block reset (70_reset_and_hazards.md R280). -/

namespace Sys2Proof.Machine

/-- The port an operation is executed on (R93): POLL on `QDA_CMD`, every other command on `SEQ_CMD`; a wire transaction
by itself on the model's own port. -/
def portOf (i : Instr) : Port :=
  match i with
  | .poll => .qdaCmd
  | i =>
    match encode i with
    | .command _ => .seqCmd
    | .wire _ => .wire

/-- What can be taken (R93, R293): a hung SEQ accepts no command; HOST may read and write `PB` only while no SENDC or
SENDD is in progress (R64, R297); everything else at any time. -/
def acceptable (m : SeqMode) : Input → Bool
  | .seqCmd _ | .wire _ => m == .idle
  | .payloadBytes _ _ | .payloadWords _ _ | .readBytes _ _ | .readWords _ _ => m != .hungInTransport
  | .qdaCmd _ | .produceBytes _ | .produceWords _ | .answers _ | .pins _ | .bench _ | .blockReset => true

/-- The first input that can be taken, and the others, which wait. -/
def takeInput (m : SeqMode) : List Input → Option (Input × List Input)
  | [] => none
  | i :: rest =>
    if acceptable m i then some (i, rest)
    else
      match takeInput m rest with
      | some (j, others) => some (j, i :: others)
      | none => none

/-- Block reset (R280): every element of the state to its reset value, the event history emptied, an operation in
progress abandoned without a result. What is no state of the block stays: the parameters, the lines, what HOST and ENV
have ready, and the panel, which block reset does not touch; when an operation was in progress nothing is known of the
panel any more (93 U8). -/
def blockReset (s : State) : State :=
  { State.reset with
    cfg := s.cfg
    pins := s.pins
    prod8 := s.prod8
    prod16 := s.prod16
    answers := s.answers
    inputs := s.inputs
    panel := if s.seqMode = .idle then s.panel else s.panel.forget }

/-- HOST writes bytes into `PB` (R64): there is no byte at or above `PB_BYTES`. -/
def hostWrite (i : Nat) (bytes : List Byte) (s : State) : Outcome :=
  if s.cfg.pbBytes < i + bytes.length then .fault .payloadAddress
  else .next { s with pb := Memory.writeFrom s.pb i bytes }

/-- HOST reads bytes of `PB` (R64): there is none at or above `PB_BYTES`, and a byte nothing has written has no value
(R38). -/
def hostReadBytes (i n : Nat) (s : State) : Outcome :=
  if s.cfg.pbBytes < i + n then .fault .payloadAddress
  else
    match Memory.readFrom s.pb i n with
    | none => .fault .payloadUnwritten
    | some l => .next { s with hostReads := s.hostReads ++ [.bytes i l] }

/-- HOST, which is the native-order machine, reads words of `PB`: `PBW(i)` (R64, R68). -/
def hostReadWords (i n : Nat) (s : State) : Outcome :=
  if s.cfg.pbBytes < 2 * i + 2 * n then .fault .payloadAddress
  else
    match Memory.words s.cfg.nativeOrder s.pb i n with
    | none => .fault .payloadUnwritten
    | some l => .next { s with hostReads := s.hostReads ++ [.words i l] }

/-- A test bench states what it assumes of the panel (R83; 93 U13, D41). -/
def assume (b : Bench) (s : State) : State :=
  { s with panel := { s.panel with bench := { b with pixels := Memory.ofList b.pixels } } }

/-- What a step has to do with the input it took. -/
inductive Fetched where
  /-- Execute an operation. -/
  | run (i : Instr) (s : State)
  /-- Nothing to execute. -/
  | done (o : Outcome)

/-- A command word on `SEQ_CMD`: an `OP` outside the map, or of the class the other port executes, is `IllegalOp`
with no effect (R93, R95 (2), R258). -/
def fetchSeq (cw : CommandWord) (s : State) : Fetched :=
  match decodeCommand cw with
  | .ok i => if portOf i = .seqCmd then .run i s else .done (.next (s.finishSeq .illegalOp 0))
  | .error _ => .done (.next (s.finishSeq .illegalOp 0))

/-- A command word on `QDA_CMD`, as on `SEQ_CMD`. -/
def fetchQda (cw : CommandWord) (s : State) : Fetched :=
  match decodeCommand cw with
  | .ok i => if portOf i = .qdaCmd then .run i s else .done (.next (s.finishQda .illegalOp 0))
  | .error _ => .done (.next (s.finishQda .illegalOp 0))

/-- A wire transaction by itself. -/
def fetchWire (bytes : List Byte) (s : State) : Fetched :=
  match decodeWire bytes with
  | .ok i => .run i s
  | .error _ => .done (.refused .noTransaction)

/-- Take one input. -/
def take (input : Input) (s : State) : Fetched :=
  match input with
  | .seqCmd cw => fetchSeq cw s
  | .qdaCmd cw => fetchQda cw s
  | .wire bytes => fetchWire bytes s
  | .payloadBytes i bytes => .done (hostWrite i bytes s)
  | .payloadWords i words => .done (hostWrite (2 * i) (serAll s.cfg.nativeOrder words) s)
  | .readBytes i n => .done (hostReadBytes i n s)
  | .readWords i n => .done (hostReadWords i n s)
  | .produceBytes items => .done (.next { s with prod8 := items })
  | .produceWords items => .done (.next { s with prod16 := items })
  | .answers list => .done (.next { s with answers := list })
  | .pins levels => .done (.next { s with pins := levels })
  | .bench assumed => .done (.next (assume assumed s))
  | .blockReset => .done (.next (blockReset s))

/-- Take the next input that can be taken; with none the block waits (notes/assumptions/27.md). -/
def fetch (s : State) : Fetched :=
  match takeInput s.seqMode s.inputs with
  | none => .done (.next s)
  | some (input, rest) => take input { s with inputs := rest }

/-- The input by which words arrive: a command word on the port its class is executed on (R93), a wire transaction on
the model's own port. -/
def inputOf : Words → Input
  | .command cw => if (opField cw).toNat / 16 = 4 then .qdaCmd cw else .seqCmd cw
  | .wire bytes => .wire bytes

end Sys2Proof.Machine
end

