-- ==== Sys2Proof/Machine/Step.lean ====
section
/-! DEFINITION. One step of the machine: take the next input and, when it is an operation, execute it as one atomic
transition (00_scope.md R7, R8; 20_memory.md R73). -/

namespace Sys2Proof.Machine

/-- One step. -/
def step (s : State) : Host.Outcome State Fault Refusal :=
  match fetch s with
  | .run i t => exec i t
  | .done o => o

/-- `s` with the instruction of an opcode-table word as the next input, issued by HOST on its port, and SEQ ready to
take it. -/
def State.withFetchWord (s : State) (nbits w : Nat) : State :=
  match tableWords nbits w with
  | some words => { s with inputs := inputOf words :: s.inputs, seqMode := .idle }
  | none => s

end Sys2Proof.Machine
end

