-- ==== Sys2Proof/Safety.lean ====
section
/-! DEFINITION. The terms claims about the machine use: what an ENV that answers everything is, what an operation's
frame is, what it appends to the event history, and the invariant of a run. -/

namespace Sys2Proof.Machine

/-- ENV answers every event `ok` (R62). -/
def AllOk (s : State) : Prop := ∀ a ∈ s.answers, a = .ok

/-- What no operation of SEQ reads or writes (R21), and what HOST and ENV alone change. -/
structure KeepsOutside (s t : State) : Prop where
  cfg : t.cfg = s.cfg
  qda : t.qda = s.qda
  qdaResults : t.qdaResults = s.qdaResults
  pins : t.pins = s.pins
  inputs : t.inputs = s.inputs
  hostReads : t.hostReads = s.hostReads

/-- The Panel Driver's elements and `RST_n`, which no transport call changes (R128). -/
structure KeepsDriver (s t : State) : Prop where
  pd : t.pd = s.pd
  orient : t.orient = s.orient
  win : t.win = s.win
  cur : t.cur = s.cur
  snt : t.snt = s.snt
  rstN : t.rstN = s.rstN

/-- The payload buffer and the producer port, which no Panel Driver operation touches (R160). -/
structure KeepsPayload (s t : State) : Prop where
  pb : t.pb = s.pb
  prod8 : t.prod8 = s.prod8
  prod16 : t.prod16 = s.prod16

/-- The operation returned the result `(st, res)` on `SEQ_CMD` (R91). -/
def Returns (s t : State) (st : Status) (res : HalfWord) : Prop :=
  t.seqResults = s.seqResults ++ [⟨st, res⟩]

/-- The events of one successful transport call (R123, R125): one select-line event and the chunks of the stream. -/
def sentEvents (c : Config) (ph : Phase) (l : List Byte) : List Event :=
  .dc (c.level ph) .ok :: (chunksOf c.chunkBytes l).map fun chunk => .wr chunk .ok

/-- The events of one successful wire transaction (R97). -/
def transactionEvents (c : Config) (op : Byte) (args : List Byte) : List Event :=
  sentEvents c .command [op] ++ if args = [] then [] else sentEvents c .data args

/-- The panel after a transport call whose bytes all reached it. -/
def panelAfter (s : State) (ph : Phase) (l : List Byte) : Panel :=
  Panel.takeBytes s.cfg s.width s.height (s.cfg.level ph) l s.panel

/-- What a panel is after a wire transaction whose bytes all reached it (R80). -/
def takeTransaction (s : State) (op : Byte) (args : List Byte) (p : Panel) : Panel :=
  Panel.takeBytes s.cfg s.width s.height s.cfg.dcData args
    (Panel.takeBytes s.cfg s.width s.height s.cfg.dcCmd [op] p)

/-- A SENDC or SENDD succeeded in sending the byte stream `l`: its events, the select line, what the panel took, the
result `(OK, 0)`, the staging buffer beyond the longest chunk, and everything no transport call changes (R123 to R128,
R139). -/
structure Sent (s t : State) (ph : Phase) (l : List Byte) : Prop where
  history : t.history = s.history ++ sentEvents s.cfg ph l
  dc : t.dc = s.cfg.level ph
  panel : t.panel = panelAfter s ph l
  staging : ∀ a, min s.cfg.chunkBytes l.length ≤ a → Memory.read t.cb a = Memory.read s.cb a
  result : Returns s t .ok 0
  outside : KeepsOutside s t
  driver : KeepsDriver s t
  seqMode : t.seqMode = s.seqMode

/-- An operation of the Panel Driver succeeded: the events it emitted, what the panel is then, the number of bytes it
staged at most, the result `(OK, 0)`, and everything no such operation changes (R160). -/
structure Succeeded (s t : State) (events : List Event) (panel : Panel) (staged : Nat) : Prop where
  history : t.history = s.history ++ events
  panel : t.panel = panel
  staging : ∀ a, min s.cfg.chunkBytes staged ≤ a → Memory.read t.cb a = Memory.read s.cb a
  result : Returns s t .ok 0
  outside : KeepsOutside s t
  payload : KeepsPayload s t
  seqMode : t.seqMode = s.seqMode

/-- A command write or a wire transaction succeeded (R97, R160). -/
structure Transacted (s t : State) (op : Byte) (args : List Byte) : Prop where
  run : Succeeded s t (transactionEvents s.cfg op args) (takeTransaction s op args s.panel) (max 1 args.length)
  dc : t.dc = if args = [] then s.cfg.dcCmd else s.cfg.dcData

/-- The status of the failure of an event; a delay cannot fail (R62, R250). -/
def failureOf : Event → Option Status
  | .rst _ _ => some .resetError
  | .dc _ _ => some .selectLineError
  | .wr _ _ => some .busWriteError
  | .dly _ => none

/-- The events `es` up to its fallible event number `n`, counted from 0, that one answered `a` (R36, R62). -/
def cutAt (a : Answer) : Nat → List Event → List Event
  | _, [] => []
  | n, .dly t :: es => .dly t :: cutAt a n es
  | 0, .rst l _ :: _ => [.rst l a]
  | 0, .dc l _ :: _ => [.dc l a]
  | 0, .wr bytes _ :: _ => [.wr bytes a]
  | n + 1, e :: es => e :: cutAt a n es

/-- The panel and the two output lines after one more event: a line is at its new level after `ok` and at the drawn one
otherwise; the panel takes a write whole after `ok` and the drawn prefix otherwise; after a reset pulse it is as a test
bench assumes (R28, R29, R63, R80, R83). -/
def playEvent (c : Config) (w h : HalfWord) (lines : Panel × BitVec 1 × BitVec 1) : Event → Panel × BitVec 1 × BitVec 1
  | .rst l .ok => (lines.1.afterReset, lines.2.1, l)
  | .rst _ (.fail draw) => (lines.1.afterReset, lines.2.1, BitVec.ofNat 1 draw)
  | .rst _ (.never draw) => (lines.1.afterReset, lines.2.1, BitVec.ofNat 1 draw)
  | .dc l .ok => (lines.1, l, lines.2.2)
  | .dc _ (.fail draw) => (lines.1, BitVec.ofNat 1 draw, lines.2.2)
  | .dc _ (.never draw) => (lines.1, BitVec.ofNat 1 draw, lines.2.2)
  | .wr bytes .ok => (Panel.takeBytes c w h lines.2.1 bytes lines.1, lines.2)
  | .wr bytes (.fail draw) => (Panel.takeBytes c w h lines.2.1 (bytes.take draw) lines.1, lines.2)
  | .wr bytes (.never draw) => (Panel.takeBytes c w h lines.2.1 (bytes.take draw) lines.1, lines.2)
  | .dly _ => lines

/-- The chunks of a byte stream that are whole (R99). -/
def wholeChunks (c : Nat) (l : List Byte) : List (List Byte) := chunksOf c (l.take (l.length / c * c))

/-- The panel is not in the middle of a pixel (R82; 93 U12). -/
def Panel.Settled (p : Panel) : Prop := p.command = some opcMemoryWrite → p.args = []

/-- A rectangle of the framebuffer (R71, R168). -/
def Box.inside (s : State) (b : Box) : Prop :=
  b.xmin ≤ b.xmax ∧ b.xmax < s.width.toNat ∧ b.ymin ≤ b.ymax ∧ b.ymax < s.height.toNat

/-- The cell `(x, y)` lies in the rectangle. -/
def Box.contains (b : Box) (x y : Nat) : Prop := b.xmin ≤ x ∧ x ≤ b.xmax ∧ b.ymin ≤ y ∧ y ≤ b.ymax

/-- The cell `(x, y)` lies in the framebuffer and its two copies differ (R167). -/
def State.differs (s : State) (x y : Nat) : Prop :=
  x < s.width.toNat ∧ y < s.height.toNat ∧
    Memory.read s.cur (s.cellIndex x y) ≠ Memory.read s.snt (s.cellIndex x y)

/-- Every cell of a framebuffer holds a value. -/
def Filled (c : Config) (m : Memory HalfWord) : Prop := ∀ i, i < c.cells → ∃ v, Memory.read m i = some v

/-- Every address that holds a value lies below `n`. -/
def Below {β : Type} (n : Nat) (m : Memory β) : Prop := ∀ p ∈ m, p.1 < n

/-- A write event carries 1 to `CHUNK_BYTES` bytes (R62). -/
def Event.fits (c : Config) : Event → Prop
  | .wr bytes _ => 1 ≤ bytes.length ∧ bytes.length ≤ c.chunkBytes
  | .rst _ _ => True
  | .dc _ _ => True
  | .dly _ => True

/-- The invariant of a run: the parameters are in their ranges (R10); every memory has its canonical form and lies in its
address space (R60); both framebuffers hold a value in every cell once INIT was accepted (R30, R39); and every bus
write ever made fits a chunk (R62). -/
structure State.Inv (s : State) : Prop where
  config : s.cfg.WellFormed
  pb_wf : Memory.wf s.pb
  cb_wf : Memory.wf s.cb
  cur_wf : Memory.wf s.cur
  snt_wf : Memory.wf s.snt
  pixels_wf : Memory.wf s.panel.pixels
  bench_wf : Memory.wf s.panel.bench.pixels
  pb_below : Below s.cfg.pbBytes s.pb
  cb_below : Below s.cfg.chunkBytes s.cb
  cur_below : Below s.cfg.cells s.cur
  snt_below : Below s.cfg.cells s.snt
  cur_filled : s.pd ≠ .uninitialized → Filled s.cfg s.cur
  snt_filled : s.pd ≠ .uninitialized → Filled s.cfg s.snt
  writes_fit : ∀ e ∈ s.history, e.fits s.cfg

end Sys2Proof.Machine
end

