-- ==== Sys2Proof/Certificates/Slice0/Obligations.lean ====
section
/-! DEFINITION. The statements for the provers. -/

open Sys2Proof Sys2Proof.Machine

/-! ### Encoding -/

/-- R90, R92, R94 to R98, R103: the encoder drops no bit of an operation. -/
def Obligations.DecodeInvertsEncode : Prop :=
  ∀ i : Instr, i.WellFormed → decode (encode i) = .ok i

/-- Words written out from R90, R92, R94 and from R96, R98. -/
def Obligations.SpecWordsDecodeAsWritten : Prop :=
  decodeCommand 0x100001000000000000 = .ok (.sendcU8 1) ∧
  decodeCommand 0x241170000100000000 = .ok (.senddU8i 70000) ∧
  decodeCommand 0x18FFFFFFFF00000000 = .ok (.sendcReserved8 0xFFFFFFFF) ∧
  decodeCommand 0x300003000000000000 = .ok (.init .landscapeFlipped) ∧
  decodeCommand 0x310001000200030004 = .ok (.setwin 1 2 3 4) ∧
  decodeCommand 0x36FFFE111122223333 = .ok (.sleep 0) ∧
  decodeCommand 0x400000000000000000 = .ok .poll ∧
  decodeWire [0x2A, 0x00, 0x01, 0x01, 0x02] = .ok (.wireColumnRange 1 0x0102)

/-- R94, R95 (1), R103: the `OP` of every SENDC and SENDD, in the order of the shape codes, the reserved ones last. -/
def transportRows : List (Byte × (Word → Instr)) :=
  [(0x10, .sendcU8), (0x11, .sendcU16), (0x12, .sendcU16le), (0x13, .sendcU16be), (0x14, .sendcU8i),
    (0x15, .sendcU16i), (0x16, .sendcU16lei), (0x17, .sendcU16bei), (0x18, .sendcReserved8),
    (0x19, .sendcReserved9), (0x1A, .sendcReserved10), (0x1B, .sendcReserved11), (0x1C, .sendcReserved12),
    (0x1D, .sendcReserved13), (0x1E, .sendcReserved14), (0x1F, .sendcReserved15),
    (0x20, .senddU8), (0x21, .senddU16), (0x22, .senddU16le), (0x23, .senddU16be), (0x24, .senddU8i),
    (0x25, .senddU16i), (0x26, .senddU16lei), (0x27, .senddU16bei), (0x28, .senddReserved8),
    (0x29, .senddReserved9), (0x2A, .senddReserved10), (0x2B, .senddReserved11), (0x2C, .senddReserved12),
    (0x2D, .senddReserved13), (0x2E, .senddReserved14), (0x2F, .senddReserved15)]

/-- R92: where every operand comes from, and that the other bits are ignored. -/
def Obligations.OperandsComeFromTheirFields : Prop :=
  ∀ a0 a1 a2 a3 : HalfWord,
    (∀ row ∈ transportRows, decodeCommand (commandWord row.1 a0 a1 a2 a3) = .ok (row.2 (a1 ++ a0))) ∧
    (∀ v, orientationCode v = a0.extractLsb' 0 2 →
      decodeCommand (commandWord 0x30 a0 a1 a2 a3) = .ok (.init v) ∧
        decodeCommand (commandWord 0x39 a0 a1 a2 a3) = .ok (.setori v)) ∧
    decodeCommand (commandWord 0x31 a0 a1 a2 a3) = .ok (.setwin a0 a1 a2 a3) ∧
    decodeCommand (commandWord 0x32 a0 a1 a2 a3) = .ok (.wrpix a0 a1 a2) ∧
    decodeCommand (commandWord 0x33 a0 a1 a2 a3) = .ok (.clear a0) ∧
    decodeCommand (commandWord 0x34 a0 a1 a2 a3) = .ok .flush ∧
    decodeCommand (commandWord 0x35 a0 a1 a2 a3) = .ok (.bright (a0.extractLsb' 0 8)) ∧
    decodeCommand (commandWord 0x36 a0 a1 a2 a3) = .ok (.sleep (a0.extractLsb' 0 1)) ∧
    decodeCommand (commandWord 0x37 a0 a1 a2 a3) = .ok (.display (a0.extractLsb' 0 1)) ∧
    decodeCommand (commandWord 0x38 a0 a1 a2 a3) = .ok (.invert (a0.extractLsb' 0 1)) ∧
    decodeCommand (commandWord 0x3A a0 a1 a2 a3) = .ok .getw ∧
    decodeCommand (commandWord 0x3B a0 a1 a2 a3) = .ok .geth ∧
    decodeCommand (commandWord 0x40 a0 a1 a2 a3) = .ok .poll

/-! ### The ports and the step -/

/-- The step runs what the decoder reads, on the port that executes it (R93). The third clause is about the model's own
port for a wire transaction by itself (DESIGN CHOICE, notes/assumptions/11.md). -/
def Obligations.StepRunsTheDecodedOperation : Prop :=
  (∀ (s : State) (rest : List Input) (cw : CommandWord) (i : Instr),
    s.inputs = .seqCmd cw :: rest → s.seqMode = .idle → decodeCommand cw = .ok i → i ≠ .poll →
      step s = exec i { s with inputs := rest }) ∧
  (∀ (s : State) (rest : List Input) (cw : CommandWord),
    s.inputs = .qdaCmd cw :: rest → decodeCommand cw = .ok .poll → step s = exec .poll { s with inputs := rest }) ∧
  (∀ (s : State) (rest : List Input) (bytes : List Byte) (i : Instr),
    s.inputs = .wire bytes :: rest → s.seqMode = .idle → decodeWire bytes = .ok i →
      step s = exec i { s with inputs := rest })

/-- R258: an `OP` outside the map (R95 (2)), a class the port does not execute (R93), a slice that does not fit (R129):
`IllegalOp`, no effect. -/
def Obligations.IllegalOpHasNoEffect : Prop :=
  (∀ (s : State) (rest : List Input) (cw : CommandWord),
    s.inputs = .seqCmd cw :: rest → s.seqMode = .idle →
      ((opField cw).toNat < 0x10 ∨ (0x3C ≤ (opField cw).toNat ∧ (opField cw).toNat ≤ 0x3F) ∨
        0x40 ≤ (opField cw).toNat) →
      step s = .next (State.finishSeq .illegalOp 0 { s with inputs := rest })) ∧
  (∀ (s : State) (rest : List Input) (cw : CommandWord),
    s.inputs = .qdaCmd cw :: rest → (opField cw).toNat ≠ 0x40 →
      step s = .next (State.finishQda .illegalOp 0 { s with inputs := rest })) ∧
  (∀ (s : State) (len : Word), s.cfg.pbBytes < len.toNat →
    exec (.sendcU8 len) s = .next (s.finishSeq .illegalOp 0) ∧
      exec (.senddU8 len) s = .next (s.finishSeq .illegalOp 0)) ∧
  (∀ (s : State) (len : Word), s.cfg.pbBytes < 2 * len.toNat →
    exec (.sendcU16 len) s = .next (s.finishSeq .illegalOp 0) ∧
      exec (.senddU16 len) s = .next (s.finishSeq .illegalOp 0) ∧
      exec (.sendcU16le len) s = .next (s.finishSeq .illegalOp 0) ∧
      exec (.senddU16le len) s = .next (s.finishSeq .illegalOp 0) ∧
      exec (.sendcU16be len) s = .next (s.finishSeq .illegalOp 0) ∧
      exec (.senddU16be len) s = .next (s.finishSeq .illegalOp 0))

/-- R293: no step lets SEQ past the point where it hangs; only block reset does. Of the panel only what a test bench
assumes can change, and `PB` is locked while SEQ hangs in SENDC or SENDD (R64, R297). That a hang is held in `seqMode` and that
HOST's commands wait is the model's (DESIGN CHOICE, notes/assumptions/5.md, 29.md). -/
def Obligations.HungSeqGoesNoFurther : Prop :=
  ∀ s t : State, s.seqMode ≠ .idle → (∀ rest, takeInput s.seqMode s.inputs ≠ some (.blockReset, rest)) →
    step s = .next t →
      t.seqMode = s.seqMode ∧ KeepsDriver s t ∧ t.cb = s.cb ∧ t.dc = s.dc ∧ t.history = s.history ∧
        { t.panel with bench := s.panel.bench } = s.panel ∧ t.seqResults = s.seqResults ∧
        (s.seqMode = .hungInTransport → t.pb = s.pb)

/-- The SENDC and SENDD of a phase and a shape (R94, R103). -/
def transportOp (ph : Phase) (sh : Shape) (len : Word) : Instr :=
  match ph, sh with
  | .command, .u8 => .sendcU8 len
  | .command, .u16 => .sendcU16 len
  | .command, .u16le => .sendcU16le len
  | .command, .u16be => .sendcU16be len
  | .command, .u8i => .sendcU8i len
  | .command, .u16i => .sendcU16i len
  | .command, .u16lei => .sendcU16lei len
  | .command, .u16bei => .sendcU16bei len
  | .data, .u8 => .senddU8 len
  | .data, .u16 => .senddU16 len
  | .data, .u16le => .senddU16le len
  | .data, .u16be => .senddU16be len
  | .data, .u8i => .senddU8i len
  | .data, .u16i => .senddU16i len
  | .data, .u16lei => .senddU16lei len
  | .data, .u16bei => .senddU16bei len

/-- The kind of operation SEQ hangs in: a SENDC or SENDD, or another one (R64, R297). -/
def HangsIn (i : Instr) (m : SeqMode) : Prop :=
  ((∃ ph sh len, i = transportOp ph sh len) → m = .hungInTransport) ∧
    ((∀ ph sh len, i ≠ transportOp ph sh len) → m = .hungInDriver)

/-- R62, R126, R160, R250 to R254, R262: whatever the operation, and whichever of the events it emits when all are
answered `ok` fails: it emits the events before, ends at that one with its status and `RES = 0`, and draws no further
answer. With the statements of what each operation emits this gives the status of SETWIN (R164), FLUSH (R170), the
command writes (R171 to R174), SETORI (R175), INIT, SENDC and SENDD at every event; what the failing event leaves on the
lines and on the panel is `LinesAndPanelFollowTheEvents`. ENV's answers as a list: DESIGN CHOICE,
notes/assumptions/3.md, 4.md. -/
def Obligations.FailedEventEndsTheOperation : Prop :=
  ∀ (i : Instr) (s u : State) (es : List Event) (n draw : Nat) (rest : List Answer) (st : Status),
    s.answers = List.replicate n .ok ++ .fail draw :: rest →
    exec i { s with answers := [] } = .next u → u.history = s.history ++ es →
    (es.filterMap failureOf)[n]? = some st →
      ∃ t, exec i s = .next t ∧ Returns s t st 0 ∧ t.history = s.history ++ cutAt (.fail draw) n es ∧
        t.answers = rest ∧ t.seqMode = s.seqMode

/-- R9, R293, R298: whatever the operation, an event ENV never answers hangs SEQ there, with no result; and so does a
producer that stops early, of either width, after every chunk it filled, its items all consumed. The form of ENV's
answers, the draw, and the hang as a state are the model's (DESIGN CHOICE, notes/assumptions/3.md, 4.md, 5.md); the
statement holds for every draw. -/
def Obligations.UnansweredEventsAndShortProducersHang : Prop :=
  (∀ (i : Instr) (s u : State) (es : List Event) (n draw : Nat) (rest : List Answer) (st : Status),
    s.answers = List.replicate n .ok ++ .never draw :: rest →
    exec i { s with answers := [] } = .next u → u.history = s.history ++ es →
    (es.filterMap failureOf)[n]? = some st →
      ∃ t, exec i s = .next t ∧ HangsIn i t.seqMode ∧ t.seqResults = s.seqResults ∧
        t.history = s.history ++ cutAt (.never draw) n es ∧ t.answers = rest) ∧
  (∀ (s : State) (ph : Phase) (len : Word), s.cfg.WellFormed → AllOk s → s.prod8.length < len.toNat →
    ∃ t, exec (transportOp ph .u8i len) s = .next t ∧ t.seqMode = .hungInTransport ∧ t.seqResults = s.seqResults ∧
      t.history = s.history ++ .dc (s.cfg.level ph) .ok ::
        (wholeChunks s.cfg.chunkBytes s.prod8).map (fun chunk => .wr chunk .ok) ∧
      t.prod8 = [] ∧ t.prod16 = s.prod16 ∧ t.pb = s.pb ∧ KeepsOutside s t ∧ KeepsDriver s t) ∧
  (∀ (s : State) (ph : Phase) (sh : Shape) (len : Word), sh ∈ [Shape.u16i, .u16lei, .u16bei] →
    s.cfg.WellFormed → AllOk s → s.prod16.length < len.toNat →
    ∃ t, exec (transportOp ph sh len) s = .next t ∧ t.seqMode = .hungInTransport ∧ t.seqResults = s.seqResults ∧
      t.history = s.history ++ .dc (s.cfg.level ph) .ok ::
        (wholeChunks s.cfg.chunkBytes (serAll (sh.order s.cfg.nativeOrder) s.prod16)).map
          (fun chunk => .wr chunk .ok) ∧
      t.prod16 = [] ∧ t.prod8 = s.prod8 ∧ t.pb = s.pb ∧ KeepsOutside s t ∧ KeepsDriver s t)

/-- The orientation while an operation sends: INIT sets it before its first event (R162). -/
def orientDuring (i : Instr) (s : State) : Orientation :=
  match i with
  | .init v => if s.pd = .uninitialized then v else s.orient
  | _ => s.orient

/-- R28, R29, R63, R67, R80: `DC`, `RST_n` and the panel after any operation are what the events it appended, with their
answers, make of them; of a failed write the panel took the drawn prefix, whatever it is. The panel is the model's
reading (DEDUCED, notes/assumptions/13.md, 14.md, 15.md; DESIGN CHOICE, 33.md), the draw notes/assumptions/4.md's
(DESIGN CHOICE). -/
def Obligations.LinesAndPanelFollowTheEvents : Prop :=
  ∀ (i : Instr) (s t : State), exec i s = .next t →
    ∃ es, t.history = s.history ++ es ∧
      (t.panel, t.dc, t.rstN) =
        es.foldl (playEvent s.cfg (s.cfg.width (orientDuring i s)) (s.cfg.height (orientDuring i s)))
          (s.panel, s.dc, s.rstN)

/-- R8, R21, R75: a POLL and an operation of SEQ give the same state and results in either order. -/
def Obligations.PollCommutesWithEveryOperation : Prop :=
  ∀ (i : Instr) (s u : State), i ≠ .poll → exec .poll s = .next u →
    match exec i s with
    | .next t => ∃ v, exec .poll t = .next v ∧ exec i u = .next v
    | .fault f => exec i u = .fault f
    | .refused r => exec i u = .refused r

/-- R21: no operation of SEQ writes QDA's part, and POLL writes nothing else. -/
def Obligations.AgentsShareNoState : Prop :=
  ∀ (i : Instr) (s t : State), exec i s = .next t →
    (i ≠ .poll → KeepsOutside s t) ∧
      (i = .poll → t = { s with qda := t.qda, qdaResults := t.qdaResults })

/-- R20, column "written by", with R29, R30, R37, R163. -/
def Obligations.OnlyTheNamedOperationsWrite : Prop :=
  ∀ (i : Instr) (s t : State), exec i s = .next t →
    (t.pd ≠ s.pd → ∃ v, i = .init v) ∧
    (t.orient ≠ s.orient → ∃ v, i = .init v ∨ i = .setori v) ∧
    (t.win ≠ s.win → i = .flush ∨ ∃ x0 y0 x1 y1, i = .setwin x0 y0 x1 y1) ∧
    (t.cur ≠ s.cur → (∃ v, i = .init v) ∨ (∃ x y c, i = .wrpix x y c) ∨ ∃ c, i = .clear c) ∧
    (t.snt ≠ s.snt → i = .flush ∨ ∃ v, i = .init v) ∧
    (t.pb ≠ s.pb → ∃ len,
      i = .sendcU16le len ∨ i = .sendcU16be len ∨ i = .senddU16le len ∨ i = .senddU16be len) ∧
    (t.rstN ≠ s.rstN → ∃ v, i = .init v) ∧
    (t.qda ≠ s.qda → i = .poll)

/-- R25, R163: only an INIT out of `Uninitialized` moves `PD_STATE`, never back there, and it is `Ready` after it exactly
when INIT returned `OK`. -/
def Obligations.PdStateMovesForwardOnly : Prop :=
  ∀ (i : Instr) (s t : State), exec i s = .next t →
    (t.pd = s.pd ∨ (s.pd = .uninitialized ∧ t.pd ≠ .uninitialized ∧ ∃ v, i = .init v)) ∧
    (∀ v, i = .init v → s.pd = .uninitialized → (t.pd = .ready ↔ Returns s t .ok 0))

/-- R36, R72: every operation only appends events. -/
def Obligations.HistoryOnlyGrows : Prop :=
  ∀ (i : Instr) (s t : State), exec i s = .next t → ∃ es, t.history = s.history ++ es

/-- R282: the parameters never change. -/
def Obligations.ParametersNeverChange : Prop :=
  ∀ s t : State, step s = .next t → t.cfg = s.cfg

/-- The invariant of a run (`State.Inv`, the model's own; each clause names its rule in Safety.lean) is kept by every
step. -/
def Obligations.StepKeepsTheInvariant : Prop :=
  ∀ s t : State, s.Inv → step s = .next t → t.Inv

/-- The invariant of a run holds right after block reset. Its parameters are R10's values, for an OPEN parameter the one
of 95_test_vectors.md (DESIGN CHOICE, notes/assumptions/1.md). -/
def Obligations.ResetMeetsTheInvariant : Prop := State.reset.Inv

/-! ### The Transport Codec -/

/-- R130, with R123, R125: the byte slice. The panel's clause is the model's reading (DEDUCED, notes/assumptions/13.md, 15.md). -/
def Obligations.ByteSliceIsSent : Prop :=
  ∀ (s : State) (len : Word) (bytes : List Byte), s.cfg.WellFormed → AllOk s → len.toNat ≤ s.cfg.pbBytes →
    Memory.readFrom s.pb 0 len.toNat = some bytes →
      (∃ t, exec (.sendcU8 len) s = .next t ∧ Sent s t .command bytes ∧ KeepsPayload s t) ∧
      (∃ t, exec (.senddU8 len) s = .next t ∧ Sent s t .data bytes ∧ KeepsPayload s t)

/-- R131, with R123, R125: the native 16-bit slice. The panel's clause is the model's reading (DEDUCED,
notes/assumptions/13.md, 15.md). -/
def Obligations.NativeSliceIsSent : Prop :=
  ∀ (s : State) (len : Word) (words : List HalfWord), s.cfg.WellFormed → AllOk s → 2 * len.toNat ≤ s.cfg.pbBytes →
    Memory.readFrom s.pb 0 (2 * len.toNat) = some (serAll s.cfg.nativeOrder words) →
      (∃ t, exec (.sendcU16 len) s = .next t ∧ Sent s t .command (serAll s.cfg.nativeOrder words) ∧
        KeepsPayload s t) ∧
      (∃ t, exec (.senddU16 len) s = .next t ∧ Sent s t .data (serAll s.cfg.nativeOrder words) ∧
        KeepsPayload s t)

/-- `PB` after a conversion: the words in the requested order, every byte beyond them and the producer port as they
were (R122). -/
def ConvertedTo (s t : State) (o : ByteOrder) (words : List HalfWord) : Prop :=
  Memory.readFrom t.pb 0 (2 * words.length) = some (serAll o words) ∧
    (∀ a, 2 * words.length ≤ a → Memory.read t.pb a = Memory.read s.pb a) ∧
    t.prod8 = s.prod8 ∧ t.prod16 = s.prod16

/-- R122, R132, R133, with R123, R125: the converting slices. The panel's clause is the model's reading (DEDUCED,
notes/assumptions/13.md, 15.md). -/
def Obligations.ConvertingSliceIsSentAndConverted : Prop :=
  ∀ (s : State) (len : Word) (words : List HalfWord), s.cfg.WellFormed → AllOk s → words.length = len.toNat →
    2 * len.toNat ≤ s.cfg.pbBytes →
    Memory.readFrom s.pb 0 (2 * len.toNat) = some (serAll s.cfg.nativeOrder words) →
      (∃ t, exec (.sendcU16le len) s = .next t ∧ Sent s t .command (serAll .le words) ∧ ConvertedTo s t .le words) ∧
      (∃ t, exec (.senddU16le len) s = .next t ∧ Sent s t .data (serAll .le words) ∧ ConvertedTo s t .le words) ∧
      (∃ t, exec (.sendcU16be len) s = .next t ∧ Sent s t .command (serAll .be words) ∧ ConvertedTo s t .be words) ∧
      (∃ t, exec (.senddU16be len) s = .next t ∧ Sent s t .data (serAll .be words) ∧ ConvertedTo s t .be words)

/-- R139 (3), R122: the conversion is whole whatever ENV answers. -/
def Obligations.ConversionNeedsNoAnswer : Prop :=
  ∀ (s t : State) (len : Word) (words : List HalfWord), words.length = len.toNat →
    2 * len.toNat ≤ s.cfg.pbBytes →
    Memory.readFrom s.pb 0 (2 * len.toNat) = some (serAll s.cfg.nativeOrder words) →
      (exec (.sendcU16le len) s = .next t → ConvertedTo s t .le words) ∧
      (exec (.senddU16le len) s = .next t → ConvertedTo s t .le words) ∧
      (exec (.sendcU16be len) s = .next t → ConvertedTo s t .be words) ∧
      (exec (.senddU16be len) s = .next t → ConvertedTo s t .be words)

/-- R68: after a converting slice HOST reads back word `i`, natively, as it was or with its two bytes exchanged,
whatever ENV answered. -/
def Obligations.NativeReadBackAfterConversion : Prop :=
  ∀ (s t : State) (len : Word) (i : Nat) (v : HalfWord), 2 * len.toNat ≤ s.cfg.pbBytes → i < len.toNat →
    Memory.word s.cfg.nativeOrder s.pb i = some v →
      (exec (.sendcU16le len) s = .next t ∨ exec (.senddU16le len) s = .next t →
        Memory.word s.cfg.nativeOrder t.pb i = some (if s.cfg.nativeOrder = .le then v else bswap16 v)) ∧
      (exec (.sendcU16be len) s = .next t ∨ exec (.senddU16be len) s = .next t →
        Memory.word s.cfg.nativeOrder t.pb i = some (if s.cfg.nativeOrder = .be then v else bswap16 v))

/-- R134, R127: the byte producer. The panel's clause is the model's reading (DEDUCED, notes/assumptions/13.md, 15.md). -/
def Obligations.ByteProducerIsSent : Prop :=
  ∀ (s : State) (len : Word), s.cfg.WellFormed → AllOk s → len.toNat ≤ s.prod8.length →
    (∃ t, exec (.sendcU8i len) s = .next t ∧ Sent s t .command (s.prod8.take len.toNat) ∧
      t.prod8 = s.prod8.drop len.toNat ∧ t.prod16 = s.prod16 ∧ t.pb = s.pb) ∧
    (∃ t, exec (.senddU8i len) s = .next t ∧ Sent s t .data (s.prod8.take len.toNat) ∧
      t.prod8 = s.prod8.drop len.toNat ∧ t.prod16 = s.prod16 ∧ t.pb = s.pb)

/-- A 16-bit producer operation sent its items in the order `o` and pulled just these (R127). -/
def SentWords (s : State) (i : Instr) (ph : Phase) (o : ByteOrder) (len : Word) : Prop :=
  ∃ t, exec i s = .next t ∧ Sent s t ph (serAll o (s.prod16.take len.toNat)) ∧
    t.prod16 = s.prod16.drop len.toNat ∧ t.prod8 = s.prod8 ∧ t.pb = s.pb

/-- R135 to R137, R127: the 16-bit producers, each in its own order. The panel's clause is the model's reading (DEDUCED,
notes/assumptions/13.md, 15.md). -/
def Obligations.WordProducersAreSentInTheirOrder : Prop :=
  ∀ (s : State) (len : Word), s.cfg.WellFormed → AllOk s → len.toNat ≤ s.prod16.length →
    SentWords s (.sendcU16i len) .command s.cfg.nativeOrder len ∧
    SentWords s (.senddU16i len) .data s.cfg.nativeOrder len ∧
    SentWords s (.sendcU16lei len) .command .le len ∧ SentWords s (.senddU16lei len) .data .le len ∧
    SentWords s (.sendcU16bei len) .command .be len ∧ SentWords s (.senddU16bei len) .data .be len

/-- R95 (1), R121: a reserved shape code returns its status and does nothing else. -/
def Obligations.ReservedShapesAreUnsupported : Prop :=
  ∀ (s : State) (len : Word) (i : Instr),
    i ∈ [.sendcReserved8 len, .sendcReserved9 len, .sendcReserved10 len, .sendcReserved11 len,
      .sendcReserved12 len, .sendcReserved13 len, .sendcReserved14 len, .sendcReserved15 len,
      .senddReserved8 len, .senddReserved9 len, .senddReserved10 len, .senddReserved11 len,
      .senddReserved12 len, .senddReserved13 len, .senddReserved14 len, Instr.senddReserved15 len] →
    exec i s = .next (s.finishSeq .unsupportedPayloadShape 0)

/-- R123, R254: a failed select-line event ends every SENDC and SENDD before any byte and any item. The level of the line
is unknown after it (R63): the answer's draw, whatever it is (DESIGN CHOICE, notes/assumptions/4.md). -/
def Obligations.FailedSelectLineSendsNothing : Prop :=
  ∀ (s : State) (ph : Phase) (sh : Shape) (len : Word) (draw : Nat) (rest : List Answer),
    (sh.isSlice = true → len.toNat * sh.itemSize ≤ s.cfg.pbBytes ∧
      ∃ bytes, Memory.readFrom s.pb 0 (len.toNat * sh.itemSize) = some bytes) →
    s.answers = .fail draw :: rest →
      ∃ t, exec (transportOp ph sh len) s = .next t ∧ Returns s t .selectLineError 0 ∧
        t.history = s.history ++ [.dc (s.cfg.level ph) (.fail draw)] ∧ t.dc = BitVec.ofNat 1 draw ∧
        t.answers = rest ∧ t.prod8 = s.prod8 ∧ t.prod16 = s.prod16 ∧ t.panel = s.panel ∧
        KeepsOutside s t ∧ KeepsDriver s t

/-- The byte stream of a frame (R124): the bytes of the slice, the words of the slice in the shape's order, or the items
the producer will deliver, when they are there. -/
def frameBytes (s : State) (sh : Shape) (len : Word) : Option (List Byte) :=
  match sh with
  | .u8 => Memory.readFrom s.pb 0 len.toNat
  | .u16 => (Memory.words s.cfg.nativeOrder s.pb 0 len.toNat).map (serAll s.cfg.nativeOrder)
  | .u16le => (Memory.words s.cfg.nativeOrder s.pb 0 len.toNat).map (serAll .le)
  | .u16be => (Memory.words s.cfg.nativeOrder s.pb 0 len.toNat).map (serAll .be)
  | .u8i => if len.toNat ≤ s.prod8.length then some (s.prod8.take len.toNat) else none
  | .u16i => if len.toNat ≤ s.prod16.length then some (serAll s.cfg.nativeOrder (s.prod16.take len.toNat)) else none
  | .u16lei => if len.toNat ≤ s.prod16.length then some (serAll .le (s.prod16.take len.toNat)) else none
  | .u16bei => if len.toNat ≤ s.prod16.length then some (serAll .be (s.prod16.take len.toNat)) else none

/-- R63, R126, R127: for every phase and shape, a failed chunk ends the call with `BusWriteError`: the chunks before it
were sent, the panel took them and the drawn prefix of it, the items of it are consumed. The draw is
notes/assumptions/4.md's (DESIGN CHOICE), the panel notes/assumptions/13.md's and 15.md's (DEDUCED). -/
def Obligations.FailedChunkEndsTheCall : Prop :=
  ∀ (s : State) (ph : Phase) (sh : Shape) (len : Word) (stream : List Byte) (k draw : Nat) (rest : List Answer),
    s.cfg.WellFormed → (sh.isSlice = true → len.toNat * sh.itemSize ≤ s.cfg.pbBytes) →
    frameBytes s sh len = some stream → k < ceilDiv stream.length s.cfg.chunkBytes →
    s.answers = List.replicate (k + 1) .ok ++ .fail draw :: rest →
      ∃ t, exec (transportOp ph sh len) s = .next t ∧ Returns s t .busWriteError 0 ∧
        t.history = s.history ++ .dc (s.cfg.level ph) .ok ::
          (((chunksOf s.cfg.chunkBytes stream).take k).map (fun chunk => .wr chunk .ok) ++
            [.wr ((stream.drop (k * s.cfg.chunkBytes)).take s.cfg.chunkBytes) (.fail draw)]) ∧
        t.panel = Panel.takeBytes s.cfg s.width s.height (s.cfg.level ph)
          (stream.take (k * s.cfg.chunkBytes) ++
            ((stream.drop (k * s.cfg.chunkBytes)).take s.cfg.chunkBytes).take draw) s.panel ∧
        t.dc = s.cfg.level ph ∧
        t.prod8 = (if sh = .u8i then s.prod8.drop (min len.toNat ((k + 1) * s.cfg.chunkBytes)) else s.prod8) ∧
        t.prod16 = (if sh ∈ [Shape.u16i, .u16lei, .u16bei] then
          s.prod16.drop (min len.toNat ((k + 1) * s.cfg.chunkBytes / 2)) else s.prod16) ∧
        (sh ≠ .u16le → sh ≠ .u16be → t.pb = s.pb) ∧ t.answers = rest ∧ KeepsOutside s t ∧ KeepsDriver s t

/-- R80, R95, R123: every byte SENDC delivers becomes the panel's current command, listed in R96 or not, so that the last
one is it afterwards; the bytes SENDD delivers leave it. The panel is the model's reading (DEDUCED,
notes/assumptions/13.md, 15.md). -/
def Obligations.CommandBytesBecomeTheCommand : Prop :=
  ∀ (s : State) (sh : Shape) (len : Word) (stream : List Byte), s.cfg.WellFormed → AllOk s →
    (sh.isSlice = true → len.toNat * sh.itemSize ≤ s.cfg.pbBytes) → frameBytes s sh len = some stream →
      (∃ t, exec (transportOp .command sh len) s = .next t ∧
        t.panel.command = if stream = [] then s.panel.command else stream.getLast?) ∧
      (∃ t, exec (transportOp .data sh len) s = .next t ∧ t.panel.command = s.panel.command)

/-- R38: a slice over a byte of `PB` that HOST never wrote is refused. That the refusal comes before any event is the
model's (DESIGN CHOICE, notes/assumptions/7.md). -/
def Obligations.UnwrittenPayloadIsRefused : Prop :=
  ∀ (s : State) (ph : Phase) (sh : Shape) (len : Word) (a : Nat), sh.isSlice = true →
    len.toNat * sh.itemSize ≤ s.cfg.pbBytes → a < len.toNat * sh.itemSize → Memory.read s.pb a = none →
      exec (transportOp ph sh len) s = .refused .unwrittenPayload

/-- R99, R138: the arithmetic of chunking. -/
def Obligations.ChunksCutTheStream : Prop :=
  ∀ (c : Nat) (l : List Byte), 0 < c →
    (chunksOf c l).flatten = l ∧ (chunksOf c l).length = ceilDiv l.length c ∧
      (∀ k, k + 1 < (chunksOf c l).length → ∃ chunk, (chunksOf c l)[k]? = some chunk ∧ chunk.length = c) ∧
      (∀ chunk ∈ chunksOf c l, 1 ≤ chunk.length ∧ chunk.length ≤ c) ∧
      (chunksOf c l = [] ↔ l = []) ∧
      (c % 2 = 0 → l.length % 2 = 0 → ∀ chunk ∈ chunksOf c l, chunk.length % 2 = 0)

/-- A HOST write put `bytes` into `PB` from byte index `i` and changed nothing else; beyond `PB_BYTES` it faults. -/
def HostWrote (s : State) (rest : List Input) (i : Nat) (bytes : List Byte) : Prop :=
  (i + bytes.length ≤ s.cfg.pbBytes →
    ∃ t, step s = .next t ∧ Memory.readFrom t.pb i bytes.length = some bytes ∧
      (∀ a, a < i ∨ i + bytes.length ≤ a → Memory.read t.pb a = Memory.read s.pb a) ∧
      t = { s with inputs := rest, pb := t.pb }) ∧
    (s.cfg.pbBytes < i + bytes.length → step s = .fault .payloadAddress)

/-- R64, R68, R101: HOST's bytes lie in `PB` as they are, its words in `NATIVE_ORDER`, which is what the native word view
shows; there is no byte at or above `PB_BYTES`. That HOST's write is an input of its own, and that one beyond the buffer
faults, is the model's (DESIGN CHOICE, notes/assumptions/2.md, 24.md). -/
def Obligations.HostWritesThePayloadBuffer : Prop :=
  ∀ (s : State) (rest : List Input) (i : Nat), s.seqMode ≠ .hungInTransport →
    (∀ bytes, s.inputs = .payloadBytes i bytes :: rest → HostWrote s rest i bytes) ∧
    (∀ words : List HalfWord, s.inputs = .payloadWords i words :: rest →
      HostWrote s rest (2 * i) (serAll s.cfg.nativeOrder words) ∧
        ∀ t, step s = .next t → ∀ k v, words[k]? = some v →
          Memory.word s.cfg.nativeOrder t.pb (i + k) = some v)

/-- R64, R68, R38: HOST reads bytes of `PB` as they lie there and words through the native word view, changing nothing;
while SEQ hangs in SENDC or SENDD the read waits; a byte that holds no value, or that does not exist, is a fault of the
model. That the read is an input and what was read is kept is the model's (DESIGN CHOICE, notes/assumptions/24.md,
17.md). -/
def Obligations.HostReadsThePayloadBuffer : Prop :=
  (∀ (s : State) (rest : List Input) (i n : Nat), s.seqMode ≠ .hungInTransport → s.inputs = .readBytes i n :: rest →
    (∀ l, i + n ≤ s.cfg.pbBytes → Memory.readFrom s.pb i n = some l →
      step s = .next { s with inputs := rest, hostReads := s.hostReads ++ [.bytes i l] }) ∧
    (∀ a, i + n ≤ s.cfg.pbBytes → i ≤ a → a < i + n → Memory.read s.pb a = none →
      step s = .fault .payloadUnwritten) ∧
    (s.cfg.pbBytes < i + n → step s = .fault .payloadAddress)) ∧
  (∀ (s : State) (rest : List Input) (i n : Nat), s.seqMode ≠ .hungInTransport → s.inputs = .readWords i n :: rest →
    (∀ l : List HalfWord, 2 * i + 2 * n ≤ s.cfg.pbBytes → l.length = n →
      (∀ k v, l[k]? = some v → Memory.readFrom s.pb (2 * (i + k)) 2 = some (ser16 v s.cfg.nativeOrder)) →
        step s = .next { s with inputs := rest, hostReads := s.hostReads ++ [.words i l] }) ∧
    (∀ a, 2 * i + 2 * n ≤ s.cfg.pbBytes → 2 * i ≤ a → a < 2 * i + 2 * n → Memory.read s.pb a = none →
      step s = .fault .payloadUnwritten) ∧
    (s.cfg.pbBytes < 2 * i + 2 * n → step s = .fault .payloadAddress)) ∧
  (∀ (s : State) (i n : Nat), s.seqMode = .hungInTransport →
    s.inputs = [.readBytes i n] ∨ s.inputs = [.readWords i n] → step s = .next s)

/-! ### The Panel Driver -/

/-- R161: the state gate. -/
def Obligations.StateGateRefusesWithoutEffect : Prop :=
  ∀ s : State,
    (s.pd ≠ .uninitialized → ∀ v, exec (.init v) s = .next (s.finishSeq .badState 0)) ∧
    (s.pd ≠ .ready →
      (∀ x0 y0 x1 y1, exec (.setwin x0 y0 x1 y1) s = .next (s.finishSeq .badState 0)) ∧
      (∀ x y c, exec (.wrpix x y c) s = .next (s.finishSeq .badState 0)) ∧
      (∀ c, exec (.clear c) s = .next (s.finishSeq .badState 0)) ∧
      exec .flush s = .next (s.finishSeq .badState 0) ∧
      (∀ value, exec (.bright value) s = .next (s.finishSeq .badState 0)) ∧
      (∀ mode, exec (.sleep mode) s = .next (s.finishSeq .badState 0)) ∧
      (∀ mode, exec (.display mode) s = .next (s.finishSeq .badState 0)) ∧
      (∀ mode, exec (.invert mode) s = .next (s.finishSeq .badState 0)) ∧
      (∀ v, exec (.setori v) s = .next (s.finishSeq .badState 0))) ∧
    (∃ w, exec .getw s = .next (s.finishSeq .ok w)) ∧ (∃ h, exec .geth s = .next (s.finishSeq .ok h))

/-- The event list of a successful INIT, as R162 writes it. -/
def initEvents (c : Config) (v : Orientation) : List Event :=
  [.rst 0 .ok, .dly c.tRstLow, .rst 1 .ok, .dly c.tRstSettle,
    .dc c.dcCmd .ok, .wr [0x01] .ok, .dly c.tSwReset,
    .dc c.dcCmd .ok, .wr [0x36] .ok, .dc c.dcData .ok, .wr [c.madctl v] .ok,
    .dc c.dcCmd .ok, .wr [0x3A] .ok, .dc c.dcData .ok, .wr [c.pixfmt16bpp] .ok, .dly c.tCfg,
    .dc c.dcCmd .ok, .wr [0x11] .ok, .dly c.tWake,
    .dc c.dcCmd .ok, .wr [0x29] .ok]

/-- The panel after the transactions of a successful INIT in the state `s` INIT starts them from (R80, R162). -/
def initPanel (s : State) : Panel :=
  takeTransaction s 0x29 [] (takeTransaction s 0x11 [] (takeTransaction s 0x3A [s.cfg.pixfmt16bpp]
    (takeTransaction s 0x36 [s.cfg.madctl s.orient] (takeTransaction s 0x01 [] s.panel.afterReset))))

/-- R162, R39: what a successful INIT does. What is known of the panel then is the model's reading (DEDUCED,
notes/assumptions/13.md, 14.md; at its sleep-off DESIGN CHOICE, 33.md). -/
def Obligations.InitBringsThePanelUp : Prop :=
  ∀ (s : State) (v : Orientation), s.cfg.WellFormed → AllOk s → s.pd = .uninitialized →
    ∃ t, exec (.init v) s = .next t ∧ Succeeded s t (initEvents s.cfg v) (initPanel (initStart v s)) 1 ∧
      t.pd = .ready ∧ t.orient = v ∧
      (∀ i, Memory.read t.cur i = (if i < s.cfg.cells then some s.cfg.fbInit else none) ∧
        Memory.read t.snt i = Memory.read t.cur i) ∧
      t.dc = s.cfg.dcCmd ∧ t.rstN = 1 ∧ t.win = s.win

/-- Where INIT stops and with what status when its fallible event `n`, counted from 0, fails (R162, R163). -/
def initFailure (n : Nat) : PdState × Status :=
  (if n < 2 then .resetting else if n < 4 then .softwareReset else if n < 12 then .configuringFormat
    else .wakingFromSleep,
   if n < 2 then .resetError else if n % 2 = 0 then .selectLineError else .busWriteError)

/-- R162, R163, R262: a failed INIT stays in the state its failing step lies in, with `ORIENT` and both framebuffers
written. -/
def Obligations.FailedInitStaysInItsState : Prop :=
  ∀ (s : State) (v : Orientation) (n draw : Nat) (rest : List Answer), s.cfg.WellFormed →
    s.pd = .uninitialized → n < 16 → s.answers = List.replicate n .ok ++ .fail draw :: rest →
      ∃ t, exec (.init v) s = .next t ∧ t.pd = (initFailure n).1 ∧ Returns s t (initFailure n).2 0 ∧
        t.orient = v ∧ t.cur = Memory.fill s.cfg.cells s.cfg.fbInit ∧
        t.snt = Memory.fill s.cfg.cells s.cfg.fbInit ∧ t.win = s.win ∧ KeepsPayload s t ∧ KeepsOutside s t

/-- R164: what a successful SETWIN sends and records, whatever its operands. The panel's state: DEDUCED,
notes/assumptions/13.md. -/
def Obligations.SetwinSendsBothRanges : Prop :=
  ∀ (s : State) (x0 y0 x1 y1 : HalfWord), s.cfg.WellFormed → AllOk s → s.pd = .ready →
    ∃ t, exec (.setwin x0 y0 x1 y1) s = .next t ∧
      Succeeded s t
        (transactionEvents s.cfg 0x2A [hi x0, lo x0, hi x1, lo x1] ++
          transactionEvents s.cfg 0x2B [hi y0, lo y0, hi y1, lo y1])
        (takeTransaction s 0x2B [hi y0, lo y0, hi y1, lo y1]
          (takeTransaction s 0x2A [hi x0, lo x0, hi x1, lo x1] s.panel)) 4 ∧
      t.win = ⟨x0, y0, x1, y1⟩ ∧ t.dc = s.cfg.dcData ∧
      t.pd = s.pd ∧ t.orient = s.orient ∧ t.cur = s.cur ∧ t.snt = s.snt ∧ t.rstN = s.rstN

/-- R164, R262: `WIN` only when both range commands succeeded. -/
def Obligations.SetwinRecordsOnlySuccess : Prop :=
  ∀ (s t : State) (x0 y0 x1 y1 : HalfWord), exec (.setwin x0 y0 x1 y1) s = .next t →
    t.win = s.win ∨ (t.win = ⟨x0, y0, x1, y1⟩ ∧ Returns s t .ok 0)

/-- R165, with R66 and R256. -/
def Obligations.WrpixWritesOneCell : Prop :=
  ∀ (s : State) (x y color : HalfWord),
    (s.pd ≠ .ready → exec (.wrpix x y color) s = .next (s.finishSeq .badState 0)) ∧
    (s.pd = .ready → s.width.toNat ≤ x.toNat ∨ s.height.toNat ≤ y.toNat →
      exec (.wrpix x y color) s = .next (s.finishSeq .outOfBoundsError 0)) ∧
    (s.pd = .ready → x.toNat < s.width.toNat → y.toNat < s.height.toNat →
      ∃ m, exec (.wrpix x y color) s = .next (State.finishSeq .ok 0 { s with cur := m }) ∧
        Memory.read m (y.toNat * s.width.toNat + x.toNat) = some (s.cfg.reduce color) ∧
        ∀ i, i ≠ y.toNat * s.width.toNat + x.toNat → Memory.read m i = Memory.read s.cur i)

/-- R166. -/
def Obligations.ClearFillsCurrent : Prop :=
  ∀ (s : State) (color : HalfWord),
    (s.pd ≠ .ready → exec (.clear color) s = .next (s.finishSeq .badState 0)) ∧
    (s.pd = .ready →
      ∃ m, exec (.clear color) s = .next (State.finishSeq .ok 0 { s with cur := m }) ∧
        ∀ i, Memory.read m i = if i < s.cfg.w0.toNat * s.cfg.h0.toNat then some (s.cfg.reduce color) else none)

/-- R167: "If no difference exists, flush is a no-op." -/
def Obligations.FlushOfEqualFramesIsQuiet : Prop :=
  ∀ s : State, s.pd = .ready → (∀ x y, ¬ s.differs x y) → exec .flush s = .next (s.finishSeq .ok 0)

/-- R168: the box holds every difference, is the least such rectangle, and lies in the framebuffer. -/
def Obligations.DirtyBoxIsTheLeastRectangle : Prop :=
  ∀ s : State,
    (boundingBox s.dirtyCells = none ↔ ∀ x y, ¬ s.differs x y) ∧
    ∀ b, boundingBox s.dirtyCells = some b →
      b.inside s ∧ (∀ x y, s.differs x y → b.contains x y) ∧
        ∀ b' : Box, (∀ x y, s.differs x y → b'.contains x y) →
          b'.xmin ≤ b.xmin ∧ b.xmax ≤ b'.xmax ∧ b'.ymin ≤ b.ymin ∧ b.ymax ≤ b'.ymax

/-- `pixels` lists the box row by row, each element the expanded cell of `cur` (R169). -/
def ListsTheBox (s : State) (b : Box) (pixels : List HalfWord) : Prop :=
  pixels.length = (b.xmax - b.xmin + 1) * (b.ymax - b.ymin + 1) ∧
    ∀ x y, b.contains x y →
      pixels[(y - b.ymin) * (b.xmax - b.xmin + 1) + (x - b.xmin)]? =
        (Memory.read s.cur (s.cellIndex x y)).map s.cfg.expand

/-- R167, R169, R170: what a successful FLUSH with a difference does. The panel's state: DEDUCED,
notes/assumptions/13.md. -/
def Obligations.FlushSendsTheDirtyBox : Prop :=
  ∀ (s : State) (b : Box), s.cfg.WellFormed → Filled s.cfg s.cur → AllOk s → s.pd = .ready →
    boundingBox s.dirtyCells = some b →
      ∃ t pixels, exec .flush s = .next t ∧ ListsTheBox s b pixels ∧
        Succeeded s t
          (transactionEvents s.cfg 0x2A (rangeBytes b.window.x0 b.window.x1) ++
            transactionEvents s.cfg 0x2B (rangeBytes b.window.y0 b.window.y1) ++
            transactionEvents s.cfg 0x2C (serAll .be pixels))
          (takeTransaction s 0x2C (serAll .be pixels)
            (takeTransaction s 0x2B (rangeBytes b.window.y0 b.window.y1)
              (takeTransaction s 0x2A (rangeBytes b.window.x0 b.window.x1) s.panel)))
          (max 4 (2 * pixels.length)) ∧
        t.snt = s.cur ∧ t.win = b.window ∧ t.dc = s.cfg.dcData ∧
        t.pd = s.pd ∧ t.orient = s.orient ∧ t.cur = s.cur ∧ t.rstN = s.rstN

/-- R170, R30: `snt` is written only by a FLUSH that succeeds, and then equals `cur`; `cur` never by FLUSH. -/
def Obligations.FlushCommitsOnlyOnSuccess : Prop :=
  ∀ s t : State, exec .flush s = .next t →
    t.cur = s.cur ∧ (t.snt = s.snt ∨ (t.snt = s.cur ∧ Returns s t .ok 0))

/-- R170: "calling `flush` twice with no intervening `write_pixel`/`clear` performs no bus I/O on the second call". -/
def Obligations.SecondFlushIsQuiet : Prop :=
  ∀ s t : State, s.pd = .ready → exec .flush s = .next t → Returns s t .ok 0 →
    exec .flush t = .next (t.finishSeq .ok 0)

/-- R170, R74: a failed FLUSH is repeated whole by the next one. -/
def Obligations.FailedFlushIsRepeatedWhole : Prop :=
  ∀ s t : State, s.pd = .ready → exec .flush s = .next t → ¬ Returns s t .ok 0 →
    t.dirtyCells = s.dirtyCells ∧ ∀ b, t.boxPixels b = s.boxPixels b

/-- R171 to R174: the opcode each of the four sends, and the one data byte of BRIGHT. The panel's clause is the model's
reading (DEDUCED, notes/assumptions/13.md, 14.md, 16.md; at sleep-off DESIGN CHOICE, 33.md). -/
def Obligations.CommandWritesSendTheirOpcode : Prop :=
  ∀ s : State, s.cfg.WellFormed → AllOk s → s.pd = .ready →
    (∀ value, ∃ t, exec (.bright value) s = .next t ∧ Transacted s t 0x51 [value] ∧ KeepsDriver s t) ∧
    (∀ mode, ∃ t, exec (.sleep mode) s = .next t ∧
      Transacted s t (if mode = 1 then 0x10 else 0x11) [] ∧ KeepsDriver s t) ∧
    (∀ mode, ∃ t, exec (.display mode) s = .next t ∧
      Transacted s t (if mode = 1 then 0x29 else 0x28) [] ∧ KeepsDriver s t) ∧
    (∀ mode, ∃ t, exec (.invert mode) s = .next t ∧
      Transacted s t (if mode = 1 then 0x21 else 0x20) [] ∧ KeepsDriver s t)

/-- R175: SETORI sends the new flags and takes effect. The panel's clause is the model's reading (DEDUCED,
notes/assumptions/13.md, 16.md). -/
def Obligations.SetoriTakesEffect : Prop :=
  ∀ (s : State) (v : Orientation), s.cfg.WellFormed → AllOk s → s.pd = .ready →
    ∃ t, exec (.setori v) s = .next t ∧ Transacted s t 0x36 [s.cfg.madctl v] ∧ t.orient = v ∧
      t.pd = s.pd ∧ t.win = s.win ∧ t.cur = s.cur ∧ t.snt = s.snt ∧ t.rstN = s.rstN

/-- R175, R262: `ORIENT` only on success; the framebuffers never. -/
def Obligations.SetoriKeepsTheFrames : Prop :=
  ∀ (s t : State) (v : Orientation), exec (.setori v) s = .next t →
    t.cur = s.cur ∧ t.snt = s.snt ∧ (t.orient = s.orient ∨ (t.orient = v ∧ Returns s t .ok 0))

/-- R176, R177 with R26, R178: the two dimensions, in every `PD_STATE`. Which orientations exchange them is from general
knowledge (93 G1; PRESUMED, notes/assumptions/21.md). -/
def Obligations.DimensionsFollowTheOrientation : Prop :=
  ∀ s : State,
    (s.orient = .portrait ∨ s.orient = .portraitFlipped →
      exec .getw s = .next (s.finishSeq .ok s.cfg.w0) ∧ exec .geth s = .next (s.finishSeq .ok s.cfg.h0)) ∧
    (s.orient = .landscape ∨ s.orient = .landscapeFlipped →
      exec .getw s = .next (s.finishSeq .ok s.cfg.h0) ∧ exec .geth s = .next (s.finishSeq .ok s.cfg.w0))

/-! ### The Quadrature Decoder -/

/-- R221, R225: every POLL shifts the three registers by one sample, and completes with `OK`. -/
def Obligations.PollShiftsEveryRegister : Prop :=
  ∀ s : State, ∃ t, exec .poll s = .next t ∧
    t.qda.qa = s.qda.qa.extractLsb' 0 1 ++ s.pins.a ∧ t.qda.qb = s.qda.qb.extractLsb' 0 1 ++ s.pins.b ∧
    t.qda.btn = s.qda.btn.extractLsb' 0 7 ++ ~~~s.pins.swN ∧
    (∃ res, t.qdaResults = s.qdaResults ++ [⟨.ok, res⟩] ∧ res.toNat ≤ 3)

/-- The phase pattern after this POLL's samples (R222). -/
def patternAfter (s : State) : BitVec 4 :=
  (s.qda.qa.extractLsb' 0 1 ++ s.pins.a) ++ (s.qda.qb.extractLsb' 0 1 ++ s.pins.b)

/-- R222, R224: a direction is returned for the two patterns only, and then the press is neither accepted nor stamped. -/
def Obligations.DirectionWinsOverTheButton : Prop :=
  ∀ s t : State, s.cfg.WellFormed → exec .poll s = .next t →
    (patternAfter s = s.cfg.patALeads → t.qdaResults = s.qdaResults ++ [⟨.ok, s.cfg.evALeads.eventCode⟩] ∧
      t.qda.tLast = s.qda.tLast ∧ t.qda.tValid = s.qda.tValid) ∧
    (patternAfter s = s.cfg.patBLeads → t.qdaResults = s.qdaResults ++ [⟨.ok, s.cfg.evBLeads.eventCode⟩] ∧
      t.qda.tLast = s.qda.tLast ∧ t.qda.tValid = s.qda.tValid) ∧
    (patternAfter s ≠ s.cfg.patALeads → patternAfter s ≠ s.cfg.patBLeads →
      t.qdaResults ≠ s.qdaResults ++ [⟨.ok, 1⟩] ∧ t.qdaResults ≠ s.qdaResults ++ [⟨.ok, 2⟩])

/-- R223, R225, R227: `Select` exactly when no pattern matches, all eight samples are closed, and no press was accepted
yet or the minimum interval has elapsed, modulo 2^32; it is then stamped. -/
def Obligations.SelectNeedsASustainedPress : Prop :=
  ∀ s t : State, exec .poll s = .next t →
    (t.qdaResults = s.qdaResults ++ [⟨.ok, 3⟩] ↔
      patternAfter s ≠ s.cfg.patALeads ∧ patternAfter s ≠ s.cfg.patBLeads ∧ t.qda.btn = 0xFF ∧
        (s.qda.tValid = false ∨ s.cfg.minInterval.toNat ≤ (s.pins.now - s.qda.tLast).toNat)) ∧
    (t.qdaResults = s.qdaResults ++ [⟨.ok, 3⟩] → t.qda.tLast = s.pins.now ∧ t.qda.tValid = true) ∧
    (t.qdaResults ≠ s.qdaResults ++ [⟨.ok, 3⟩] → t.qda.tLast = s.qda.tLast ∧ t.qda.tValid = s.qda.tValid)

/-- POLL once for each of the sampled pin levels, in order. -/
def pollAll : State → List Pins → State
  | s, [] => s
  | s, p :: ps =>
    match exec .poll { s with pins := p } with
    | .next t => pollAll t ps
    | .fault _ => s
    | .refused _ => s

/-- R225 corner case (2), R294: from a button register of zeros, fewer than eight polls return no `Select`. -/
def Obligations.FirstSelectNeedsEightPolls : Prop :=
  ∀ (s : State) (ps : List Pins), s.qda.btn = 0 → s.qdaResults = [] → ps.length < 8 →
    ∀ r ∈ (pollAll s ps).qdaResults, r.res ≠ 3

/-! ### The wire and the panel -/

/-- R96 to R98: the events of each wire transaction, written with the opcodes of R96's table. That one can be issued by
itself is the model's (DESIGN CHOICE, notes/assumptions/11.md); what the panel makes of it is notes/assumptions/13.md,
14.md and 16.md (DEDUCED), and at sleep-off 33.md (DESIGN CHOICE). -/
def Obligations.WireTransactionsComplete : Prop :=
  ∀ s : State, s.cfg.WellFormed → AllOk s →
    (∀ i op, (i, op) ∈ [(Instr.wireSoftwareReset, (0x01 : Byte)), (.wireSleepOn, 0x10), (.wireSleepOff, 0x11),
        (.wireInvertOff, 0x20), (.wireInvertOn, 0x21), (.wireDisplayOff, 0x28), (.wireDisplayOn, 0x29)] →
      ∃ t, exec i s = .next t ∧ Transacted s t op [] ∧ KeepsDriver s t) ∧
    (∀ a b : HalfWord,
      (∃ t, exec (.wireColumnRange a b) s = .next t ∧ Transacted s t 0x2A [hi a, lo a, hi b, lo b] ∧
        KeepsDriver s t) ∧
      (∃ t, exec (.wirePageRange a b) s = .next t ∧ Transacted s t 0x2B [hi a, lo a, hi b, lo b] ∧
        KeepsDriver s t)) ∧
    (∀ pixels : List HalfWord,
      ∃ t, exec (.wireMemoryWrite pixels) s = .next t ∧
        Transacted s t 0x2C (pixels.flatMap fun v => [hi v, lo v]) ∧ KeepsDriver s t) ∧
    (∀ b : Byte,
      (∃ t, exec (.wireMemoryAccessControl b) s = .next t ∧ Transacted s t 0x36 [b] ∧ KeepsDriver s t) ∧
      (∃ t, exec (.wirePixelFormat b) s = .next t ∧ Transacted s t 0x3A [b] ∧ KeepsDriver s t) ∧
      (∃ t, exec (.wireBrightness b) s = .next t ∧ Transacted s t 0x51 [b] ∧ KeepsDriver s t))

/-- R81: the two range commands set the panel's window and change no pixel, when no half pixel is pending
(DEDUCED, notes/assumptions/13.md, 15.md). -/
def Obligations.RangeCommandsSetThePanelsWindow : Prop :=
  ∀ (s t : State) (a b : HalfWord), s.cfg.WellFormed → AllOk s →
    (exec (.wireColumnRange a b) s = .next t →
      t.panel.columns = some (a, b) ∧ t.panel.pages = s.panel.pages ∧
        (s.panel.Settled → t.panel.pixels = s.panel.pixels)) ∧
    (exec (.wirePageRange a b) s = .next t →
      t.panel.pages = some (a, b) ∧ t.panel.columns = s.panel.columns ∧
        (s.panel.Settled → t.panel.pixels = s.panel.pixels))

/-- R82: memory-write stores its pixels into the window row by row from its corner, and no other pixel. A window inside
the panel in the current orientation, not overrun, with no half pixel pending: beyond these the source gives no effect
(DEDUCED, notes/assumptions/13.md, 15.md, 30.md). -/
def Obligations.MemoryWriteFillsTheWindow : Prop :=
  ∀ (s t : State) (x0 x1 y0 y1 : HalfWord) (pixels : List HalfWord), s.cfg.WellFormed → AllOk s →
    s.panel.Settled → s.panel.columns = some (x0, x1) → s.panel.pages = some (y0, y1) →
    x0.toNat ≤ x1.toNat → x1.toNat < s.width.toNat → y0.toNat ≤ y1.toNat → y1.toNat < s.height.toNat →
    pixels.length ≤ (x1.toNat - x0.toNat + 1) * (y1.toNat - y0.toNat + 1) →
    exec (.wireMemoryWrite pixels) s = .next t →
      (∀ k v, pixels[k]? = some v →
        t.panel.pixel (x0.toNat + k % (x1.toNat - x0.toNat + 1)) (y0.toNat + k / (x1.toNat - x0.toNat + 1)) =
          some v) ∧
      (∀ x y, x < 65536 →
        (∀ k, k < pixels.length →
          ¬ (x = x0.toNat + k % (x1.toNat - x0.toNat + 1) ∧ y = y0.toNat + k / (x1.toNat - x0.toNat + 1))) →
        t.panel.pixel x y = s.panel.pixel x y)

/-- R83: the other opcodes change no pixel. What the panel keeps over software-reset and while it is asleep is not in the
source (R269; 93 U13): its pixels are what a test bench assumes, and without an assumption none is known (DEDUCED,
notes/assumptions/13.md, 14.md, 32.md). That a panel whose sleep state is not known counts as awake at sleep-off is the
model's (DESIGN CHOICE, notes/assumptions/33.md). -/
def Obligations.OtherOpcodesChangeNoPixel : Prop :=
  ∀ (s t : State) (b : Byte), s.cfg.WellFormed → AllOk s → s.panel.Settled →
    (∀ i ∈ [.wireDisplayOff, .wireDisplayOn, .wireInvertOff, .wireInvertOn, .wireMemoryAccessControl b,
        .wirePixelFormat b, Instr.wireBrightness b],
      exec i s = .next t → t.panel.pixels = s.panel.pixels) ∧
    (exec .wireSoftwareReset s = .next t →
      t.panel.pixels = if s.panel.bench.keepsReset then s.panel.pixels else s.panel.bench.pixels) ∧
    (exec .wireSleepOn s = .next t →
      t.panel.pixels = if s.panel.bench.keepsAsleep then s.panel.pixels else []) ∧
    (exec .wireSleepOff s = .next t →
      t.panel.pixels =
        if s.panel.asleep = some true ∧ s.panel.bench.keepsAsleep = false then [] else s.panel.pixels)

/-- R291, with R166 to R170 and R80 to R82: CLEAR to a colour that differs everywhere from `snt`, then FLUSH, and the
panel shows that colour everywhere. The panel is R80 to R82's (DEDUCED, notes/assumptions/13.md). -/
def Obligations.ClearThenFlushShowsTheColour : Prop :=
  ∀ (s : State) (color : HalfWord), s.cfg.WellFormed → AllOk s → s.pd = .ready →
    (∀ i, i < s.cfg.cells → Memory.read s.snt i ≠ some (s.cfg.reduce color)) →
      ∃ t u, exec (.clear color) s = .next t ∧ exec .flush t = .next u ∧ u.snt = u.cur ∧
        ∀ x y, x < s.width.toNat → y < s.height.toNat →
          u.panel.pixel x y = some (s.cfg.expand (s.cfg.reduce color))

/-- R291, R83, D41: when a test bench assumes that the panel's pixel memory after its resets is `expand(FB_INIT)`
everywhere, INIT, CLEAR and FLUSH show the colour everywhere, for every colour, the initial one too (the panel: DEDUCED,
notes/assumptions/13.md; the assumption: notes/assumptions/32.md; that INIT's sleep-off keeps it: DESIGN CHOICE,
notes/assumptions/33.md). -/
def Obligations.RoundTripFromInit : Prop :=
  ∀ (s : State) (v : Orientation) (color : HalfWord), s.cfg.WellFormed → AllOk s → s.pd = .uninitialized →
    (∀ x y, x < (s.cfg.width v).toNat → y < (s.cfg.height v).toNat →
      Memory.read s.panel.bench.pixels (pixelAddress x y) = some (s.cfg.expand s.cfg.fbInit)) →
      ∃ t u w, exec (.init v) s = .next t ∧ exec (.clear color) t = .next u ∧ exec .flush u = .next w ∧
        ∀ x y, x < (s.cfg.width v).toNat → y < (s.cfg.height v).toNat →
          w.panel.pixel x y = some (s.cfg.expand (s.cfg.reduce color))

/-! ### Reset -/

/-- Every element R20 gives a reset value has it; the elements it calls unspecified hold no value; the event history
is empty; both ports are ready (R280) and nothing was returned or read yet (DESIGN CHOICE, notes/assumptions/17.md).
That a memory without a reset value holds nothing at all is the model's reading of R38 (DESIGN CHOICE,
notes/assumptions/7.md, 8.md, 9.md). -/
def AtReset (t : State) : Prop :=
  t.pd = .uninitialized ∧ t.orient = .portrait ∧ t.win = ⟨0, 0, 0, 0⟩ ∧ t.dc = 0 ∧ t.rstN = 1 ∧
    t.qda.qa = 0 ∧ t.qda.qb = 0 ∧ t.qda.btn = 0 ∧ t.qda.tValid = false ∧
    t.cur = [] ∧ t.snt = [] ∧ t.pb = [] ∧ t.cb = [] ∧ t.history = [] ∧ t.seqMode = .idle ∧
    t.seqResults = [] ∧ t.qdaResults = [] ∧ t.hostReads = []

/-- R280: the state after reset, and block reset out of any state, even with an operation in progress that hangs. That
block reset is an input, and the parameters stay, is the model's (DESIGN CHOICE, notes/assumptions/2.md, 18.md). -/
def Obligations.BlockResetSetsEveryElement : Prop :=
  AtReset State.reset ∧
    ∀ (s : State) (rest : List Input), s.inputs = .blockReset :: rest →
      ∃ t, step s = .next t ∧ AtReset t ∧ t.inputs = rest ∧ t.cfg = s.cfg
end

