-- ==== Sys2Proof/Laws/Memory.lean ====
section
/-! SUPPORT. The laws of the memories: what a read after a write gives, that every operation keeps the canonical form,
and what the filled memory and the consecutive reads and writes hold. -/

namespace Sys2Proof.Machine

variable {β : Type}

@[simp] theorem Memory.read_nil (a : Nat) : Memory.read ([] : Memory β) a = none := rfl

@[simp] theorem Memory.read_write_same (m : Memory β) (a : Nat) (v : β) :
    Memory.read (Memory.write m a v) a = some v := by
  induction m with
  | nil => simp [Memory.write, Memory.read]
  | cons p rest ih =>
    obtain ⟨k, w⟩ := p
    by_cases h1 : a < k
    · simp [Memory.write, h1, Memory.read]
    · by_cases h2 : a = k
      · simp [Memory.write, h2, Memory.read]
      · simp [Memory.write, h1, h2, Memory.read, Ne.symm h2, ih]

theorem Memory.read_write_ne (m : Memory β) {a b : Nat} (v : β) (h : b ≠ a) :
    Memory.read (Memory.write m a v) b = Memory.read m b := by
  induction m with
  | nil => simp [Memory.write, Memory.read, Ne.symm h]
  | cons p rest ih =>
    obtain ⟨k, w⟩ := p
    by_cases h1 : a < k
    · simp [Memory.write, h1, Memory.read, Ne.symm h]
    · by_cases h2 : a = k
      · subst h2; simp [Memory.write, Memory.read, Ne.symm h]
      · simp [Memory.write, h1, h2, Memory.read, ih]

theorem Memory.read_write (m : Memory β) (a b : Nat) (v : β) :
    Memory.read (Memory.write m a v) b = if b = a then some v else Memory.read m b := by
  by_cases h : b = a
  · subst h; simp
  · simp [h, Memory.read_write_ne m v h]

/-- A write lists no address but the old ones and its own. -/
theorem Memory.mem_write {m : Memory β} {a : Nat} {v : β} {p : Nat × β} (h : p ∈ Memory.write m a v) :
    p = (a, v) ∨ p ∈ m := by
  induction m with
  | nil => simpa [Memory.write] using h
  | cons q rest ih =>
    obtain ⟨k, w⟩ := q
    by_cases h1 : a < k
    · simpa [Memory.write, h1] using h
    · by_cases h2 : a = k
      · simp only [Memory.write, if_neg h1, if_pos h2, List.mem_cons] at h
        rcases h with h | h
        · exact .inl h
        · exact .inr (List.mem_cons_of_mem _ h)
      · simp only [Memory.write, if_neg h1, if_neg h2, List.mem_cons] at h
        rcases h with h | h
        · exact .inr (by simp [h])
        · rcases ih h with h | h
          · exact .inl h
          · exact .inr (List.mem_cons_of_mem _ h)

/-- A write keeps the canonical form. -/
theorem Memory.write_wf {m : Memory β} (h : Memory.wf m) (a : Nat) (v : β) : Memory.wf (Memory.write m a v) := by
  induction m with
  | nil => exact List.pairwise_singleton _ _
  | cons q rest ih =>
    obtain ⟨k, w⟩ := q
    rw [Memory.wf, List.pairwise_cons] at h
    by_cases h1 : a < k
    · simp only [Memory.write, if_pos h1]
      refine List.pairwise_cons.2 ⟨fun p hp => ?_, List.pairwise_cons.2 h⟩
      rcases List.mem_cons.1 hp with rfl | hp
      · exact h1
      · exact Nat.lt_trans h1 (h.1 p hp)
    · by_cases h2 : a = k
      · simp only [Memory.write, if_neg h1, if_pos h2]
        exact List.pairwise_cons.2 ⟨fun p hp => h2 ▸ h.1 p hp, h.2⟩
      · simp only [Memory.write, if_neg h1, if_neg h2]
        refine List.pairwise_cons.2 ⟨fun p hp => ?_, ih h.2⟩
        rcases Memory.mem_write hp with rfl | hp
        · exact Nat.lt_of_le_of_ne (Nat.le_of_not_lt h1) (Ne.symm h2)
        · exact h.1 p hp

theorem Memory.writeFrom_wf {m : Memory β} (h : Memory.wf m) (a : Nat) (vs : List β) :
    Memory.wf (Memory.writeFrom m a vs) := by
  induction vs generalizing m a with
  | nil => exact h
  | cons v vs ih => exact ih (Memory.write_wf h a v) (a + 1)

theorem Memory.mem_writeFrom {m : Memory β} {a : Nat} {vs : List β} {p : Nat × β}
    (h : p ∈ Memory.writeFrom m a vs) : (a ≤ p.1 ∧ p.1 < a + vs.length) ∨ p ∈ m := by
  induction vs generalizing m a with
  | nil => exact .inr h
  | cons v vs ih =>
    rcases ih h with h | h
    · left; simp only [List.length_cons]; omega
    · rcases Memory.mem_write h with rfl | h
      · left; simp
      · exact .inr h

/-- Consecutive writes: the address `b` then holds its byte of the written ones, or what it held before. -/
theorem Memory.read_writeFrom (m : Memory β) (a b : Nat) (vs : List β) :
    Memory.read (Memory.writeFrom m a vs) b =
      if a ≤ b ∧ b < a + vs.length then vs[b - a]? else Memory.read m b := by
  induction vs generalizing m a with
  | nil => simp [Memory.writeFrom]
  | cons v vs ih =>
    rw [Memory.writeFrom, ih, Memory.read_write]
    by_cases h : b = a
    · subst h; simp
    · by_cases h2 : a + 1 ≤ b ∧ b < a + 1 + vs.length
      · have h3 : a ≤ b ∧ b < a + (v :: vs).length := by simp only [List.length_cons]; omega
        rw [if_pos h2, if_pos h3]
        have : b - a = (b - (a + 1)) + 1 := by omega
        rw [this, List.getElem?_cons_succ]
      · have h3 : ¬(a ≤ b ∧ b < a + (v :: vs).length) := by simp only [List.length_cons]; omega
        rw [if_neg h2, if_neg h3, if_neg h]

theorem Memory.readFrom_length {m : Memory β} {a n : Nat} {vs : List β}
    (h : Memory.readFrom m a n = some vs) : vs.length = n := by
  induction n generalizing a vs with
  | zero => simp only [Memory.readFrom, Option.some.injEq] at h; simp [← h]
  | succ n ih =>
    simp only [Memory.readFrom] at h
    split at h
    · rename_i v ws _ h2
      cases h
      simp [ih h2]
    · cases h

theorem Memory.readAll_length {m : Memory β} {as : List Nat} {vs : List β}
    (h : Memory.readAll m as = some vs) : vs.length = as.length := by
  induction as generalizing vs with
  | nil => simp only [Memory.readAll, Option.some.injEq] at h; simp [← h]
  | cons a as ih =>
    simp only [Memory.readAll] at h
    split at h
    · rename_i v ws _ h2
      cases h
      simp [ih h2]
    · cases h

theorem Memory.readAll_getElem? {m : Memory β} {as : List Nat} {vs : List β}
    (h : Memory.readAll m as = some vs) (k : Nat) : vs[k]? = as[k]?.bind (Memory.read m) := by
  induction as generalizing vs k with
  | nil => simp only [Memory.readAll, Option.some.injEq] at h; simp [← h]
  | cons a as ih =>
    simp only [Memory.readAll] at h
    split at h
    · rename_i v ws h1 h2
      cases h
      cases k with
      | zero => simp [h1]
      | succ k => simp [ih h2 k]
    · cases h

theorem Memory.readAll_isSome {m : Memory β} {as : List Nat} (h : ∀ a ∈ as, ∃ v, Memory.read m a = some v) :
    ∃ vs, Memory.readAll m as = some vs := by
  induction as with
  | nil => exact ⟨[], rfl⟩
  | cons a as ih =>
    obtain ⟨v, hv⟩ := h a (by simp)
    obtain ⟨vs, hvs⟩ := ih fun b hb => h b (by simp [hb])
    exact ⟨v :: vs, by simp [Memory.readAll, hv, hvs]⟩

theorem Memory.fill_wf (n : Nat) (v : β) : Memory.wf (Memory.fill n v) := by
  rw [Memory.wf, Memory.fill, List.pairwise_map]
  exact List.pairwise_lt_range

theorem Memory.mem_fill {n : Nat} {v : β} {p : Nat × β} (h : p ∈ Memory.fill n v) : p.1 < n ∧ p.2 = v := by
  simp only [Memory.fill, List.mem_map, List.mem_range] at h
  obtain ⟨i, hi, rfl⟩ := h
  exact ⟨hi, rfl⟩

theorem Memory.read_of_mem {m : Memory β} (hwf : Memory.wf m) {p : Nat × β} (h : p ∈ m) :
    Memory.read m p.1 = some p.2 := by
  induction m with
  | nil => cases h
  | cons q rest ih =>
    obtain ⟨k, w⟩ := q
    rw [Memory.wf, List.pairwise_cons] at hwf
    rcases List.mem_cons.1 h with rfl | h
    · simp [Memory.read]
    · have := hwf.1 p h
      simp only at this
      simp [Memory.read, Nat.ne_of_lt this, ih hwf.2 h]

theorem Memory.mem_of_read {m : Memory β} {a : Nat} {v : β} (h : Memory.read m a = some v) : (a, v) ∈ m := by
  induction m with
  | nil => cases h
  | cons q rest ih =>
    obtain ⟨k, w⟩ := q
    simp only [Memory.read] at h
    split at h
    · rename_i hk; cases h; subst hk; simp
    · exact List.mem_cons_of_mem _ (ih h)

theorem Memory.read_fill (n : Nat) (v : β) (i : Nat) :
    Memory.read (Memory.fill n v) i = if i < n then some v else none := by
  split
  · rename_i h
    have : (i, v) ∈ Memory.fill n v := by simp [Memory.fill, h]
    exact Memory.read_of_mem (Memory.fill_wf n v) this
  · rename_i h
    cases hr : Memory.read (Memory.fill n v) i with
    | none => rfl
    | some w => exact absurd (Memory.mem_fill (Memory.mem_of_read hr)).1 h

/-- Consecutive addresses that hold a list of values read as that list. -/
theorem Memory.readFrom_eq (m : Memory β) (a : Nat) (vs : List β)
    (h : ∀ k, k < vs.length → Memory.read m (a + k) = vs[k]?) : Memory.readFrom m a vs.length = some vs := by
  induction vs generalizing a with
  | nil => rfl
  | cons v vs ih =>
    have h0 := h 0 (by simp)
    simp only [Nat.add_zero, List.getElem?_cons_zero] at h0
    have := ih (a + 1) fun k hk => by
      have := h (k + 1) (by simp; omega)
      rw [show a + 1 + k = a + (k + 1) by omega, this]; simp
    simp [Memory.readFrom, h0, this]

/-- What was written consecutively is read back. -/
theorem Memory.readFrom_writeFrom (m : Memory β) (a : Nat) (vs : List β) :
    Memory.readFrom (Memory.writeFrom m a vs) a vs.length = some vs := by
  refine Memory.readFrom_eq _ _ _ fun k hk => ?_
  rw [Memory.read_writeFrom, if_pos (by omega)]; congr 1; omega

/-- A consecutive read over an address that holds no value gives none. -/
theorem Memory.readFrom_none {m : Memory β} {b a n : Nat} (h1 : b ≤ a) (h2 : a < b + n)
    (h : Memory.read m a = none) : Memory.readFrom m b n = none := by
  induction n generalizing b with
  | zero => omega
  | succ n ih =>
    by_cases hb : b = a
    · subst hb; simp [Memory.readFrom, h]
    · simp [Memory.readFrom, ih (b := b + 1) (by omega) (by omega)]

/-- A memory made of a list of entries has the canonical form, whatever the list. -/
theorem Memory.ofList_wf (l : List (Nat × β)) : Memory.wf (Memory.ofList l) := by
  have h : ∀ m : Memory β, Memory.wf m → Memory.wf (l.foldl (fun m p => Memory.write m p.1 p.2) m) := by
    induction l with
    | nil => exact fun _ hm => hm
    | cons p ps ih => exact fun m hm => ih _ (Memory.write_wf hm p.1 p.2)
  exact h [] List.Pairwise.nil

/-- A consecutive read of two parts. -/
theorem Memory.readFrom_add (m : Memory β) (a k n : Nat) :
    Memory.readFrom m a (k + n) =
      match Memory.readFrom m a k, Memory.readFrom m (a + k) n with
      | some vs, some ws => some (vs ++ ws)
      | _, _ => none := by
  induction k generalizing a with
  | zero => simp only [Nat.zero_add, Nat.add_zero, Memory.readFrom]; cases Memory.readFrom m a n <;> rfl
  | succ k ih =>
    rw [show k + 1 + n = (k + n) + 1 by omega, Memory.readFrom, ih, Memory.readFrom,
      show a + 1 + k = a + (k + 1) by omega]
    cases Memory.read m a <;> cases Memory.readFrom m (a + 1) k <;>
      cases Memory.readFrom m (a + (k + 1)) n <;> rfl

/-- One address of a consecutive read. -/
theorem Memory.read_of_readFrom {m : Memory β} {a n : Nat} {vs : List β} (h : Memory.readFrom m a n = some vs)
    {k : Nat} (hk : k < n) : Memory.read m (a + k) = vs[k]? := by
  induction n generalizing a k vs with
  | zero => omega
  | succ n ih =>
    simp only [Memory.readFrom] at h
    split at h
    · rename_i v ws h1 h2
      cases h
      cases k with
      | zero => simp [h1]
      | succ k =>
        rw [show a + (k + 1) = a + 1 + k by omega, ih h2 (by omega)]; simp
    · cases h

end Sys2Proof.Machine
end

