-- ==== Sys2Proof/Laws/State.lean ====
section
/-! SUPPORT. One lemma per field per update of the state: no later proof unfolds a record update. -/

namespace Sys2Proof.Machine

variable (s : State)

@[simp] theorem emitRst_cfg (l : BitVec 1) : (emitRst l s).1.cfg = s.cfg := rfl
@[simp] theorem emitRst_pd (l : BitVec 1) : (emitRst l s).1.pd = s.pd := rfl
@[simp] theorem emitRst_orient (l : BitVec 1) : (emitRst l s).1.orient = s.orient := rfl
@[simp] theorem emitRst_win (l : BitVec 1) : (emitRst l s).1.win = s.win := rfl
@[simp] theorem emitRst_cur (l : BitVec 1) : (emitRst l s).1.cur = s.cur := rfl
@[simp] theorem emitRst_snt (l : BitVec 1) : (emitRst l s).1.snt = s.snt := rfl
@[simp] theorem emitRst_pb (l : BitVec 1) : (emitRst l s).1.pb = s.pb := rfl
@[simp] theorem emitRst_cb (l : BitVec 1) : (emitRst l s).1.cb = s.cb := rfl
@[simp] theorem emitRst_dc (l : BitVec 1) : (emitRst l s).1.dc = s.dc := rfl
@[simp] theorem emitRst_rstN (l : BitVec 1) : (emitRst l s).1.rstN = s.nextAnswer.settle l := rfl
@[simp] theorem emitRst_qda (l : BitVec 1) : (emitRst l s).1.qda = s.qda := rfl
@[simp] theorem emitRst_pins (l : BitVec 1) : (emitRst l s).1.pins = s.pins := rfl
@[simp] theorem emitRst_prod8 (l : BitVec 1) : (emitRst l s).1.prod8 = s.prod8 := rfl
@[simp] theorem emitRst_prod16 (l : BitVec 1) : (emitRst l s).1.prod16 = s.prod16 := rfl
@[simp] theorem emitRst_history (l : BitVec 1) : (emitRst l s).1.history = s.history ++ [.rst l s.nextAnswer] := rfl
@[simp] theorem emitRst_panel (l : BitVec 1) : (emitRst l s).1.panel = s.panel.afterReset := rfl
@[simp] theorem emitRst_answers (l : BitVec 1) : (emitRst l s).1.answers = s.answers.tail := rfl
@[simp] theorem emitRst_inputs (l : BitVec 1) : (emitRst l s).1.inputs = s.inputs := rfl
@[simp] theorem emitRst_seqMode (l : BitVec 1) : (emitRst l s).1.seqMode = s.seqMode := rfl
@[simp] theorem emitRst_seqResults (l : BitVec 1) : (emitRst l s).1.seqResults = s.seqResults := rfl
@[simp] theorem emitRst_qdaResults (l : BitVec 1) : (emitRst l s).1.qdaResults = s.qdaResults := rfl
@[simp] theorem emitRst_hostReads (l : BitVec 1) : (emitRst l s).1.hostReads = s.hostReads := rfl
@[simp] theorem emitRst_width (l : BitVec 1) : (emitRst l s).1.width = s.width := rfl
@[simp] theorem emitRst_height (l : BitVec 1) : (emitRst l s).1.height = s.height := rfl
@[simp] theorem emitRst_reply (l : BitVec 1) : (emitRst l s).2 = s.nextAnswer.reply .resetError := rfl

@[simp] theorem emitDc_cfg (l : BitVec 1) : (emitDc l s).1.cfg = s.cfg := rfl
@[simp] theorem emitDc_pd (l : BitVec 1) : (emitDc l s).1.pd = s.pd := rfl
@[simp] theorem emitDc_orient (l : BitVec 1) : (emitDc l s).1.orient = s.orient := rfl
@[simp] theorem emitDc_win (l : BitVec 1) : (emitDc l s).1.win = s.win := rfl
@[simp] theorem emitDc_cur (l : BitVec 1) : (emitDc l s).1.cur = s.cur := rfl
@[simp] theorem emitDc_snt (l : BitVec 1) : (emitDc l s).1.snt = s.snt := rfl
@[simp] theorem emitDc_pb (l : BitVec 1) : (emitDc l s).1.pb = s.pb := rfl
@[simp] theorem emitDc_cb (l : BitVec 1) : (emitDc l s).1.cb = s.cb := rfl
@[simp] theorem emitDc_dc (l : BitVec 1) : (emitDc l s).1.dc = s.nextAnswer.settle l := rfl
@[simp] theorem emitDc_rstN (l : BitVec 1) : (emitDc l s).1.rstN = s.rstN := rfl
@[simp] theorem emitDc_qda (l : BitVec 1) : (emitDc l s).1.qda = s.qda := rfl
@[simp] theorem emitDc_pins (l : BitVec 1) : (emitDc l s).1.pins = s.pins := rfl
@[simp] theorem emitDc_prod8 (l : BitVec 1) : (emitDc l s).1.prod8 = s.prod8 := rfl
@[simp] theorem emitDc_prod16 (l : BitVec 1) : (emitDc l s).1.prod16 = s.prod16 := rfl
@[simp] theorem emitDc_history (l : BitVec 1) : (emitDc l s).1.history = s.history ++ [.dc l s.nextAnswer] := rfl
@[simp] theorem emitDc_panel (l : BitVec 1) : (emitDc l s).1.panel = s.panel := rfl
@[simp] theorem emitDc_answers (l : BitVec 1) : (emitDc l s).1.answers = s.answers.tail := rfl
@[simp] theorem emitDc_inputs (l : BitVec 1) : (emitDc l s).1.inputs = s.inputs := rfl
@[simp] theorem emitDc_seqMode (l : BitVec 1) : (emitDc l s).1.seqMode = s.seqMode := rfl
@[simp] theorem emitDc_seqResults (l : BitVec 1) : (emitDc l s).1.seqResults = s.seqResults := rfl
@[simp] theorem emitDc_qdaResults (l : BitVec 1) : (emitDc l s).1.qdaResults = s.qdaResults := rfl
@[simp] theorem emitDc_hostReads (l : BitVec 1) : (emitDc l s).1.hostReads = s.hostReads := rfl
@[simp] theorem emitDc_width (l : BitVec 1) : (emitDc l s).1.width = s.width := rfl
@[simp] theorem emitDc_height (l : BitVec 1) : (emitDc l s).1.height = s.height := rfl
@[simp] theorem emitDc_reply (l : BitVec 1) : (emitDc l s).2 = s.nextAnswer.reply .selectLineError := rfl

@[simp] theorem emitWr_cfg (bytes : List Byte) : (emitWr bytes s).1.cfg = s.cfg := rfl
@[simp] theorem emitWr_pd (bytes : List Byte) : (emitWr bytes s).1.pd = s.pd := rfl
@[simp] theorem emitWr_orient (bytes : List Byte) : (emitWr bytes s).1.orient = s.orient := rfl
@[simp] theorem emitWr_win (bytes : List Byte) : (emitWr bytes s).1.win = s.win := rfl
@[simp] theorem emitWr_cur (bytes : List Byte) : (emitWr bytes s).1.cur = s.cur := rfl
@[simp] theorem emitWr_snt (bytes : List Byte) : (emitWr bytes s).1.snt = s.snt := rfl
@[simp] theorem emitWr_pb (bytes : List Byte) : (emitWr bytes s).1.pb = s.pb := rfl
@[simp] theorem emitWr_cb (bytes : List Byte) : (emitWr bytes s).1.cb = s.cb := rfl
@[simp] theorem emitWr_dc (bytes : List Byte) : (emitWr bytes s).1.dc = s.dc := rfl
@[simp] theorem emitWr_rstN (bytes : List Byte) : (emitWr bytes s).1.rstN = s.rstN := rfl
@[simp] theorem emitWr_qda (bytes : List Byte) : (emitWr bytes s).1.qda = s.qda := rfl
@[simp] theorem emitWr_pins (bytes : List Byte) : (emitWr bytes s).1.pins = s.pins := rfl
@[simp] theorem emitWr_prod8 (bytes : List Byte) : (emitWr bytes s).1.prod8 = s.prod8 := rfl
@[simp] theorem emitWr_prod16 (bytes : List Byte) : (emitWr bytes s).1.prod16 = s.prod16 := rfl
@[simp] theorem emitWr_history (bytes : List Byte) : (emitWr bytes s).1.history = s.history ++ [.wr bytes s.nextAnswer] := rfl
@[simp] theorem emitWr_panel (bytes : List Byte) : (emitWr bytes s).1.panel = Panel.takeBytes s.cfg s.width s.height s.dc (s.nextAnswer.delivered bytes) s.panel := rfl
@[simp] theorem emitWr_answers (bytes : List Byte) : (emitWr bytes s).1.answers = s.answers.tail := rfl
@[simp] theorem emitWr_inputs (bytes : List Byte) : (emitWr bytes s).1.inputs = s.inputs := rfl
@[simp] theorem emitWr_seqMode (bytes : List Byte) : (emitWr bytes s).1.seqMode = s.seqMode := rfl
@[simp] theorem emitWr_seqResults (bytes : List Byte) : (emitWr bytes s).1.seqResults = s.seqResults := rfl
@[simp] theorem emitWr_qdaResults (bytes : List Byte) : (emitWr bytes s).1.qdaResults = s.qdaResults := rfl
@[simp] theorem emitWr_hostReads (bytes : List Byte) : (emitWr bytes s).1.hostReads = s.hostReads := rfl
@[simp] theorem emitWr_width (bytes : List Byte) : (emitWr bytes s).1.width = s.width := rfl
@[simp] theorem emitWr_height (bytes : List Byte) : (emitWr bytes s).1.height = s.height := rfl
@[simp] theorem emitWr_reply (bytes : List Byte) : (emitWr bytes s).2 = s.nextAnswer.reply .busWriteError := rfl

@[simp] theorem emitDly_cfg (t : Nat) : (emitDly t s).cfg = s.cfg := rfl
@[simp] theorem emitDly_pd (t : Nat) : (emitDly t s).pd = s.pd := rfl
@[simp] theorem emitDly_orient (t : Nat) : (emitDly t s).orient = s.orient := rfl
@[simp] theorem emitDly_win (t : Nat) : (emitDly t s).win = s.win := rfl
@[simp] theorem emitDly_cur (t : Nat) : (emitDly t s).cur = s.cur := rfl
@[simp] theorem emitDly_snt (t : Nat) : (emitDly t s).snt = s.snt := rfl
@[simp] theorem emitDly_pb (t : Nat) : (emitDly t s).pb = s.pb := rfl
@[simp] theorem emitDly_cb (t : Nat) : (emitDly t s).cb = s.cb := rfl
@[simp] theorem emitDly_dc (t : Nat) : (emitDly t s).dc = s.dc := rfl
@[simp] theorem emitDly_rstN (t : Nat) : (emitDly t s).rstN = s.rstN := rfl
@[simp] theorem emitDly_qda (t : Nat) : (emitDly t s).qda = s.qda := rfl
@[simp] theorem emitDly_pins (t : Nat) : (emitDly t s).pins = s.pins := rfl
@[simp] theorem emitDly_prod8 (t : Nat) : (emitDly t s).prod8 = s.prod8 := rfl
@[simp] theorem emitDly_prod16 (t : Nat) : (emitDly t s).prod16 = s.prod16 := rfl
@[simp] theorem emitDly_history (t : Nat) : (emitDly t s).history = s.history ++ [.dly t] := rfl
@[simp] theorem emitDly_panel (t : Nat) : (emitDly t s).panel = s.panel := rfl
@[simp] theorem emitDly_answers (t : Nat) : (emitDly t s).answers = s.answers := rfl
@[simp] theorem emitDly_inputs (t : Nat) : (emitDly t s).inputs = s.inputs := rfl
@[simp] theorem emitDly_seqMode (t : Nat) : (emitDly t s).seqMode = s.seqMode := rfl
@[simp] theorem emitDly_seqResults (t : Nat) : (emitDly t s).seqResults = s.seqResults := rfl
@[simp] theorem emitDly_qdaResults (t : Nat) : (emitDly t s).qdaResults = s.qdaResults := rfl
@[simp] theorem emitDly_hostReads (t : Nat) : (emitDly t s).hostReads = s.hostReads := rfl
@[simp] theorem emitDly_width (t : Nat) : (emitDly t s).width = s.width := rfl
@[simp] theorem emitDly_height (t : Nat) : (emitDly t s).height = s.height := rfl
@[simp] theorem emitDly_nextAnswer (t : Nat) : (emitDly t s).nextAnswer = s.nextAnswer := rfl

@[simp] theorem stage_cfg (chunk : List Byte) : (stage chunk s).cfg = s.cfg := rfl
@[simp] theorem stage_pd (chunk : List Byte) : (stage chunk s).pd = s.pd := rfl
@[simp] theorem stage_orient (chunk : List Byte) : (stage chunk s).orient = s.orient := rfl
@[simp] theorem stage_win (chunk : List Byte) : (stage chunk s).win = s.win := rfl
@[simp] theorem stage_cur (chunk : List Byte) : (stage chunk s).cur = s.cur := rfl
@[simp] theorem stage_snt (chunk : List Byte) : (stage chunk s).snt = s.snt := rfl
@[simp] theorem stage_pb (chunk : List Byte) : (stage chunk s).pb = s.pb := rfl
@[simp] theorem stage_cb (chunk : List Byte) : (stage chunk s).cb = Memory.writeFrom s.cb 0 chunk := rfl
@[simp] theorem stage_dc (chunk : List Byte) : (stage chunk s).dc = s.dc := rfl
@[simp] theorem stage_rstN (chunk : List Byte) : (stage chunk s).rstN = s.rstN := rfl
@[simp] theorem stage_qda (chunk : List Byte) : (stage chunk s).qda = s.qda := rfl
@[simp] theorem stage_pins (chunk : List Byte) : (stage chunk s).pins = s.pins := rfl
@[simp] theorem stage_prod8 (chunk : List Byte) : (stage chunk s).prod8 = s.prod8 := rfl
@[simp] theorem stage_prod16 (chunk : List Byte) : (stage chunk s).prod16 = s.prod16 := rfl
@[simp] theorem stage_history (chunk : List Byte) : (stage chunk s).history = s.history := rfl
@[simp] theorem stage_panel (chunk : List Byte) : (stage chunk s).panel = s.panel := rfl
@[simp] theorem stage_answers (chunk : List Byte) : (stage chunk s).answers = s.answers := rfl
@[simp] theorem stage_inputs (chunk : List Byte) : (stage chunk s).inputs = s.inputs := rfl
@[simp] theorem stage_seqMode (chunk : List Byte) : (stage chunk s).seqMode = s.seqMode := rfl
@[simp] theorem stage_seqResults (chunk : List Byte) : (stage chunk s).seqResults = s.seqResults := rfl
@[simp] theorem stage_qdaResults (chunk : List Byte) : (stage chunk s).qdaResults = s.qdaResults := rfl
@[simp] theorem stage_hostReads (chunk : List Byte) : (stage chunk s).hostReads = s.hostReads := rfl
@[simp] theorem stage_width (chunk : List Byte) : (stage chunk s).width = s.width := rfl
@[simp] theorem stage_height (chunk : List Byte) : (stage chunk s).height = s.height := rfl
@[simp] theorem stage_nextAnswer (chunk : List Byte) : (stage chunk s).nextAnswer = s.nextAnswer := rfl

@[simp] theorem finishSeq_cfg (st : Status) (r : HalfWord) : (s.finishSeq st r).cfg = s.cfg := rfl
@[simp] theorem finishSeq_pd (st : Status) (r : HalfWord) : (s.finishSeq st r).pd = s.pd := rfl
@[simp] theorem finishSeq_orient (st : Status) (r : HalfWord) : (s.finishSeq st r).orient = s.orient := rfl
@[simp] theorem finishSeq_win (st : Status) (r : HalfWord) : (s.finishSeq st r).win = s.win := rfl
@[simp] theorem finishSeq_cur (st : Status) (r : HalfWord) : (s.finishSeq st r).cur = s.cur := rfl
@[simp] theorem finishSeq_snt (st : Status) (r : HalfWord) : (s.finishSeq st r).snt = s.snt := rfl
@[simp] theorem finishSeq_pb (st : Status) (r : HalfWord) : (s.finishSeq st r).pb = s.pb := rfl
@[simp] theorem finishSeq_cb (st : Status) (r : HalfWord) : (s.finishSeq st r).cb = s.cb := rfl
@[simp] theorem finishSeq_dc (st : Status) (r : HalfWord) : (s.finishSeq st r).dc = s.dc := rfl
@[simp] theorem finishSeq_rstN (st : Status) (r : HalfWord) : (s.finishSeq st r).rstN = s.rstN := rfl
@[simp] theorem finishSeq_qda (st : Status) (r : HalfWord) : (s.finishSeq st r).qda = s.qda := rfl
@[simp] theorem finishSeq_pins (st : Status) (r : HalfWord) : (s.finishSeq st r).pins = s.pins := rfl
@[simp] theorem finishSeq_prod8 (st : Status) (r : HalfWord) : (s.finishSeq st r).prod8 = s.prod8 := rfl
@[simp] theorem finishSeq_prod16 (st : Status) (r : HalfWord) : (s.finishSeq st r).prod16 = s.prod16 := rfl
@[simp] theorem finishSeq_history (st : Status) (r : HalfWord) : (s.finishSeq st r).history = s.history := rfl
@[simp] theorem finishSeq_panel (st : Status) (r : HalfWord) : (s.finishSeq st r).panel = s.panel := rfl
@[simp] theorem finishSeq_answers (st : Status) (r : HalfWord) : (s.finishSeq st r).answers = s.answers := rfl
@[simp] theorem finishSeq_inputs (st : Status) (r : HalfWord) : (s.finishSeq st r).inputs = s.inputs := rfl
@[simp] theorem finishSeq_seqMode (st : Status) (r : HalfWord) : (s.finishSeq st r).seqMode = s.seqMode := rfl
@[simp] theorem finishSeq_seqResults (st : Status) (r : HalfWord) : (s.finishSeq st r).seqResults = s.seqResults ++ [⟨st, r⟩] := rfl
@[simp] theorem finishSeq_qdaResults (st : Status) (r : HalfWord) : (s.finishSeq st r).qdaResults = s.qdaResults := rfl
@[simp] theorem finishSeq_hostReads (st : Status) (r : HalfWord) : (s.finishSeq st r).hostReads = s.hostReads := rfl
@[simp] theorem finishSeq_width (st : Status) (r : HalfWord) : (s.finishSeq st r).width = s.width := rfl
@[simp] theorem finishSeq_height (st : Status) (r : HalfWord) : (s.finishSeq st r).height = s.height := rfl
@[simp] theorem finishSeq_nextAnswer (st : Status) (r : HalfWord) : (s.finishSeq st r).nextAnswer = s.nextAnswer := rfl

@[simp] theorem finishQda_cfg (st : Status) (r : HalfWord) : (s.finishQda st r).cfg = s.cfg := rfl
@[simp] theorem finishQda_pd (st : Status) (r : HalfWord) : (s.finishQda st r).pd = s.pd := rfl
@[simp] theorem finishQda_orient (st : Status) (r : HalfWord) : (s.finishQda st r).orient = s.orient := rfl
@[simp] theorem finishQda_win (st : Status) (r : HalfWord) : (s.finishQda st r).win = s.win := rfl
@[simp] theorem finishQda_cur (st : Status) (r : HalfWord) : (s.finishQda st r).cur = s.cur := rfl
@[simp] theorem finishQda_snt (st : Status) (r : HalfWord) : (s.finishQda st r).snt = s.snt := rfl
@[simp] theorem finishQda_pb (st : Status) (r : HalfWord) : (s.finishQda st r).pb = s.pb := rfl
@[simp] theorem finishQda_cb (st : Status) (r : HalfWord) : (s.finishQda st r).cb = s.cb := rfl
@[simp] theorem finishQda_dc (st : Status) (r : HalfWord) : (s.finishQda st r).dc = s.dc := rfl
@[simp] theorem finishQda_rstN (st : Status) (r : HalfWord) : (s.finishQda st r).rstN = s.rstN := rfl
@[simp] theorem finishQda_qda (st : Status) (r : HalfWord) : (s.finishQda st r).qda = s.qda := rfl
@[simp] theorem finishQda_pins (st : Status) (r : HalfWord) : (s.finishQda st r).pins = s.pins := rfl
@[simp] theorem finishQda_prod8 (st : Status) (r : HalfWord) : (s.finishQda st r).prod8 = s.prod8 := rfl
@[simp] theorem finishQda_prod16 (st : Status) (r : HalfWord) : (s.finishQda st r).prod16 = s.prod16 := rfl
@[simp] theorem finishQda_history (st : Status) (r : HalfWord) : (s.finishQda st r).history = s.history := rfl
@[simp] theorem finishQda_panel (st : Status) (r : HalfWord) : (s.finishQda st r).panel = s.panel := rfl
@[simp] theorem finishQda_answers (st : Status) (r : HalfWord) : (s.finishQda st r).answers = s.answers := rfl
@[simp] theorem finishQda_inputs (st : Status) (r : HalfWord) : (s.finishQda st r).inputs = s.inputs := rfl
@[simp] theorem finishQda_seqMode (st : Status) (r : HalfWord) : (s.finishQda st r).seqMode = s.seqMode := rfl
@[simp] theorem finishQda_seqResults (st : Status) (r : HalfWord) : (s.finishQda st r).seqResults = s.seqResults := rfl
@[simp] theorem finishQda_qdaResults (st : Status) (r : HalfWord) : (s.finishQda st r).qdaResults = s.qdaResults ++ [⟨st, r⟩] := rfl
@[simp] theorem finishQda_hostReads (st : Status) (r : HalfWord) : (s.finishQda st r).hostReads = s.hostReads := rfl
@[simp] theorem finishQda_width (st : Status) (r : HalfWord) : (s.finishQda st r).width = s.width := rfl
@[simp] theorem finishQda_height (st : Status) (r : HalfWord) : (s.finishQda st r).height = s.height := rfl
@[simp] theorem finishQda_nextAnswer (st : Status) (r : HalfWord) : (s.finishQda st r).nextAnswer = s.nextAnswer := rfl

@[simp] theorem initStart_cfg (v : Orientation) : (initStart v s).cfg = s.cfg := rfl
@[simp] theorem initStart_pd (v : Orientation) : (initStart v s).pd = .resetting := rfl
@[simp] theorem initStart_orient (v : Orientation) : (initStart v s).orient = v := rfl
@[simp] theorem initStart_win (v : Orientation) : (initStart v s).win = s.win := rfl
@[simp] theorem initStart_cur (v : Orientation) : (initStart v s).cur = Memory.fill s.cfg.cells s.cfg.fbInit := rfl
@[simp] theorem initStart_snt (v : Orientation) : (initStart v s).snt = Memory.fill s.cfg.cells s.cfg.fbInit := rfl
@[simp] theorem initStart_pb (v : Orientation) : (initStart v s).pb = s.pb := rfl
@[simp] theorem initStart_cb (v : Orientation) : (initStart v s).cb = s.cb := rfl
@[simp] theorem initStart_dc (v : Orientation) : (initStart v s).dc = s.dc := rfl
@[simp] theorem initStart_rstN (v : Orientation) : (initStart v s).rstN = s.rstN := rfl
@[simp] theorem initStart_qda (v : Orientation) : (initStart v s).qda = s.qda := rfl
@[simp] theorem initStart_pins (v : Orientation) : (initStart v s).pins = s.pins := rfl
@[simp] theorem initStart_prod8 (v : Orientation) : (initStart v s).prod8 = s.prod8 := rfl
@[simp] theorem initStart_prod16 (v : Orientation) : (initStart v s).prod16 = s.prod16 := rfl
@[simp] theorem initStart_history (v : Orientation) : (initStart v s).history = s.history := rfl
@[simp] theorem initStart_panel (v : Orientation) : (initStart v s).panel = s.panel := rfl
@[simp] theorem initStart_answers (v : Orientation) : (initStart v s).answers = s.answers := rfl
@[simp] theorem initStart_inputs (v : Orientation) : (initStart v s).inputs = s.inputs := rfl
@[simp] theorem initStart_seqMode (v : Orientation) : (initStart v s).seqMode = s.seqMode := rfl
@[simp] theorem initStart_seqResults (v : Orientation) : (initStart v s).seqResults = s.seqResults := rfl
@[simp] theorem initStart_qdaResults (v : Orientation) : (initStart v s).qdaResults = s.qdaResults := rfl
@[simp] theorem initStart_hostReads (v : Orientation) : (initStart v s).hostReads = s.hostReads := rfl

end Sys2Proof.Machine
end

