-- ==== Sys2Proof/Laws/Ops.lean ====
section
/-! SUPPORT. What the shared operations can do: sequencing, bus events, the Transport Codec's call and the Panel
Driver's helpers. Each lemma says once what a call leaves and what it changes. -/

namespace Sys2Proof.Machine

/-! ### Sequencing -/

theorem Run.andThen_of_ok {r : Run} (h : r.2 = .ok) (k : State → Run) : r.andThen k = k r.1 := by
  simp [Run.andThen, h]

theorem Run.andThen_of_ne {r : Run} (h : r.2 ≠ .ok) (k : State → Run) : r.andThen k = r := by
  unfold Run.andThen; split <;> simp_all

/-- A reflexive and transitive relation that holds of both parts holds of the whole. -/
theorem Run.andThen_rel (R : State → State → Prop) (htrans : ∀ {a b c}, R a b → R b c → R a c) {s : State} {r : Run}
    {k : State → Run} (h : R s r.1) (hk : r.2 = .ok → R r.1 (k r.1).1) : R s (r.andThen k).1 := by
  by_cases hr : r.2 = .ok
  · rw [Run.andThen_of_ok hr]; exact htrans h (hk hr)
  · rw [Run.andThen_of_ne hr]; exact h

/-- A property both parts keep is kept by the whole. -/
theorem Run.andThen_keeps {P : State → Prop} {r : Run} {k : State → Run} (h : P r.1)
    (hk : r.2 = .ok → P r.1 → P (k r.1).1) : P (r.andThen k).1 := by
  by_cases hr : r.2 = .ok
  · rw [Run.andThen_of_ok hr]; exact hk hr h
  · rw [Run.andThen_of_ne hr]; exact h

/-- A whole that ends with `ok` has both parts end so. -/
theorem Run.andThen_ok {r : Run} {k : State → Run} (h : (r.andThen k).2 = .ok) :
    r.2 = .ok ∧ (k r.1).2 = .ok ∧ (r.andThen k).1 = (k r.1).1 := by
  by_cases hr : r.2 = .ok
  · rw [Run.andThen_of_ok hr] at h ⊢; exact ⟨hr, h, rfl⟩
  · rw [Run.andThen_of_ne hr] at h; exact absurd h hr

/-- How an operation concludes: it returns a status over what its run left, or hangs. -/
theorem conclude_next (m : SeqMode) (r : Run) :
    ∃ t, conclude m r = .next t ∧
      ((r.2 = .ok ∧ t = r.1.finishSeq .ok 0) ∨ (∃ st, r.2 = .err st ∧ t = r.1.finishSeq st 0) ∨
        (r.2 = .hung ∧ t = { r.1 with seqMode := m })) := by
  unfold conclude returnStatus
  split <;> rename_i h
  · exact ⟨_, rfl, .inl ⟨h, rfl⟩⟩
  · exact ⟨_, rfl, .inr (.inl ⟨_, h, rfl⟩)⟩
  · exact ⟨_, rfl, .inr (.inr ⟨h, rfl⟩)⟩

theorem conclude_of_ok {m : SeqMode} {r : Run} (h : r.2 = .ok) : conclude m r = .next (r.1.finishSeq .ok 0) := by
  simp [conclude, h, returnStatus]

theorem conclude_of_err {m : SeqMode} {r : Run} {st : Status} (h : r.2 = .err st) :
    conclude m r = .next (r.1.finishSeq st 0) := by
  simp [conclude, h, returnStatus]

theorem conclude_of_hung {m : SeqMode} {r : Run} (h : r.2 = .hung) :
    conclude m r = .next { r.1 with seqMode := m } := by
  simp [conclude, h]

theorem gated_of_eq {need : PdState} {s : State} (h : s.pd = need) (k : State → Outcome) : gated need k s = k s := by
  simp [gated, h]

theorem gated_of_ne {need : PdState} {s : State} (h : s.pd ≠ need) (k : State → Outcome) :
    gated need k s = .next (s.finishSeq .badState 0) := by
  simp [gated, h, returnStatus]

/-! ### Frames -/

/-- Only the bus, its bookkeeping and the producer port changed. -/
structure BusOnly (s t : State) : Prop where
  outside : KeepsOutside s t
  driver : KeepsDriver s t
  pb : t.pb = s.pb
  seqMode : t.seqMode = s.seqMode
  seqResults : t.seqResults = s.seqResults

/-- `BusOnly`, and no producer item was pulled. -/
structure BytesOnly (s t : State) : Prop where
  bus : BusOnly s t
  prod8 : t.prod8 = s.prod8
  prod16 : t.prod16 = s.prod16

theorem BusOnly.refl (s : State) : BusOnly s s := ⟨⟨rfl, rfl, rfl, rfl, rfl, rfl⟩, ⟨rfl, rfl, rfl, rfl, rfl, rfl⟩, rfl, rfl, rfl⟩

theorem BusOnly.trans {a b c : State} (h : BusOnly a b) (g : BusOnly b c) : BusOnly a c :=
  ⟨⟨g.outside.cfg.trans h.outside.cfg, g.outside.qda.trans h.outside.qda,
      g.outside.qdaResults.trans h.outside.qdaResults, g.outside.pins.trans h.outside.pins,
      g.outside.inputs.trans h.outside.inputs, g.outside.hostReads.trans h.outside.hostReads⟩,
    ⟨g.driver.pd.trans h.driver.pd, g.driver.orient.trans h.driver.orient, g.driver.win.trans h.driver.win,
      g.driver.cur.trans h.driver.cur, g.driver.snt.trans h.driver.snt, g.driver.rstN.trans h.driver.rstN⟩,
    g.pb.trans h.pb, g.seqMode.trans h.seqMode, g.seqResults.trans h.seqResults⟩

theorem BytesOnly.refl (s : State) : BytesOnly s s := ⟨BusOnly.refl s, rfl, rfl⟩

theorem BytesOnly.trans {a b c : State} (h : BytesOnly a b) (g : BytesOnly b c) : BytesOnly a c :=
  ⟨h.bus.trans g.bus, g.prod8.trans h.prod8, g.prod16.trans h.prod16⟩

theorem BusOnly.width {s t : State} (h : BusOnly s t) : t.width = s.width := by
  simp [State.width, h.outside.cfg, h.driver.orient]

theorem BusOnly.height {s t : State} (h : BusOnly s t) : t.height = s.height := by
  simp [State.height, h.outside.cfg, h.driver.orient]

theorem emitDc_frame (l : BitVec 1) (s : State) : BytesOnly s (emitDc l s).1 :=
  ⟨⟨⟨rfl, rfl, rfl, rfl, rfl, rfl⟩, ⟨rfl, rfl, rfl, rfl, rfl, rfl⟩, rfl, rfl, rfl⟩, rfl, rfl⟩

theorem emitWr_frame (bytes : List Byte) (s : State) : BytesOnly s (emitWr bytes s).1 :=
  ⟨⟨⟨rfl, rfl, rfl, rfl, rfl, rfl⟩, ⟨rfl, rfl, rfl, rfl, rfl, rfl⟩, rfl, rfl, rfl⟩, rfl, rfl⟩

theorem emitDly_frame (t : Nat) (s : State) : BytesOnly s (emitDly t s) :=
  ⟨⟨⟨rfl, rfl, rfl, rfl, rfl, rfl⟩, ⟨rfl, rfl, rfl, rfl, rfl, rfl⟩, rfl, rfl, rfl⟩, rfl, rfl⟩

theorem stage_frame (chunk : List Byte) (s : State) : BytesOnly s (stage chunk s) :=
  ⟨⟨⟨rfl, rfl, rfl, rfl, rfl, rfl⟩, ⟨rfl, rfl, rfl, rfl, rfl, rfl⟩, rfl, rfl, rfl⟩, rfl, rfl⟩

/-- Pulling bytes touches the producer port and the staging buffer only. -/
theorem fill_frame (n : Nat) (s : State) (src : Source) : BusOnly s (src.fill n s).1 := by
  cases src <;> simp only [Source.fill] <;> (try split) <;>
    exact ⟨⟨rfl, rfl, rfl, rfl, rfl, rfl⟩, ⟨rfl, rfl, rfl, rfl, rfl, rfl⟩, rfl, rfl, rfl⟩

theorem writeStream_frame (fuel left : Nat) (src : Source) (s : State) :
    BusOnly s (writeStream fuel left src s).1 := by
  induction fuel generalizing left src s with
  | zero => exact BusOnly.refl s
  | succ fuel ih =>
    unfold writeStream
    split
    · exact BusOnly.refl s
    · split
      · rename_i s1 h
        have := fill_frame (min s.cfg.chunkBytes left) s src
        rwa [h] at this
      · rename_i s1 chunk src1 h
        have h1 := fill_frame (min s.cfg.chunkBytes left) s src
        rw [h] at h1
        refine Run.andThen_rel BusOnly BusOnly.trans (h1.trans ((stage_frame chunk s1).bus.trans (emitWr_frame _ _).bus))
          fun _ => ih _ _ _

theorem writeStream_bytes_frame (fuel left : Nat) (l : List Byte) (s : State) :
    BytesOnly s (writeStream fuel left (.bytes l) s).1 := by
  induction fuel generalizing left l s with
  | zero => exact BytesOnly.refl s
  | succ fuel ih =>
    unfold writeStream
    split
    · exact BytesOnly.refl s
    · simp only [Source.fill]
      exact Run.andThen_rel BytesOnly BytesOnly.trans ((stage_frame _ s).trans (emitWr_frame _ _)) fun _ => ih _ _ _

/-- What a transport call leaves as it was (R128). -/
theorem tcSend_frame (ph : Phase) (src : Source) (total : Nat) (s : State) : BusOnly s (tcSend ph src total s).1 :=
  Run.andThen_rel BusOnly BusOnly.trans (emitDc_frame _ s).bus fun _ => writeStream_frame _ _ _ _

theorem sendBytes_frame (ph : Phase) (l : List Byte) (s : State) : BytesOnly s (sendBytes ph l s).1 :=
  Run.andThen_rel BytesOnly BytesOnly.trans (emitDc_frame _ s) fun _ => writeStream_bytes_frame _ _ _ _

theorem pdCommand_frame (op : Byte) (args : List Byte) (s : State) : BytesOnly s (pdCommand op args s).1 := by
  refine Run.andThen_rel BytesOnly BytesOnly.trans (sendBytes_frame _ _ s) fun _ => ?_
  split
  · exact BytesOnly.refl _
  · exact sendBytes_frame _ _ _

/-! ### The event history only grows -/

/-- `t`'s history is `s`'s with further events after it (R36, R72). -/
def HistoryExtends (s t : State) : Prop := ∃ es, t.history = s.history ++ es

theorem HistoryExtends.refl (s : State) : HistoryExtends s s := ⟨[], by simp⟩

theorem HistoryExtends.of_eq {s t : State} (h : t.history = s.history) : HistoryExtends s t := ⟨[], by simp [h]⟩

theorem HistoryExtends.trans {a b c : State} (h : HistoryExtends a b) (g : HistoryExtends b c) :
    HistoryExtends a c := by
  obtain ⟨x, hx⟩ := h
  obtain ⟨y, hy⟩ := g
  exact ⟨x ++ y, by simp [hy, hx]⟩

theorem fill_history (n : Nat) (s : State) (src : Source) : (src.fill n s).1.history = s.history := by
  cases src <;> simp only [Source.fill] <;> (try split) <;> rfl

theorem emitDc_extends (l : BitVec 1) (s : State) : HistoryExtends s (emitDc l s).1 := ⟨_, rfl⟩
theorem emitWr_extends (bytes : List Byte) (s : State) : HistoryExtends s (emitWr bytes s).1 := ⟨_, rfl⟩
theorem emitRst_extends (l : BitVec 1) (s : State) : HistoryExtends s (emitRst l s).1 := ⟨_, rfl⟩
theorem emitDly_extends (t : Nat) (s : State) : HistoryExtends s (emitDly t s) := ⟨_, rfl⟩

theorem writeStream_extends (fuel left : Nat) (src : Source) (s : State) :
    HistoryExtends s (writeStream fuel left src s).1 := by
  induction fuel generalizing left src s with
  | zero => exact HistoryExtends.refl s
  | succ fuel ih =>
    have hf := fill_history (min s.cfg.chunkBytes left) s src
    unfold writeStream
    split
    · exact HistoryExtends.refl s
    · split
      · rename_i s1 h
        rw [h] at hf
        exact HistoryExtends.of_eq hf
      · rename_i s1 chunk src1 h
        rw [h] at hf
        exact Run.andThen_rel HistoryExtends HistoryExtends.trans
          ((HistoryExtends.of_eq (t := stage chunk s1) hf).trans (emitWr_extends chunk _)) fun _ => ih _ _ _

theorem tcSend_extends (ph : Phase) (src : Source) (total : Nat) (s : State) :
    HistoryExtends s (tcSend ph src total s).1 :=
  Run.andThen_rel HistoryExtends HistoryExtends.trans (emitDc_extends _ s) fun _ => writeStream_extends _ _ _ _

theorem pdCommand_extends (op : Byte) (args : List Byte) (s : State) : HistoryExtends s (pdCommand op args s).1 := by
  refine Run.andThen_rel HistoryExtends HistoryExtends.trans (tcSend_extends _ _ _ s) fun _ => ?_
  split
  · exact HistoryExtends.refl _
  · exact tcSend_extends _ _ _ _

/-! ### Every event answered `ok` -/

theorem nextAnswer_of_allOk {s : State} (h : AllOk s) : s.nextAnswer = .ok := by
  unfold State.nextAnswer
  cases ha : s.answers with
  | nil => rfl
  | cons a rest => exact h a (by simp [ha])

theorem AllOk.tail {s t : State} (h : AllOk s) (ht : t.answers = s.answers.tail) : AllOk t := fun a ha =>
  h a (List.mem_of_mem_tail (ht ▸ ha))

theorem AllOk.of_eq {s t : State} (h : AllOk s) (ht : t.answers = s.answers) : AllOk t := fun a ha => h a (ht ▸ ha)

theorem chunksOf_nil (c : Nat) (hc : 0 < c) : chunksOf c [] = [] := by
  simp [chunksOf, ceilDiv, Nat.div_eq_of_lt (by omega : c - 1 < c)]

/-- Chunk framing, one chunk at a time (R99). -/
theorem chunksOf_step {c : Nat} (hc : 0 < c) {l : List Byte} (hl : l ≠ []) :
    chunksOf c l = l.take c :: chunksOf c (l.drop c) := by
  have hpos : 0 < l.length := List.length_pos_iff.2 hl
  have hceil : ceilDiv l.length c = ceilDiv (l.length - c) c + 1 := by
    unfold ceilDiv
    by_cases h : c ≤ l.length
    · have : l.length + c - 1 = (l.length - c + c - 1) + c := by omega
      rw [this, Nat.add_div_right _ hc]
    · have h1 : l.length - c = 0 := by omega
      rw [h1, Nat.zero_add, Nat.div_eq_of_lt (by omega : c - 1 < c)]
      have : l.length + c - 1 = (l.length - 1) + c := by omega
      rw [this, Nat.add_div_right _ hc, Nat.div_eq_of_lt (by omega)]
  unfold chunksOf
  rw [hceil, List.range_succ_eq_map, List.map_cons, List.map_map, List.length_drop]
  simp only [Nat.zero_mul, List.drop_zero, List.cons.injEq, true_and]
  refine List.map_congr_left fun k _ => ?_
  simp only [Function.comp, List.drop_drop, Nat.succ_mul]
  rw [Nat.add_comm]

/-- The writes of a byte sequence when every event is answered `ok`: all chunks, in order, and the panel takes the
whole sequence (R99, R125, R63). -/
theorem writeStream_bytes_ok {s : State} (hok : AllOk s) (hc : 0 < s.cfg.chunkBytes) {fuel : Nat} {l : List Byte}
    (hfuel : l.length ≤ fuel) :
    ∃ t, writeStream fuel l.length (.bytes l) s = (t, .ok) ∧
      t.history = s.history ++ (chunksOf s.cfg.chunkBytes l).map (fun chunk => .wr chunk .ok) ∧
      t.panel = Panel.takeBytes s.cfg s.width s.height s.dc l s.panel ∧ t.dc = s.dc ∧
      (∀ a, min s.cfg.chunkBytes l.length ≤ a → Memory.read t.cb a = Memory.read s.cb a) ∧
      AllOk t ∧ BytesOnly s t := by
  induction fuel generalizing l s with
  | zero =>
    have : l = [] := List.length_eq_zero_iff.1 (by omega)
    subst this
    exact ⟨s, rfl, by simp [chunksOf_nil _ hc], rfl, rfl, fun _ _ => rfl, hok, BytesOnly.refl s⟩
  | succ fuel ih =>
    by_cases hl : l = []
    · subst hl
      exact ⟨s, by simp [writeStream], by simp [chunksOf_nil _ hc], rfl, rfl, fun _ _ => rfl, hok,
        BytesOnly.refl s⟩
    · have hpos : 0 < l.length := List.length_pos_iff.2 hl
      have hna : (stage (l.take s.cfg.chunkBytes) s).nextAnswer = .ok := by
        rw [stage_nextAnswer]; exact nextAnswer_of_allOk hok
      have htake : l.take (min s.cfg.chunkBytes l.length) = l.take s.cfg.chunkBytes := by
        rw [List.take_eq_take_iff]; omega
      have hdrop : l.drop (min s.cfg.chunkBytes l.length) = l.drop s.cfg.chunkBytes := by
        by_cases h : s.cfg.chunkBytes ≤ l.length
        · rw [Nat.min_eq_left h]
        · rw [Nat.min_eq_right (by omega), List.drop_eq_nil_of_le (Nat.le_refl _),
            List.drop_eq_nil_of_le (by omega)]
      have hleft : l.length - min s.cfg.chunkBytes l.length = (l.drop s.cfg.chunkBytes).length := by
        rw [List.length_drop]; omega
      let u := (emitWr (l.take s.cfg.chunkBytes) (stage (l.take s.cfg.chunkBytes) s)).1
      have hu : AllOk u := AllOk.tail (AllOk.of_eq hok (stage_answers s _)) rfl
      obtain ⟨t, h1, h2, h3, h4, hcb, h5, h6⟩ :=
        ih (s := u) hu (hc : 0 < u.cfg.chunkBytes) (l := l.drop s.cfg.chunkBytes) (by rw [List.length_drop]; omega)
      have hrun : writeStream (fuel + 1) l.length (.bytes l) s = (t, .ok) := by
        unfold writeStream
        rw [if_neg (by omega)]
        simp only [Source.fill, htake, hdrop, hleft]
        rw [Run.andThen_of_ok (by rw [emitWr_reply, hna]; rfl)]
        exact h1
      refine ⟨t, hrun, ?_, ?_, ?_, ?_, h5, ((stage_frame _ s).trans (emitWr_frame _ _)).trans h6⟩
      · rw [h2, chunksOf_step hc hl]
        simp [u, nextAnswer_of_allOk hok]
      · rw [h3]
        simp only [u, emitWr_cfg, emitWr_width, emitWr_height, emitWr_dc, emitWr_panel, stage_cfg, stage_width,
          stage_height, stage_dc, stage_panel, stage_nextAnswer, nextAnswer_of_allOk hok, Answer.delivered]
        unfold Panel.takeBytes
        rw [← List.foldl_append, List.take_append_drop]
      · rw [h4]; rfl
      · intro a ha
        rw [hcb a (by rw [List.length_drop]; simp only [u, emitWr_cfg, stage_cfg]; omega)]
        simp only [u, emitWr_cb, stage_cb, Memory.read_writeFrom, List.length_take]
        rw [if_neg (by omega)]

/-- A transport call over a byte sequence when every event is answered `ok` (R120, R123, R125). -/
theorem sendBytes_ok {s : State} (hok : AllOk s) (hc : 0 < s.cfg.chunkBytes) (ph : Phase) (l : List Byte) :
    ∃ t, sendBytes ph l s = (t, .ok) ∧ t.history = s.history ++ sentEvents s.cfg ph l ∧
      t.panel = panelAfter s ph l ∧ t.dc = s.cfg.level ph ∧
      (∀ a, min s.cfg.chunkBytes l.length ≤ a → Memory.read t.cb a = Memory.read s.cb a) ∧
      AllOk t ∧ BytesOnly s t := by
  let u := (emitDc (s.cfg.level ph) s).1
  obtain ⟨t, h1, h2, h3, h4, hcb, h5, h6⟩ :=
    writeStream_bytes_ok (s := u) (AllOk.tail hok rfl) (hc : 0 < u.cfg.chunkBytes) (Nat.le_refl l.length)
  refine ⟨t, ?_, ?_, ?_, ?_, hcb, h5, (emitDc_frame _ s).trans h6⟩
  · unfold sendBytes tcSend
    rw [Run.andThen_of_ok (by rw [emitDc_reply, nextAnswer_of_allOk hok]; rfl)]
    exact h1
  · rw [h2]; simp [u, sentEvents, nextAnswer_of_allOk hok]
  · rw [h3]; simp [u, panelAfter, nextAnswer_of_allOk hok, Answer.settle]
  · rw [h4]; simp [u, nextAnswer_of_allOk hok, Answer.settle]

theorem takeBytes_append (c : Config) (w h : HalfWord) (level : BitVec 1) (a b : List Byte) (p : Panel) :
    Panel.takeBytes c w h level (a ++ b) p = Panel.takeBytes c w h level b (Panel.takeBytes c w h level a p) := by
  simp [Panel.takeBytes]

/-- A wire transaction when every event is answered `ok` (R97, R160). -/
theorem pdCommand_ok {s : State} (hok : AllOk s) (hc : 0 < s.cfg.chunkBytes) (op : Byte) (args : List Byte) :
    ∃ t, pdCommand op args s = (t, .ok) ∧ t.history = s.history ++ transactionEvents s.cfg op args ∧
      t.panel = takeTransaction s op args s.panel ∧
      t.dc = (if args = [] then s.cfg.dcCmd else s.cfg.dcData) ∧
      (∀ a, min s.cfg.chunkBytes (max 1 args.length) ≤ a → Memory.read t.cb a = Memory.read s.cb a) ∧
      AllOk t ∧ BytesOnly s t := by
  obtain ⟨u, h1, h2, h3, h4, hcb, h5, h6⟩ := sendBytes_ok hok hc .command [op]
  have hcfg := h6.bus.outside.cfg
  simp only [List.length_singleton] at hcb
  by_cases ha : args = []
  · refine ⟨u, ?_, ?_, ?_, ?_, fun a h => hcb a (by omega), h5, h6⟩
    · unfold pdCommand; rw [h1, Run.andThen_of_ok rfl]; simp [ha]
    · simp [h2, transactionEvents, ha]
    · simp [h3, takeTransaction, panelAfter, ha, Config.level, Panel.takeBytes]
    · simp [h4, ha, Config.level]
  · obtain ⟨t, g1, g2, g3, g4, gcb, g5, g6⟩ := sendBytes_ok h5 (by rw [hcfg]; exact hc) .data args
    refine ⟨t, ?_, ?_, ?_, ?_, fun a h => ?_, g5, h6.trans g6⟩
    · unfold pdCommand; rw [h1, Run.andThen_of_ok rfl]; simp [ha, g1]
    · simp [g2, h2, transactionEvents, ha, hcfg]
    · rw [g3]
      simp [panelAfter, takeTransaction, h3, hcfg, h6.bus.width, h6.bus.height, Config.level]
    · simp [g4, ha, hcfg, Config.level]
    · rw [gcb a (by rw [hcfg]; omega), hcb a (by omega)]

end Sys2Proof.Machine
end

