-- ==== Sys2Proof/Laws/Stream.lean ====
section
/-! SUPPORT. The chunked writes of a frame for every kind of source at once (40_transport_codec.md R120, R124 to R127):
when every chunk is answered `ok`, when one is not, and when the producer stops early. -/

namespace Sys2Proof

@[simp] theorem serAll_nil (o : ByteOrder) : serAll o [] = [] := rfl

@[simp] theorem ser16_length (v : HalfWord) (o : ByteOrder) : (ser16 v o).length = 2 := by cases o <;> rfl

theorem serAll_cons (o : ByteOrder) (v : HalfWord) (vs : List HalfWord) :
    serAll o (v :: vs) = ser16 v o ++ serAll o vs := rfl

@[simp] theorem serAll_length (o : ByteOrder) (vs : List HalfWord) : (serAll o vs).length = 2 * vs.length := by
  induction vs with
  | nil => rfl
  | cons v vs ih => rw [serAll_cons, List.length_append, ser16_length, ih, List.length_cons]; omega

theorem serAll_append (o : ByteOrder) (a b : List HalfWord) : serAll o (a ++ b) = serAll o a ++ serAll o b := by
  simp [serAll]

theorem serAll_take (o : ByteOrder) (vs : List HalfWord) (k : Nat) :
    serAll o (vs.take k) = (serAll o vs).take (2 * k) := by
  by_cases h : k ≤ vs.length
  · have := serAll_append o (vs.take k) (vs.drop k)
    rw [List.take_append_drop] at this
    rw [this, List.take_left' (by simp [h])]
  · rw [List.take_of_length_le (by omega), List.take_of_length_le (by simp; omega)]

theorem serAll_drop (o : ByteOrder) (vs : List HalfWord) (k : Nat) :
    serAll o (vs.drop k) = (serAll o vs).drop (2 * k) := by
  by_cases h : k ≤ vs.length
  · have := serAll_append o (vs.take k) (vs.drop k)
    rw [List.take_append_drop] at this
    rw [this, List.drop_left' (by simp [h])]
  · rw [List.drop_eq_nil_of_le (by omega), List.drop_eq_nil_of_le (by simp; omega)]; rfl

/-- Swapping the pairs of a serialised list is serialising it in the other order (R122). -/
theorem swapPairs_serAll (o : ByteOrder) (vs : List HalfWord) :
    swapPairs (serAll o vs) = serAll (match o with | .le => .be | .be => .le) vs := by
  induction vs with
  | nil => rfl
  | cons v vs ih => cases o <;> simp [serAll_cons, ser16, swapPairs, ih]

theorem swapPairs_length : ∀ l : List Byte, (swapPairs l).length = l.length
  | [] => rfl
  | [_] => rfl
  | a :: b :: rest => by simp [swapPairs, swapPairs_length rest]

theorem hi_append_lo (v : HalfWord) : hi v ++ lo v = v := by
  apply BitVec.eq_of_getLsbD_eq
  intro i _
  simp only [hi, lo, BitVec.getLsbD_append, BitVec.getLsbD_extractLsb']
  by_cases h : i < 8
  · simp [h]
  · simp [h, show i - 8 < 8 by omega, show 8 + (i - 8) = i by omega]

/-- The two bytes of `ser16` are read as the word itself in the same order, and with its bytes exchanged in the other
(R14, R64, R68). -/
theorem word16_ser16 (v : HalfWord) (o p : ByteOrder) :
    ∃ a b, ser16 v p = [a, b] ∧ word16 o a b = if o = p then v else bswap16 v := by
  cases o <;> cases p <;> refine ⟨_, _, rfl, ?_⟩ <;> simp [word16, bswap16, hi_append_lo]

/-- The word of two bytes is serialised as these two bytes (R14, R64). -/
theorem ser16_word16 (o : ByteOrder) (a b : Byte) : ser16 (word16 o a b) o = [a, b] := by
  have h1 : ∀ x y : Byte, hi (x ++ y) = x := fun x y => by
    apply BitVec.eq_of_getLsbD_eq
    intro i h
    simp only [hi, BitVec.getLsbD_extractLsb', h, decide_true, Bool.true_and]
    rw [BitVec.getLsbD_append, if_neg (by omega), Nat.add_sub_cancel_left]
  have h2 : ∀ x y : Byte, lo (x ++ y) = y := fun x y => by
    apply BitVec.eq_of_getLsbD_eq
    intro i h
    simp only [lo, BitVec.getLsbD_extractLsb', h, decide_true, Bool.true_and, Nat.zero_add]
    rw [BitVec.getLsbD_append, if_pos h]
  cases o <;> simp [ser16, word16, h1, h2]

end Sys2Proof

namespace Sys2Proof.Machine

/-! ### The native word view -/

/-- A memory that holds the serialised word at `2i` shows it, or its bytes exchanged, at word `i` (R64, R68). -/
theorem Memory.word_of_readFrom {m : Memory Byte} {i : Nat} {v : HalfWord} {p : ByteOrder} (o : ByteOrder)
    (h : Memory.readFrom m (2 * i) 2 = some (ser16 v p)) :
    Memory.word o m i = some (if o = p then v else bswap16 v) := by
  obtain ⟨a, b, h1, h2⟩ := word16_ser16 v o p
  rw [h1] at h
  have e0 := Memory.read_of_readFrom h (k := 0) (by omega)
  have e1 := Memory.read_of_readFrom h (k := 1) (by omega)
  simp only [Nat.add_zero, List.getElem?_cons_zero, List.getElem?_cons_succ] at e0 e1
  simp [Memory.word, e0, e1, h2]

/-- A word the view shows lies there serialised in that order. -/
theorem Memory.readFrom_of_word {o : ByteOrder} {m : Memory Byte} {i : Nat} {v : HalfWord}
    (h : Memory.word o m i = some v) : Memory.readFrom m (2 * i) 2 = some (ser16 v o) := by
  unfold Memory.word at h
  split at h
  · rename_i a b ha hb
    cases h
    rw [ser16_word16]
    exact Memory.readFrom_eq m (2 * i) [a, b] fun k hk => by
      rcases (show k = 0 ∨ k = 1 by simp only [List.length_cons, List.length_nil] at hk; omega) with rfl | rfl
      · simpa using ha
      · simpa using hb
  · cases h

/-- The words of the view are the bytes under them, read in that order (R64). -/
theorem Memory.readFrom_of_words {o : ByteOrder} {m : Memory Byte} {i n : Nat} {vs : List HalfWord}
    (h : Memory.words o m i n = some vs) : Memory.readFrom m (2 * i) (2 * n) = some (serAll o vs) := by
  induction n generalizing i vs with
  | zero => simp only [Memory.words, Option.some.injEq] at h; subst h; rfl
  | succ n ih =>
    simp only [Memory.words] at h
    split at h
    · rename_i v ws h1 h2
      cases h
      rw [show 2 * (n + 1) = 2 + 2 * n by omega, Memory.readFrom_add, Memory.readFrom_of_word h1,
        show 2 * i + 2 = 2 * (i + 1) by omega, ih h2]
      rfl
    · cases h

theorem Memory.words_of_readFrom {o : ByteOrder} {m : Memory Byte} {i n : Nat} {vs : List HalfWord}
    (hn : vs.length = n) (h : Memory.readFrom m (2 * i) (2 * n) = some (serAll o vs)) :
    Memory.words o m i n = some vs := by
  induction n generalizing i vs with
  | zero => rw [List.eq_nil_of_length_eq_zero hn]; rfl
  | succ n ih =>
    obtain ⟨v, ws, rfl⟩ : ∃ v ws, vs = v :: ws := by
      cases vs with
      | nil => simp at hn
      | cons v ws => exact ⟨v, ws, rfl⟩
    rw [show 2 * (n + 1) = 2 + 2 * n by omega, Memory.readFrom_add] at h
    split at h
    · rename_i a b h1 h2
      simp only [Option.some.injEq, serAll_cons] at h
      have hl : a.length = (ser16 v o).length := by rw [Memory.readFrom_length h1, ser16_length]
      obtain ⟨rfl, rfl⟩ := List.append_inj h hl
      have hw := Memory.word_of_readFrom o h1
      rw [if_pos rfl] at hw
      simp [Memory.words, hw, ih (by simpa using hn) (show Memory.readFrom m (2 * (i + 1)) (2 * n) = _ by
        rw [show 2 * (i + 1) = 2 * i + 2 by omega]; exact h2)]
    · cases h

/-- One of the words. -/
theorem Memory.word_of_words {o : ByteOrder} {m : Memory Byte} {i n : Nat} {vs : List HalfWord}
    (h : Memory.words o m i n = some vs) {k : Nat} (hk : k < n) : Memory.word o m (i + k) = vs[k]? := by
  induction n generalizing i k vs with
  | zero => omega
  | succ n ih =>
    simp only [Memory.words] at h
    split at h
    · rename_i v ws h1 h2
      cases h
      cases k with
      | zero => simp [h1]
      | succ k => rw [show i + (k + 1) = i + 1 + k by omega, ih h2 (by omega)]; simp
    · cases h

/-- The bytes a source has to give in a state. -/
def Source.upcoming (s : State) : Source → List Byte
  | .bytes l => l
  | .port8 => s.prod8
  | .port16 o => serAll o s.prod16

/-- The source once `m` bytes of it are used up. -/
def Source.after (m : Nat) : Source → Source
  | .bytes l => .bytes (l.drop m)
  | .port8 => .port8
  | .port16 o => .port16 o

/-- The state once the items of `m` bytes are pulled from the producer port. -/
def Source.pull (m : Nat) (s : State) : Source → State
  | .bytes _ => s
  | .port8 => { s with prod8 := s.prod8.drop m }
  | .port16 _ => { s with prod16 := s.prod16.drop (m / 2) }

/-- The number of bytes is a whole number of items. -/
def Source.Whole (m : Nat) : Source → Prop
  | .bytes _ => True
  | .port8 => True
  | .port16 _ => m % 2 = 0

theorem Source.fill_of_le {m : Nat} {s : State} {src : Source} (h : m ≤ (src.upcoming s).length)
    (hw : src.Whole m) : src.fill m s = (src.pull m s, some ((src.upcoming s).take m, src.after m)) := by
  cases src with
  | bytes l => rfl
  | port8 => simp only [Source.upcoming] at h; simp [Source.fill, h, Source.pull, Source.upcoming, Source.after]
  | port16 o =>
    simp only [Source.upcoming, serAll_length] at h
    simp only [Source.Whole] at hw
    have h2 : m / 2 ≤ s.prod16.length := by omega
    simp only [Source.fill, h2, if_true, Source.pull, Source.upcoming, Source.after, serAll_take]
    rw [show 2 * (m / 2) = m by omega]

theorem Source.upcoming_pull {m : Nat} {s : State} {src : Source} (hw : src.Whole m) :
    (src.after m).upcoming (src.pull m s) = (src.upcoming s).drop m := by
  cases src with
  | bytes l => rfl
  | port8 => rfl
  | port16 o =>
    simp only [Source.Whole] at hw
    simp only [Source.upcoming, Source.pull, Source.after, serAll_drop]
    rw [show 2 * (m / 2) = m by omega]

theorem Source.whole_after {m n : Nat} {src : Source} : (src.after m).Whole n ↔ src.Whole n := by cases src <;> rfl

theorem Source.whole_sub {m n : Nat} {src : Source} (h : src.Whole m) (g : src.Whole n) : src.Whole (m - n) := by
  cases src <;> (simp only [Source.Whole] at *; try omega)

theorem Source.whole_min {c m : Nat} {src : Source} (h : src.Whole m) (g : c % 2 = 0) : src.Whole (min c m) := by
  cases src <;> (simp only [Source.Whole] at *; try omega)

/-- Pulling touches the producer port only. -/
theorem Source.pull_frame (m : Nat) (s : State) (src : Source) : BusOnly s (src.pull m s) := by
  cases src <;> exact ⟨⟨rfl, rfl, rfl, rfl, rfl, rfl⟩, ⟨rfl, rfl, rfl, rfl, rfl, rfl⟩, rfl, rfl, rfl⟩

@[simp] theorem Source.pull_answers (m : Nat) (s : State) (src : Source) : (src.pull m s).answers = s.answers := by
  cases src <;> rfl
@[simp] theorem Source.pull_nextAnswer (m : Nat) (s : State) (src : Source) :
    (src.pull m s).nextAnswer = s.nextAnswer := by cases src <;> rfl
@[simp] theorem Source.pull_history (m : Nat) (s : State) (src : Source) : (src.pull m s).history = s.history := by
  cases src <;> rfl
@[simp] theorem Source.pull_panel (m : Nat) (s : State) (src : Source) : (src.pull m s).panel = s.panel := by
  cases src <;> rfl
@[simp] theorem Source.pull_cb (m : Nat) (s : State) (src : Source) : (src.pull m s).cb = s.cb := by cases src <;> rfl
@[simp] theorem Source.pull_dc (m : Nat) (s : State) (src : Source) : (src.pull m s).dc = s.dc := by cases src <;> rfl
@[simp] theorem Source.pull_cfg (m : Nat) (s : State) (src : Source) : (src.pull m s).cfg = s.cfg := by cases src <;> rfl
@[simp] theorem Source.pull_width (m : Nat) (s : State) (src : Source) : (src.pull m s).width = s.width := by
  cases src <;> rfl
@[simp] theorem Source.pull_height (m : Nat) (s : State) (src : Source) : (src.pull m s).height = s.height := by
  cases src <;> rfl

/-- The state after one chunk of `m` bytes was pulled, staged and written. -/
def chunkWritten (m : Nat) (src : Source) (s : State) : State :=
  (emitWr ((src.upcoming s).take m) (stage ((src.upcoming s).take m) (src.pull m s))).1

theorem chunkWritten_frame (m : Nat) (src : Source) (s : State) : BusOnly s (chunkWritten m src s) :=
  (src.pull_frame m s).trans ((stage_frame _ _).bus.trans (emitWr_frame _ _).bus)

theorem chunkWritten_upcoming {m : Nat} {src : Source} {s : State} (hw : src.Whole m) :
    (src.after m).upcoming (chunkWritten m src s) = (src.upcoming s).drop m := by
  rw [← Source.upcoming_pull hw]; cases src <;> rfl

/-- What pulling in two parts gives is what pulling at once gives. -/
theorem chunkWritten_pull {m n : Nat} {src : Source} (hm : src.Whole m) (hn : src.Whole n) (s : State) :
    ((src.after m).pull n (chunkWritten m src s)).prod8 = (src.pull (m + n) s).prod8 ∧
      ((src.after m).pull n (chunkWritten m src s)).prod16 = (src.pull (m + n) s).prod16 := by
  cases src with
  | bytes l => exact ⟨rfl, rfl⟩
  | port8 =>
    refine ⟨?_, rfl⟩
    simp only [Source.pull, Source.after, chunkWritten, emitWr_prod8, stage_prod8, List.drop_drop]
  | port16 o =>
    refine ⟨rfl, ?_⟩
    simp only [Source.Whole] at hm hn
    simp only [Source.pull, Source.after, chunkWritten, emitWr_prod16, stage_prod16, List.drop_drop]
    rw [show m / 2 + n / 2 = (m + n) / 2 by omega]

/-- One chunk of a frame (R125): it is pulled, staged and written, and after `ok` the rest follows. -/
theorem writeStream_step {fuel left : Nat} {src : Source} {s : State} (hl : left ≠ 0)
    (ha : min s.cfg.chunkBytes left ≤ (src.upcoming s).length) (hw : src.Whole (min s.cfg.chunkBytes left)) :
    writeStream (fuel + 1) left src s =
      Run.andThen (chunkWritten (min s.cfg.chunkBytes left) src s, s.nextAnswer.reply .busWriteError)
        (writeStream fuel (left - min s.cfg.chunkBytes left) (src.after (min s.cfg.chunkBytes left))) := by
  conv => lhs; unfold writeStream
  rw [if_neg hl]
  simp only [Source.fill_of_le ha hw]
  congr 1
  ext
  · rfl
  · simp

/-- Every chunk is answered `ok`: all chunks go out, in order; the panel takes all their bytes; just the items of these
bytes are pulled (R99, R125, R127, R63). -/
theorem writeStream_ok {s : State} (hok : AllOk s) (hc : 0 < s.cfg.chunkBytes) (he : s.cfg.chunkBytes % 2 = 0)
    {fuel left : Nat} {src : Source} (hf : left ≤ fuel) (ha : left ≤ (src.upcoming s).length) (hw : src.Whole left) :
    ∃ t, writeStream fuel left src s = (t, .ok) ∧
      t.history =
        s.history ++ (chunksOf s.cfg.chunkBytes ((src.upcoming s).take left)).map (fun chunk => .wr chunk .ok) ∧
      t.panel = Panel.takeBytes s.cfg s.width s.height s.dc ((src.upcoming s).take left) s.panel ∧ t.dc = s.dc ∧
      (∀ a, min s.cfg.chunkBytes left ≤ a → Memory.read t.cb a = Memory.read s.cb a) ∧
      t.prod8 = (src.pull left s).prod8 ∧ t.prod16 = (src.pull left s).prod16 ∧
      AllOk t ∧ BusOnly s t := by
  induction fuel generalizing left src s with
  | zero =>
    obtain rfl : left = 0 := by omega
    exact ⟨s, rfl, by simp [chunksOf_nil _ hc], rfl, rfl, fun _ _ => rfl, by cases src <;> simp [Source.pull],
      by cases src <;> simp [Source.pull], hok, BusOnly.refl s⟩
  | succ fuel ih =>
    by_cases hl : left = 0
    · subst hl
      exact ⟨s, by simp [writeStream], by simp [chunksOf_nil _ hc], rfl, rfl, fun _ _ => rfl,
        by cases src <;> simp [Source.pull], by cases src <;> simp [Source.pull], hok, BusOnly.refl s⟩
    · have hm : src.Whole (min s.cfg.chunkBytes left) := Source.whole_min hw he
      have hframe := chunkWritten_frame (min s.cfg.chunkBytes left) src s
      have hna := nextAnswer_of_allOk hok
      have hcfg := hframe.outside.cfg
      have hup := chunkWritten_upcoming (s := s) hm
      obtain ⟨t, h1, h2, h3, h4, hcb, h8, h16, h5, h6⟩ :=
        ih (s := chunkWritten (min s.cfg.chunkBytes left) src s) (left := left - min s.cfg.chunkBytes left)
          (src := src.after (min s.cfg.chunkBytes left))
          (AllOk.tail hok (by simp [chunkWritten])) (by rw [hcfg]; exact hc) (by rw [hcfg]; exact he) (by omega)
          (by rw [hup, List.length_drop]; omega) (Source.whole_after.2 (Source.whole_sub hw hm))
      have hpull := chunkWritten_pull hm (Source.whole_sub hw hm) s
      rw [show min s.cfg.chunkBytes left + (left - min s.cfg.chunkBytes left) = left by omega] at hpull
      rw [hup] at h2 h3
      refine ⟨t, ?_, ?_, ?_, ?_, ?_, h8.trans hpull.1, h16.trans hpull.2, h5, hframe.trans h6⟩
      · rw [writeStream_step hl (by omega) hm, hna, Run.andThen_of_ok rfl]; exact h1
      · rw [h2, hcfg]
        have hne : (src.upcoming s).take left ≠ [] := fun h => by
          have := congrArg List.length h
          simp only [List.length_take, List.length_nil] at this; omega
        rw [chunksOf_step hc hne, List.take_take, List.drop_take]
        have : (src.upcoming s).drop s.cfg.chunkBytes = (src.upcoming s).drop (min s.cfg.chunkBytes left) ∨
            left ≤ s.cfg.chunkBytes := by
          by_cases h : s.cfg.chunkBytes ≤ left
          · left; rw [Nat.min_eq_left h]
          · right; omega
        rcases this with h | h
        · by_cases h2 : s.cfg.chunkBytes ≤ left
          · simp [chunkWritten, hna, Nat.min_eq_left h2]
          · have h3 : min s.cfg.chunkBytes left = left := by omega
            have h4 : left - s.cfg.chunkBytes = 0 := by omega
            simp [chunkWritten, hna, h3, h4]
        · have h3 : min s.cfg.chunkBytes left = left := by omega
          have h4 : left - s.cfg.chunkBytes = 0 := by omega
          simp [chunkWritten, hna, h3, h4]
      · rw [h3]
        simp only [chunkWritten, emitWr_cfg, emitWr_width, emitWr_height, emitWr_dc, emitWr_panel, stage_cfg,
          stage_width, stage_height, stage_dc, stage_panel, stage_nextAnswer, hna, Answer.delivered,
          Source.pull_cfg, Source.pull_width, Source.pull_height, Source.pull_dc, Source.pull_panel,
          Source.pull_nextAnswer]
        unfold Panel.takeBytes
        rw [← List.foldl_append]
        congr 1
        rw [← List.drop_take, show (src.upcoming s).take (min s.cfg.chunkBytes left) =
          ((src.upcoming s).take left).take (min s.cfg.chunkBytes left) by
            rw [List.take_take]; congr 1; omega, List.take_append_drop]
      · rw [h4]; simp [chunkWritten]
      · intro a h
        rw [hcb a (by rw [hcfg]; omega)]
        simp only [chunkWritten, emitWr_cb, stage_cb, Source.pull_cb, Memory.read_writeFrom, List.length_take]
        rw [if_neg (by omega)]

/-- A transport call when every event is answered `ok` (R120, R123, R125, R127). -/
theorem tcSend_ok {s : State} (hok : AllOk s) (hc : 0 < s.cfg.chunkBytes) (he : s.cfg.chunkBytes % 2 = 0) (ph : Phase)
    {total : Nat} {src : Source} (ha : total ≤ (src.upcoming s).length) (hw : src.Whole total) :
    ∃ t, tcSend ph src total s = (t, .ok) ∧
      t.history = s.history ++ sentEvents s.cfg ph ((src.upcoming s).take total) ∧
      t.panel = panelAfter s ph ((src.upcoming s).take total) ∧ t.dc = s.cfg.level ph ∧
      (∀ a, min s.cfg.chunkBytes total ≤ a → Memory.read t.cb a = Memory.read s.cb a) ∧
      t.prod8 = (src.pull total s).prod8 ∧ t.prod16 = (src.pull total s).prod16 ∧
      AllOk t ∧ BusOnly s t := by
  have hup : src.upcoming (emitDc (s.cfg.level ph) s).1 = src.upcoming s := by cases src <;> rfl
  obtain ⟨t, h1, h2, h3, h4, hcb, h8, h16, h5, h6⟩ :=
    writeStream_ok (s := (emitDc (s.cfg.level ph) s).1) (src := src) (AllOk.tail hok rfl) hc he (Nat.le_refl total)
      (by rw [hup]; exact ha) hw
  rw [hup] at h2 h3
  refine ⟨t, ?_, ?_, ?_, ?_, hcb, ?_, ?_, h5, (emitDc_frame _ s).bus.trans h6⟩
  · unfold tcSend
    rw [Run.andThen_of_ok (by rw [emitDc_reply, nextAnswer_of_allOk hok]; rfl)]
    exact h1
  · rw [h2]; simp [sentEvents, nextAnswer_of_allOk hok]
  · rw [h3]; simp [panelAfter, nextAnswer_of_allOk hok, Answer.settle]
  · rw [h4]; simp [nextAnswer_of_allOk hok, Answer.settle]
  · rw [h8]; cases src <;> rfl
  · rw [h16]; cases src <;> rfl

/-- The answer after `k` chunks answered `ok` is another one: the writes end with that chunk, whose items are pulled
already; the panel took the chunks before it and what of it was delivered (R63, R126, R127). -/
theorem writeStream_stops {s : State} {a : Answer} {rest : List Answer} (ha : a ≠ .ok) {k : Nat}
    (hans : s.answers = List.replicate k .ok ++ a :: rest)
    (hc : 0 < s.cfg.chunkBytes) (he : s.cfg.chunkBytes % 2 = 0) {fuel left : Nat} {src : Source} (hf : left ≤ fuel)
    {stream : List Byte} (hs : (src.upcoming s).take left = stream)
    (hup : left ≤ (src.upcoming s).length) (hw : src.Whole left) (hk : k < ceilDiv left s.cfg.chunkBytes) :
    ∃ t, writeStream fuel left src s = (t, a.reply .busWriteError) ∧
      t.history = s.history ++
        (((chunksOf s.cfg.chunkBytes stream).take k).map (fun chunk => .wr chunk .ok) ++
          [.wr ((stream.drop (k * s.cfg.chunkBytes)).take s.cfg.chunkBytes) a]) ∧
      t.panel = Panel.takeBytes s.cfg s.width s.height s.dc
        (stream.take (k * s.cfg.chunkBytes) ++
          a.delivered ((stream.drop (k * s.cfg.chunkBytes)).take s.cfg.chunkBytes)) s.panel ∧
      t.dc = s.dc ∧
      t.prod8 = (src.pull (min left ((k + 1) * s.cfg.chunkBytes)) s).prod8 ∧
      t.prod16 = (src.pull (min left ((k + 1) * s.cfg.chunkBytes)) s).prod16 ∧
      t.answers = rest ∧ BusOnly s t := by
  have hpos : 0 < left := by
    rcases Nat.eq_zero_or_pos left with h | h
    · subst h; simp [ceilDiv, Nat.div_eq_of_lt (by omega : s.cfg.chunkBytes - 1 < s.cfg.chunkBytes)] at hk
    · exact h
  have hne : stream ≠ [] := fun h => by
    have := congrArg List.length (hs.trans h)
    simp only [List.length_take, List.length_nil] at this; omega
  induction k generalizing fuel left src s stream with
  | zero =>
    obtain ⟨fuel, rfl⟩ : ∃ f, fuel = f + 1 := ⟨fuel - 1, by omega⟩
    have hna : s.nextAnswer = a := by simp [State.nextAnswer, hans]
    have hm : src.Whole (min s.cfg.chunkBytes left) := Source.whole_min hw he
    have hchunk : (src.upcoming s).take (min s.cfg.chunkBytes left) = stream.take s.cfg.chunkBytes := by
      rw [← hs, List.take_take]
    refine ⟨chunkWritten (min s.cfg.chunkBytes left) src s, ?_, ?_, ?_, ?_, ?_, ?_, ?_, chunkWritten_frame _ _ _⟩
    · rw [writeStream_step (by omega) (by omega) hm, hna, Run.andThen_of_ne]
      cases a <;> simp_all [Answer.reply]
    · simp [chunkWritten, hna, hchunk]
    · simp [chunkWritten, hna, hchunk]
    · simp [chunkWritten]
    · rw [Nat.zero_add, Nat.one_mul, Nat.min_comm]; cases src <;> rfl
    · rw [Nat.zero_add, Nat.one_mul, Nat.min_comm]; cases src <;> rfl
    · simp [chunkWritten, hans]
  | succ k ih =>
    have hl : s.cfg.chunkBytes < left := by
      by_contra h
      have : ceilDiv left s.cfg.chunkBytes ≤ 1 := by
        unfold ceilDiv
        exact Nat.lt_succ_iff.1 ((Nat.div_lt_iff_lt_mul hc).2 (by omega))
      omega
    obtain ⟨fuel, rfl⟩ : ∃ f, fuel = f + 1 := ⟨fuel - 1, by omega⟩
    have hmin : min s.cfg.chunkBytes left = s.cfg.chunkBytes := by omega
    have hm : src.Whole s.cfg.chunkBytes := hmin ▸ Source.whole_min hw he
    have hna : s.nextAnswer = .ok := by simp [State.nextAnswer, hans, List.replicate_succ]
    have hframe := chunkWritten_frame s.cfg.chunkBytes src s
    have hcfg := hframe.outside.cfg
    have hupw := chunkWritten_upcoming (s := s) hm
    have hceil : ceilDiv left s.cfg.chunkBytes = ceilDiv (left - s.cfg.chunkBytes) s.cfg.chunkBytes + 1 := by
      unfold ceilDiv
      rw [← Nat.add_div_right _ hc]; congr 1; omega
    have hs' : ((src.after s.cfg.chunkBytes).upcoming (chunkWritten s.cfg.chunkBytes src s)).take
        (left - s.cfg.chunkBytes) = stream.drop s.cfg.chunkBytes := by
      rw [hupw, ← hs, List.drop_take]
    have hslen : stream.length = left := by rw [← hs, List.length_take]; omega
    obtain ⟨t, h1, h2, hp, hd, h8, h16, h3, h4⟩ :=
      ih (s := chunkWritten s.cfg.chunkBytes src s) (fuel := fuel) (left := left - s.cfg.chunkBytes)
        (src := src.after s.cfg.chunkBytes)
        (by simp [chunkWritten, hans, List.replicate_succ]) (by rw [hcfg]; exact hc) (by rw [hcfg]; exact he)
        (by omega) hs' (by rw [hupw, List.length_drop]; omega) (Source.whole_after.2 (Source.whole_sub hw hm))
        (by rw [hcfg]; omega) (by omega)
        (fun h => by have := congrArg List.length h; simp only [List.length_drop, List.length_nil] at this; omega)
    rw [hcfg] at h8 h16 h2 hp
    have hq : min left ((k + 1 + 1) * s.cfg.chunkBytes) =
        s.cfg.chunkBytes + min (left - s.cfg.chunkBytes) ((k + 1) * s.cfg.chunkBytes) := by
      rw [Nat.succ_mul (k + 1)]; omega
    have hqw : src.Whole (min (left - s.cfg.chunkBytes) ((k + 1) * s.cfg.chunkBytes)) := by
      rw [Nat.min_comm]
      exact Source.whole_min (Source.whole_sub hw hm) (by rw [Nat.mul_mod, he]; simp)
    have hpull := chunkWritten_pull hm hqw s
    rw [← hq] at hpull
    have hchunk : (src.upcoming s).take s.cfg.chunkBytes = stream.take s.cfg.chunkBytes := by
      rw [← hs, List.take_take, hmin]
    have hdrop : s.cfg.chunkBytes + k * s.cfg.chunkBytes = (k + 1) * s.cfg.chunkBytes := by
      rw [Nat.succ_mul]; omega
    rw [List.drop_drop, hdrop] at h2 hp
    refine ⟨t, ?_, ?_, ?_, ?_, h8.trans hpull.1, h16.trans hpull.2, h3, hframe.trans h4⟩
    · rw [writeStream_step (by omega) (by omega) (by rw [hmin]; exact hm), hmin, hna, Run.andThen_of_ok rfl]
      exact h1
    · rw [h2, chunksOf_step hc hne]
      simp [chunkWritten, hna, hchunk]
    · rw [hp, hframe.width, hframe.height]
      have : (chunkWritten s.cfg.chunkBytes src s).panel =
          Panel.takeBytes s.cfg s.width s.height s.dc (stream.take s.cfg.chunkBytes) s.panel := by
        simp [chunkWritten, hna, Answer.delivered, hchunk]
      rw [this, show (chunkWritten s.cfg.chunkBytes src s).dc = s.dc by simp [chunkWritten]]
      unfold Panel.takeBytes
      rw [← List.foldl_append, ← List.append_assoc, ← hdrop, List.take_add]
    · rw [hd]; simp [chunkWritten]

/-- The whole chunks of a stream that has one. -/
theorem wholeChunks_step {c : Nat} (hc : 0 < c) {l : List Byte} (h : c ≤ l.length) :
    wholeChunks c l = l.take c :: wholeChunks c (l.drop c) := by
  unfold wholeChunks
  have hq : l.length / c * c = c + (l.drop c).length / c * c := by
    rw [List.length_drop, Nat.div_eq l.length c, if_pos ⟨hc, h⟩, Nat.succ_mul]; omega
  have hne : l.take (l.length / c * c) ≠ [] := fun e => by
    have := congrArg List.length e
    simp only [List.length_take, List.length_nil] at this; omega
  rw [chunksOf_step hc hne, List.take_take, List.drop_take, hq, Nat.min_eq_left (by omega), Nat.add_sub_cancel_left]

theorem wholeChunks_of_lt {c : Nat} {l : List Byte} (h : l.length < c) : wholeChunks c l = [] := by
  unfold wholeChunks
  rw [Nat.div_eq_of_lt h, Nat.zero_mul, List.take_zero, chunksOf_nil c (by omega)]

/-- A producer that runs out: the chunks it filled go out, then the writes hang with every item consumed
(R65, R127, R298). -/
theorem writeStream_starves {s : State} (hok : AllOk s) (hc : 0 < s.cfg.chunkBytes) (he : s.cfg.chunkBytes % 2 = 0)
    {fuel left : Nat} {src : Source} (hsrc : ∀ l, src ≠ .bytes l) (hf : left ≤ fuel) (hw : src.Whole left)
    (hup : (src.upcoming s).length < left) :
    ∃ t, writeStream fuel left src s = (t, .hung) ∧
      t.history = s.history ++
        (wholeChunks s.cfg.chunkBytes (src.upcoming s)).map (fun chunk => .wr chunk .ok) ∧
      t.prod8 = (src.pull (src.upcoming s).length s).prod8 ∧
      t.prod16 = (src.pull (src.upcoming s).length s).prod16 ∧ t.dc = s.dc ∧ BusOnly s t := by
  induction fuel generalizing left s with
  | zero => omega
  | succ fuel ih =>
    by_cases h : min s.cfg.chunkBytes left ≤ (src.upcoming s).length
    · have hmin : min s.cfg.chunkBytes left = s.cfg.chunkBytes := by omega
      have hm : src.Whole s.cfg.chunkBytes := hmin ▸ Source.whole_min hw he
      have hafter : src.after s.cfg.chunkBytes = src := by
        cases src with
        | bytes l => exact absurd rfl (hsrc l)
        | port8 => rfl
        | port16 o => rfl
      have hna := nextAnswer_of_allOk hok
      have hframe := chunkWritten_frame s.cfg.chunkBytes src s
      have hcfg := hframe.outside.cfg
      have hupw := chunkWritten_upcoming (s := s) hm
      rw [hafter] at hupw
      obtain ⟨t, h1, h2, h8, h16, hd, h3⟩ := ih (s := chunkWritten s.cfg.chunkBytes src s)
        (left := left - s.cfg.chunkBytes) (AllOk.tail hok (by simp [chunkWritten]))
        (by rw [hcfg]; exact hc) (by rw [hcfg]; exact he) (by omega) (Source.whole_sub hw hm)
        (by rw [hupw, List.length_drop]; omega)
      rw [hcfg, hupw] at h2
      rw [hupw] at h8 h16
      have hn : src.Whole ((src.upcoming s).drop s.cfg.chunkBytes).length := by
        cases src with
        | bytes l => trivial
        | port8 => trivial
        | port16 o => simp only [Source.Whole, Source.upcoming, List.length_drop, serAll_length]; omega
      have hpull := chunkWritten_pull hm hn s
      rw [hafter, show s.cfg.chunkBytes + ((src.upcoming s).drop s.cfg.chunkBytes).length = (src.upcoming s).length by
        rw [List.length_drop]; omega] at hpull
      refine ⟨t, ?_, ?_, h8.trans hpull.1, h16.trans hpull.2, by rw [hd]; simp [chunkWritten], hframe.trans h3⟩
      · rw [writeStream_step (by omega) h (by rw [hmin]; exact hm), hna, Run.andThen_of_ok rfl, hmin, hafter]
        exact h1
      · rw [h2, wholeChunks_step hc (l := src.upcoming s) (by omega)]
        simp [chunkWritten, hna]
    · have hnil := wholeChunks_of_lt (show (src.upcoming s).length < s.cfg.chunkBytes by omega)
      unfold writeStream
      rw [if_neg (by omega), hnil]
      cases src with
      | bytes l => exact absurd rfl (hsrc l)
      | port8 =>
        simp only [Source.upcoming] at h
        simp only [Source.fill, if_neg h]
        exact ⟨_, rfl, by simp, by simp [Source.pull, Source.upcoming], rfl, rfl,
          ⟨⟨rfl, rfl, rfl, rfl, rfl, rfl⟩, ⟨rfl, rfl, rfl, rfl, rfl, rfl⟩, rfl, rfl, rfl⟩⟩
      | port16 o =>
        simp only [Source.upcoming, serAll_length] at h
        have hmw : min s.cfg.chunkBytes left % 2 = 0 := Source.whole_min (src := .port16 o) hw he
        have h2 : ¬ min s.cfg.chunkBytes left / 2 ≤ s.prod16.length := by omega
        simp only [Source.fill, if_neg h2]
        exact ⟨_, rfl, by simp, rfl, by simp [Source.pull, Source.upcoming], rfl,
          ⟨⟨rfl, rfl, rfl, rfl, rfl, rfl⟩, ⟨rfl, rfl, rfl, rfl, rfl, rfl⟩, rfl, rfl, rfl⟩⟩

end Sys2Proof.Machine
end

