-- ==== Sys2Proof/Laws/Answers.lean ====
section
/-! SUPPORT. How a transaction ends when its first event not answered `ok` is known (20_memory.md R62). -/

namespace Sys2Proof.Machine

/-- A part that does nothing more. -/
theorem Run.andThen_pure (r : Run) : r.andThen (fun s => (s, .ok)) = r := by
  by_cases h : r.2 = .ok
  · rw [Run.andThen_of_ok h]; ext
    · rfl
    · exact h.symm
  · rw [Run.andThen_of_ne h]

/-- A single byte: one select-line event, one write (R123, R125). -/
theorem sendBytes_one {s : State} (hc : 0 < s.cfg.chunkBytes) (ph : Phase) (b : Byte) :
    sendBytes ph [b] s = (emitDc (s.cfg.level ph) s).andThen fun s1 => emitWr [b] (stage [b] s1) := by
  unfold sendBytes tcSend
  by_cases h : (emitDc (s.cfg.level ph) s).2 = .ok
  · rw [Run.andThen_of_ok h, Run.andThen_of_ok h]
    show writeStream 1 1 (.bytes [b]) _ = _
    unfold writeStream
    have hm : min (emitDc (s.cfg.level ph) s).1.cfg.chunkBytes 1 = 1 := by simp; omega
    rw [if_neg (by simp), hm]
    simp only [Source.fill, List.take_succ_cons, List.take_zero]
    exact Run.andThen_pure _
  · rw [Run.andThen_of_ne h, Run.andThen_of_ne h]

/-- A single byte sent, the `n`-th event being the first not answered `ok`. -/
theorem sendByte_answers {s : State} (hc : 0 < s.cfg.chunkBytes) (ph : Phase) (b : Byte) {n : Nat} {a : Answer} {rest : List Answer}
    (ha : a ≠ .ok) (h : s.answers = List.replicate n .ok ++ a :: rest) :
    (n = 0 → (sendBytes ph [b] s).2 = a.reply .selectLineError) ∧ (n = 1 → (sendBytes ph [b] s).2 = a.reply .busWriteError) ∧
    (2 ≤ n → (sendBytes ph [b] s).2 = .ok ∧ (sendBytes ph [b] s).1.answers = List.replicate (n - 2) .ok ++ a :: rest) := by
  have hr : ∀ st, a.reply st ≠ .ok := by intro st; cases a <;> simp_all [Answer.reply]
  rw [sendBytes_one hc]
  match n with
  | 0 =>
    have hn : s.nextAnswer = a := by simp [State.nextAnswer, h]
    refine ⟨fun _ => ?_, nofun, by omega⟩
    rw [Run.andThen_of_ne (by rw [emitDc_reply, hn]; exact hr _), emitDc_reply, hn]
  | 1 =>
    have hn : s.nextAnswer = .ok := by simp [State.nextAnswer, h, List.replicate_succ]
    refine ⟨nofun, fun _ => ?_, by omega⟩
    rw [Run.andThen_of_ok (by rw [emitDc_reply, hn]; rfl), emitWr_reply]
    simp [State.nextAnswer, h, List.replicate_succ]
  | n + 2 =>
    have hn : s.nextAnswer = .ok := by simp [State.nextAnswer, h, List.replicate_succ]
    refine ⟨nofun, by omega, fun _ => ?_⟩
    rw [Run.andThen_of_ok (by rw [emitDc_reply, hn]; rfl), emitWr_reply]
    constructor
    · simp [State.nextAnswer, h, List.replicate_succ, Answer.reply]
    · simp [h, List.replicate_succ]

/-- A transaction without data bytes, event `n` being the first not answered `ok`. -/
theorem pdCommand_noData_answers {s : State} (hc : 0 < s.cfg.chunkBytes) (op : Byte) {n : Nat} {a : Answer} {rest : List Answer}
    (ha : a ≠ .ok) (h : s.answers = List.replicate n .ok ++ a :: rest) :
    (n < 2 → (pdCommand op [] s).2 = a.reply (if n % 2 = 0 then .selectLineError else .busWriteError)) ∧
    (2 ≤ n → (pdCommand op [] s).2 = .ok ∧ (pdCommand op [] s).1.answers = List.replicate (n - 2) .ok ++ a :: rest) := by
  have e : pdCommand op [] s = sendBytes .command [op] s := by
    unfold pdCommand; simp only [if_true]; exact Run.andThen_pure _
  obtain ⟨h0, h1, h2⟩ := sendByte_answers hc .command op ha h
  rw [e]
  refine ⟨fun hn => ?_, h2⟩
  match n with
  | 0 => exact h0 rfl
  | 1 => exact h1 rfl
  | n + 2 => omega

/-- A transaction with one data byte, event `n` being the first not answered `ok`. -/
theorem pdCommand_oneByte_answers {s : State} (hc : 0 < s.cfg.chunkBytes) (op x : Byte) {n : Nat} {a : Answer} {rest : List Answer}
    (ha : a ≠ .ok) (h : s.answers = List.replicate n .ok ++ a :: rest) :
    (n < 4 → (pdCommand op [x] s).2 = a.reply (if n % 2 = 0 then .selectLineError else .busWriteError)) ∧
    (4 ≤ n → (pdCommand op [x] s).2 = .ok ∧ (pdCommand op [x] s).1.answers = List.replicate (n - 4) .ok ++ a :: rest) := by
  have hr : ∀ st, a.reply st ≠ .ok := by intro st; cases a <;> simp_all [Answer.reply]
  obtain ⟨h0, h1, h2⟩ := sendByte_answers hc .command op ha h
  unfold pdCommand
  have hcfg := (sendBytes_frame .command [op] s).bus.outside.cfg
  by_cases hn : 2 ≤ n
  · obtain ⟨e1, e2⟩ := h2 hn
    rw [Run.andThen_of_ok e1]
    simp only [if_neg (List.cons_ne_nil x [])]
    obtain ⟨g0, g1, g2⟩ := sendByte_answers (by rw [hcfg]; exact hc) .data x ha e2
    refine ⟨fun hl => ?_, fun hl => ?_⟩
    · have : n = 2 ∨ n = 3 := by omega
      rcases this with rfl | rfl
      · exact g0 rfl
      · exact g1 rfl
    · have := g2 (by omega)
      rwa [show n - 2 - 2 = n - 4 by omega] at this
  · refine ⟨fun _ => ?_, by omega⟩
    have : n = 0 ∨ n = 1 := by omega
    rcases this with rfl | rfl
    · rw [Run.andThen_of_ne (by rw [h0 rfl]; exact hr _)]; exact h0 rfl
    · rw [Run.andThen_of_ne (by rw [h1 rfl]; exact hr _)]; exact h1 rfl

end Sys2Proof.Machine
end

