-- ==== Sys2Proof/Laws/Panel.lean ====
section
/-! SUPPORT. What the panel makes of the bytes it takes (20_memory.md R80 to R83): it keeps the canonical form of its
pixel memory; a range command sets the window; memory-write stores pixel after pixel. -/

namespace Sys2Proof.Machine

theorem endData_pixels (p : Panel) : (Panel.endData p).pixels = p.pixels ∨ (Panel.endData p).pixels = [] := by
  unfold Panel.endData; split
  · exact .inr rfl
  · exact .inl rfl

theorem endData_of_settled {p : Panel} (h : p.Settled) : Panel.endData p = p := by
  unfold Panel.endData
  rw [if_neg fun g => g.2 (h g.1)]

@[simp] theorem endData_bench (p : Panel) : (Panel.endData p).bench = p.bench := by
  unfold Panel.endData; split <;> rfl

@[simp] theorem forget_bench (p : Panel) : p.forget.bench = p.bench := rfl
@[simp] theorem forget_pixels (p : Panel) : p.forget.pixels = [] := rfl
@[simp] theorem afterReset_bench (p : Panel) : p.afterReset.bench = p.bench := rfl
@[simp] theorem afterReset_pixels (p : Panel) : p.afterReset.pixels = p.bench.pixels := rfl

@[simp] theorem onlyCommand_bench (p : Panel) : p.onlyCommand.bench = p.bench := rfl
@[simp] theorem onlyCommand_command (p : Panel) : p.onlyCommand.command = p.command := rfl
@[simp] theorem onlyCommand_pixels (p : Panel) : p.onlyCommand.pixels = [] := rfl

@[simp] theorem slept_bench (p : Panel) : p.slept.bench = p.bench := by unfold Panel.slept; split <;> rfl
@[simp] theorem slept_command (p : Panel) : p.slept.command = p.command := by unfold Panel.slept; split <;> rfl

theorem slept_pixels (p : Panel) : p.slept.pixels = if p.bench.keepsAsleep then p.pixels else [] := by
  unfold Panel.slept; split <;> rfl

@[simp] theorem beginCommand_bench (b : Byte) (p : Panel) : (Panel.beginCommand b p).bench = p.bench := endData_bench p
@[simp] theorem beginCommand_command (b : Byte) (p : Panel) : (Panel.beginCommand b p).command = some b := rfl
@[simp] theorem beginCommand_args (b : Byte) (p : Panel) : (Panel.beginCommand b p).args = [] := rfl
theorem beginCommand_pixels (b : Byte) (p : Panel) :
    (Panel.beginCommand b p).pixels = p.pixels ∨ (Panel.beginCommand b p).pixels = [] := endData_pixels p

theorem beginCommand_of_settled {p : Panel} (b : Byte) (h : p.Settled) :
    Panel.beginCommand b p = { p with command := some b, args := [] } := by
  unfold Panel.beginCommand; rw [endData_of_settled h]

@[simp] theorem obey_bench (w h : HalfWord) (b : Byte) (q : Panel) : (Panel.obey w h b q).bench = q.bench := by
  unfold Panel.obey
  repeat' split
  all_goals simp

@[simp] theorem obey_command (w h : HalfWord) (b : Byte) (q : Panel) : (Panel.obey w h b q).command = q.command := by
  unfold Panel.obey
  repeat' split
  all_goals simp

/-- A new command keeps the pixels, forgets them all, or leaves what is assumed after a reset. -/
theorem obey_pixels (w h : HalfWord) (b : Byte) (q : Panel) :
    (Panel.obey w h b q).pixels = q.pixels ∨ (Panel.obey w h b q).pixels = [] ∨
      (Panel.obey w h b q).pixels = q.bench.pixels := by
  unfold Panel.obey
  repeat' split
  all_goals simp only [slept_pixels, onlyCommand_pixels, true_or, or_true]
  all_goals split <;> simp

variable (w h : HalfWord) (q : Panel)

theorem obey_softwareReset : Panel.obey w h opcSoftwareReset q =
    { q.onlyCommand with pixels := if q.bench.keepsReset then q.pixels else q.bench.pixels } := rfl
theorem obey_sleepOn : Panel.obey w h opcSleepOn q = { q.slept with asleep := some true } := rfl
theorem obey_sleepOff : Panel.obey w h opcSleepOff q =
    { (if q.asleep = some true then q.slept else q) with asleep := some false } := rfl
theorem obey_invertOff : Panel.obey w h opcInvertOff q = { q with inverted := some false } := rfl
theorem obey_invertOn : Panel.obey w h opcInvertOn q = { q with inverted := some true } := rfl
theorem obey_displayOff : Panel.obey w h opcDisplayOff q = { q with displayOn := some false } := rfl
theorem obey_displayOn : Panel.obey w h opcDisplayOn q = { q with displayOn := some true } := rfl
theorem obey_memoryWrite : Panel.obey w h opcMemoryWrite q = { q with cursor := Panel.windowStart w h q } := rfl
theorem obey_columnRange : Panel.obey w h opcColumnRange q = q := rfl
theorem obey_pageRange : Panel.obey w h opcPageRange q = q := rfl
theorem obey_memoryAccessControl : Panel.obey w h opcMemoryAccessControl q = q := rfl
theorem obey_pixelFormat : Panel.obey w h opcPixelFormat q = q := rfl
theorem obey_brightness : Panel.obey w h opcBrightness q = q := rfl

/-- Every command byte becomes the current command (R80). -/
@[simp] theorem takeCommand_command (w h : HalfWord) (b : Byte) (p : Panel) :
    (Panel.takeCommand w h b p).command = some b := by
  unfold Panel.takeCommand; simp

@[simp] theorem takeCommand_bench (w h : HalfWord) (b : Byte) (p : Panel) :
    (Panel.takeCommand w h b p).bench = p.bench := by
  unfold Panel.takeCommand; simp

/-- A command byte keeps the pixels, forgets them all, or leaves what is assumed after a reset. -/
theorem takeCommand_pixels (w h : HalfWord) (b : Byte) (p : Panel) :
    (Panel.takeCommand w h b p).pixels = p.pixels ∨ (Panel.takeCommand w h b p).pixels = [] ∨
      (Panel.takeCommand w h b p).pixels = p.bench.pixels := by
  unfold Panel.takeCommand
  rcases obey_pixels w h b (Panel.beginCommand b p) with e | e | e <;> rw [e]
  · exact (beginCommand_pixels b p).imp_right .inl
  · exact .inr (.inl rfl)
  · exact .inr (.inr (by simp))

theorem storePixel_pixels (c : HalfWord) (p : Panel) :
    (∃ a, (Panel.storePixel c p).pixels = Memory.write p.pixels a c) ∨ (Panel.storePixel c p).pixels = [] := by
  unfold Panel.storePixel
  repeat' split
  all_goals first | exact .inl ⟨_, rfl⟩ | exact .inr rfl

/-- A data byte keeps the pixels, stores one, or forgets them all. -/
theorem takeData_pixels (b : Byte) (p : Panel) :
    (Panel.takeData b p).pixels = p.pixels ∨ (∃ a c, (Panel.takeData b p).pixels = Memory.write p.pixels a c) ∨
      (Panel.takeData b p).pixels = [] := by
  unfold Panel.takeData
  split
  · exact .inl rfl
  split
  · exact .inl rfl
  split
  · split
    · exact .inl rfl
    · rename_i h _ _
      rcases storePixel_pixels (h ++ b) { p with args := [] } with ⟨a, ha⟩ | hn
      · exact .inr (.inl ⟨a, _, ha⟩)
      · exact .inr (.inr hn)
  split
  · exact .inl rfl
  split
  · exact .inl rfl
  split
  · exact .inl rfl
  · exact .inr (.inr rfl)

@[simp] theorem storePixel_bench (c : HalfWord) (p : Panel) : (Panel.storePixel c p).bench = p.bench := by
  unfold Panel.storePixel
  repeat' split
  all_goals rfl

@[simp] theorem storePixel_command (c : HalfWord) (p : Panel) : (Panel.storePixel c p).command = p.command := by
  unfold Panel.storePixel
  repeat' split
  all_goals rfl

/-- A data byte is no command (R80). -/
@[simp] theorem takeData_command (b : Byte) (p : Panel) : (Panel.takeData b p).command = p.command := by
  unfold Panel.takeData
  repeat' split
  all_goals simp

@[simp] theorem takeData_bench (b : Byte) (p : Panel) : (Panel.takeData b p).bench = p.bench := by
  unfold Panel.takeData
  repeat' split
  all_goals simp

@[simp] theorem takeByte_bench (c : Config) (w h : HalfWord) (l : BitVec 1) (p : Panel) (b : Byte) :
    (Panel.takeByte c w h l p b).bench = p.bench := by
  unfold Panel.takeByte; split <;> simp

/-- No byte the panel takes changes what is assumed of it. -/
@[simp] theorem takeBytes_bench (c : Config) (w h : HalfWord) (l : BitVec 1) (bytes : List Byte) (p : Panel) :
    (Panel.takeBytes c w h l bytes p).bench = p.bench := by
  induction bytes generalizing p with
  | nil => rfl
  | cons b bs ih => exact (ih _).trans (takeByte_bench c w h l p b)

theorem takeByte_wf {c : Config} {w h : HalfWord} {l : BitVec 1} {p : Panel} (hp : Memory.wf p.pixels)
    (hb : Memory.wf p.bench.pixels) (b : Byte) : Memory.wf (Panel.takeByte c w h l p b).pixels := by
  unfold Panel.takeByte
  split
  · rcases takeCommand_pixels w h b p with e | e | e <;> rw [e]
    · exact hp
    · exact List.Pairwise.nil
    · exact hb
  · rcases takeData_pixels b p with e | ⟨a, v, e⟩ | e <;> rw [e]
    · exact hp
    · exact Memory.write_wf hp a v
    · exact List.Pairwise.nil

/-- Whatever the panel takes, its pixel memory keeps the canonical form. -/
theorem takeBytes_wf {c : Config} {w h : HalfWord} {l : BitVec 1} (bytes : List Byte) {p : Panel}
    (hp : Memory.wf p.pixels) (hb : Memory.wf p.bench.pixels) :
    Memory.wf (Panel.takeBytes c w h l bytes p).pixels := by
  induction bytes generalizing p with
  | nil => exact hp
  | cons b bs ih => exact ih (takeByte_wf hp hb b) ((takeByte_bench c w h l p b).symm ▸ hb)

/-! ### Transactions -/

/-- A command phase and a data phase, the select levels being different (R80). -/
theorem takeTransaction_eq {s : State} (hl : s.cfg.dcCmd ≠ s.cfg.dcData) (op : Byte) (args : List Byte) (p : Panel) :
    takeTransaction s op args p = args.foldl (fun q b => Panel.takeData b q)
      (Panel.takeCommand s.width s.height op p) := by
  unfold takeTransaction Panel.takeBytes
  simp only [List.foldl_cons, List.foldl_nil, Panel.takeByte, if_true]
  congr 1
  funext q b
  unfold Panel.takeByte
  rw [if_neg (Ne.symm hl)]

/-- `column-range` sets the panel's columns (R81). -/
theorem takeTransaction_columns {s : State} (hl : s.cfg.dcCmd ≠ s.cfg.dcData) (a b : HalfWord) (p : Panel) :
    takeTransaction s opcColumnRange (rangeBytes a b) p =
      { Panel.endData p with command := some opcColumnRange, args := rangeBytes a b, columns := some (a, b) } := by
  rw [takeTransaction_eq hl]
  simp only [rangeBytes, ser16, List.cons_append, List.nil_append, List.foldl_cons, List.foldl_nil]
  unfold Panel.takeCommand
  rw [obey_columnRange]
  simp [Panel.beginCommand, opcColumnRange, Panel.takeData, rangeOf, hi_append_lo]

/-- `page-range` sets the panel's pages (R81). -/
theorem takeTransaction_pages {s : State} (hl : s.cfg.dcCmd ≠ s.cfg.dcData) (a b : HalfWord) (p : Panel) :
    takeTransaction s opcPageRange (rangeBytes a b) p =
      { Panel.endData p with command := some opcPageRange, args := rangeBytes a b, pages := some (a, b) } := by
  rw [takeTransaction_eq hl]
  simp only [rangeBytes, ser16, List.cons_append, List.nil_append, List.foldl_cons, List.foldl_nil]
  unfold Panel.takeCommand
  rw [obey_pageRange]
  simp [Panel.beginCommand, opcPageRange, opcColumnRange, Panel.takeData, rangeOf, hi_append_lo]

/-- The data of a memory-write, pixel by pixel (R82). -/
theorem takeData_pixels_foldl (pixels : List HalfWord) {p : Panel} (hc : p.command = some opcMemoryWrite)
    (ha : p.args = []) :
    (serAll .be pixels).foldl (fun q b => Panel.takeData b q) p =
      pixels.foldl (fun q c => Panel.storePixel c q) p := by
  induction pixels generalizing p with
  | nil => rfl
  | cons c cs ih =>
    have h1 : Panel.takeData (hi c) p = { p with args := [hi c] } := by
      simp [Panel.takeData, hc, ha, opcMemoryWrite, opcColumnRange, opcPageRange]
    have h2 : Panel.takeData (lo c) { p with args := [hi c] } = Panel.storePixel c p := by
      have : ({ p with args := [] } : Panel) = p := by rw [← ha]
      unfold Panel.takeData
      rw [if_neg (by simp [hc, opcMemoryWrite, opcColumnRange]), if_neg (by simp [hc, opcMemoryWrite, opcPageRange]),
        if_pos hc]
      show Panel.storePixel (hi c ++ lo c) { p with args := [] } = _
      rw [hi_append_lo, this]
    have h3 : (Panel.storePixel c p).command = some opcMemoryWrite ∧ (Panel.storePixel c p).args = [] := by
      unfold Panel.storePixel
      repeat' split
      all_goals exact ⟨hc, ha⟩
    rw [serAll_cons, List.foldl_append]
    simp only [ser16, List.foldl_cons, List.foldl_nil, h1, h2]
    exact ih h3.1 h3.2

/-- Pixels stored from number `k` of a window `w` columns wide on (R82): pixel number `k + j` goes to column
`x0 + (k + j) % w`, row `y0 + (k + j) / w`, and nothing else changes. -/
theorem storePixels_spec {x0 x1 y0 y1 : HalfWord} (hx : x0.toNat ≤ x1.toNat) (hy : y0.toNat ≤ y1.toNat)
    (pixels : List HalfWord) (k : Nat)
    (hk : k + pixels.length ≤ (x1.toNat - x0.toNat + 1) * (y1.toNat - y0.toNat + 1)) {p : Panel}
    (hcol : p.columns = some (x0, x1)) (hpage : p.pages = some (y0, y1))
    (hcur : p.cursor =
      some (x0.toNat + k % (x1.toNat - x0.toNat + 1), y0.toNat + k / (x1.toNat - x0.toNat + 1))) :
    (∀ j v, pixels[j]? = some v →
      (pixels.foldl (fun q c => Panel.storePixel c q) p).pixel
        (x0.toNat + (k + j) % (x1.toNat - x0.toNat + 1)) (y0.toNat + (k + j) / (x1.toNat - x0.toNat + 1)) = some v) ∧
    (∀ x y, x < 65536 → (∀ j, j < pixels.length →
        ¬ (x = x0.toNat + (k + j) % (x1.toNat - x0.toNat + 1) ∧
          y = y0.toNat + (k + j) / (x1.toNat - x0.toNat + 1))) →
      (pixels.foldl (fun q c => Panel.storePixel c q) p).pixel x y = p.pixel x y) := by
  have hx1 := x1.isLt
  generalize hw : x1.toNat - x0.toNat + 1 = w at *
  have hwpos : 0 < w := by omega
  induction pixels generalizing k p with
  | nil => exact ⟨nofun, fun _ _ _ _ => rfl⟩
  | cons c cs ih =>
    rw [List.length_cons] at hk
    have hmod : k % w < w := Nat.mod_lt _ hwpos
    have hdiv : k / w < y1.toNat - y0.toNat + 1 := Nat.div_lt_of_lt_mul (by omega)
    have hstep : Panel.storePixel c p =
        { p with
          pixels := Memory.write p.pixels (pixelAddress (x0.toNat + k % w) (y0.toNat + k / w)) c
          cursor := some (x0.toNat + (k + 1) % w, y0.toNat + (k + 1) / w) } := by
      unfold Panel.storePixel
      rw [hcur, hcol, hpage]
      simp only
      rw [if_pos (by omega)]
      congr 2
      by_cases hlast : k % w + 1 = w
      · rw [if_neg (by omega)]
        have e : k + 1 = w * (k / w + 1) := by
          have := Nat.div_add_mod k w; rw [Nat.mul_succ]; omega
        have h1 : (k + 1) % w = 0 := by rw [e]; exact Nat.mul_mod_right _ _
        have h2 : (k + 1) / w = k / w + 1 := by rw [e]; exact Nat.mul_div_cancel_left _ hwpos
        rw [h1, h2]; rfl
      · rw [if_pos (by omega)]
        have e : k + 1 = w * (k / w) + (k % w + 1) := by have := Nat.div_add_mod k w; omega
        have h1 : (k + 1) % w = k % w + 1 := by
          rw [e, Nat.mul_add_mod]; exact Nat.mod_eq_of_lt (by omega)
        have h2 : (k + 1) / w = k / w := by
          have : (k % w + 1) / w = 0 := Nat.div_eq_of_lt (by omega)
          rw [e, Nat.mul_add_div hwpos, this, Nat.add_zero]
        rw [h1, h2]; rfl
    obtain ⟨h1, h2⟩ := ih (k + 1) (p := Panel.storePixel c p) (by rw [hstep]; exact hcol)
      (by rw [hstep]; exact hpage) (by omega) (by rw [hstep])
    have hpix : ∀ x y, (Panel.storePixel c p).pixel x y =
        if pixelAddress x y = pixelAddress (x0.toNat + k % w) (y0.toNat + k / w) then some c else p.pixel x y :=
      fun x y => by simp only [Panel.pixel, hstep, Memory.read_write]
    simp only [List.foldl_cons]
    refine ⟨fun j v hj => ?_, fun x y hxlt hall => ?_⟩
    · cases j with
      | zero =>
        simp only [List.getElem?_cons_zero, Option.some.injEq] at hj
        subst hj
        rw [Nat.add_zero, h2 _ _ (by omega)]
        · rw [hpix, if_pos rfl]
        · rintro j' _ ⟨e1, e2⟩
          have a := Nat.div_add_mod k w
          have b := Nat.div_add_mod (k + 1 + j') w
          have : k % w = (k + 1 + j') % w := by omega
          have h4 : k / w = (k + 1 + j') / w := by omega
          rw [← this, ← h4] at b; omega
      | succ j =>
        have := h1 j v (by simpa using hj)
        rwa [show k + 1 + j = k + (j + 1) by omega] at this
    · rw [h2 x y hxlt fun j' hj' => by
        have := hall (j' + 1) (by simpa using hj')
        rwa [show k + (j' + 1) = k + 1 + j' by omega] at this]
      rw [hpix, if_neg]
      intro e
      have h0 := hall 0 (by simp)
      rw [Nat.add_zero] at h0
      simp only [pixelAddress] at e
      exact h0 (by omega)

/-- A memory-write transaction into a window that satisfies the window invariant (R82). -/
theorem takeTransaction_memoryWrite {s : State} (hl : s.cfg.dcCmd ≠ s.cfg.dcData) {x0 x1 y0 y1 : HalfWord}
    {pixels : List HalfWord} {p : Panel} (ha : p.Settled)
    (hcol : p.columns = some (x0, x1)) (hpage : p.pages = some (y0, y1))
    (hx : x0.toNat ≤ x1.toNat) (hxw : x1.toNat < s.width.toNat) (hy : y0.toNat ≤ y1.toNat)
    (hyh : y1.toNat < s.height.toNat)
    (hlen : pixels.length ≤ (x1.toNat - x0.toNat + 1) * (y1.toNat - y0.toNat + 1)) :
    (∀ j v, pixels[j]? = some v →
      (takeTransaction s opcMemoryWrite (serAll .be pixels) p).pixel
        (x0.toNat + j % (x1.toNat - x0.toNat + 1)) (y0.toNat + j / (x1.toNat - x0.toNat + 1)) = some v) ∧
    (∀ x y, x < 65536 → (∀ j, j < pixels.length →
        ¬ (x = x0.toNat + j % (x1.toNat - x0.toNat + 1) ∧ y = y0.toNat + j / (x1.toNat - x0.toNat + 1))) →
      (takeTransaction s opcMemoryWrite (serAll .be pixels) p).pixel x y = p.pixel x y) := by
  let q : Panel :=
    { p with command := some opcMemoryWrite, args := [], cursor := some (x0.toNat, y0.toNat) }
  have hq : Panel.takeCommand s.width s.height opcMemoryWrite p = q := by
    have hstart : Panel.windowStart s.width s.height p = some (x0.toNat, y0.toNat) := by
      simp only [Panel.windowStart, hcol, hpage]
      rw [if_pos ⟨hx, hxw, hy, hyh⟩]
    unfold Panel.takeCommand
    rw [obey_memoryWrite, beginCommand_of_settled _ ha]
    have : Panel.windowStart s.width s.height { p with command := some opcMemoryWrite, args := [] } =
        Panel.windowStart s.width s.height p := rfl
    rw [this, hstart]
  rw [takeTransaction_eq hl, hq, takeData_pixels_foldl pixels rfl rfl]
  have := storePixels_spec hx hy pixels 0 (by omega) (p := q) hcol hpage (by simp [q])
  simp only [Nat.zero_add] at this
  exact this

end Sys2Proof.Machine
end

