-- ==== Sys2Proof/Laws/Invariant.lean ====
section
/-! SUPPORT. Every shared operation keeps the invariant of a run (Safety.lean). -/

namespace Sys2Proof.Machine

theorem Below.nil {β : Type} (n : Nat) : Below n ([] : Memory β) := fun _ h => nomatch h

theorem Below.write {β : Type} {n : Nat} {m : Memory β} (h : Below n m) {a : Nat} (ha : a < n) (v : β) :
    Below n (Memory.write m a v) := fun p hp => by
  rcases Memory.mem_write hp with rfl | hp
  · exact ha
  · exact h p hp

theorem Below.writeFrom {β : Type} {n : Nat} {m : Memory β} (h : Below n m) {a : Nat} {vs : List β}
    (ha : a + vs.length ≤ n) : Below n (Memory.writeFrom m a vs) := fun p hp => by
  rcases Memory.mem_writeFrom hp with hp | hp
  · omega
  · exact h p hp

theorem Below.fill {β : Type} (n : Nat) (v : β) : Below n (Memory.fill n v) := fun _ hp => (Memory.mem_fill hp).1

theorem Filled.fill (c : Config) (v : HalfWord) : Filled c (Memory.fill c.cells v) := fun i hi =>
  ⟨v, by rw [Memory.read_fill, if_pos hi]⟩

theorem Filled.write {c : Config} {m : Memory HalfWord} (h : Filled c m) (a : Nat) (v : HalfWord) :
    Filled c (Memory.write m a v) := fun i hi => by
  rw [Memory.read_write]
  split
  · exact ⟨v, rfl⟩
  · exact h i hi

/-- A state that differs in nothing the invariant speaks of. -/
theorem State.Inv.of_eq {s t : State} (h : s.Inv) (hcfg : t.cfg = s.cfg) (hpd : t.pd = s.pd) (hpb : t.pb = s.pb)
    (hcb : t.cb = s.cb) (hcur : t.cur = s.cur) (hsnt : t.snt = s.snt) (hpanel : t.panel = s.panel)
    (hhist : t.history = s.history) : t.Inv := by
  obtain ⟨h1, h2, h3, h4, h5, h6, hb, h7, h8, h9, h10, h11, h12, h13⟩ := h
  constructor <;> simp only [hcfg, hpd, hpb, hcb, hcur, hsnt, hpanel, hhist] <;> assumption

theorem finishSeq_inv {s : State} (h : s.Inv) (st : Status) (res : HalfWord) : (s.finishSeq st res).Inv :=
  h.of_eq rfl rfl rfl rfl rfl rfl rfl rfl

/-- Concluding an operation keeps it. -/
theorem conclude_inv {m : SeqMode} {r : Run} {t : State} (hr : r.1.Inv) (h : conclude m r = .next t) : t.Inv := by
  obtain ⟨u, h1, h2⟩ := conclude_next m r
  rw [h] at h1; cases h1
  rcases h2 with ⟨_, rfl⟩ | ⟨_, _, rfl⟩ | ⟨_, rfl⟩
  · exact finishSeq_inv hr _ _
  · exact finishSeq_inv hr _ _
  · exact hr.of_eq rfl rfl rfl rfl rfl rfl rfl rfl

theorem gated_inv {need : PdState} {k : State → Outcome} {s t : State} (hs : s.Inv)
    (hk : s.pd = need → k s = .next t → t.Inv) (h : gated need k s = .next t) : t.Inv := by
  by_cases hp : s.pd = need
  · rw [gated_of_eq hp] at h; exact hk hp h
  · rw [gated_of_ne hp] at h; cases h; exact finishSeq_inv hs _ _

theorem stage_inv {s : State} (h : s.Inv) {chunk : List Byte} (hc : chunk.length ≤ s.cfg.chunkBytes) :
    (stage chunk s).Inv := by
  obtain ⟨h1, h2, h3, h4, h5, h6, hb, h7, h8, h9, h10, h11, h12, h13⟩ := h
  exact ⟨h1, h2, Memory.writeFrom_wf h3 _ _, h4, h5, h6, hb, h7, Below.writeFrom (a := 0) h8 (by omega), h9, h10, h11, h12,
    h13⟩

theorem emit_fits {s : State} (h : s.Inv) {e : Event} (he : e.fits s.cfg) : ∀ x ∈ s.history ++ [e], x.fits s.cfg :=
  fun x hx => by
    rcases List.mem_append.1 hx with hx | hx
    · exact h.writes_fit x hx
    · rw [List.mem_singleton.1 hx]; exact he

theorem emitDc_inv {s : State} (h : s.Inv) (l : BitVec 1) : (emitDc l s).1.Inv :=
  ⟨h.1, h.2, h.3, h.4, h.5, h.6, h.7, h.8, h.9, h.10, h.11, h.12, h.13, emit_fits h (e := .dc l s.nextAnswer) trivial⟩

theorem emitRst_inv {s : State} (h : s.Inv) (l : BitVec 1) : (emitRst l s).1.Inv :=
  ⟨h.1, h.2, h.3, h.4, h.5, h.bench_wf, h.bench_wf, h.8, h.9, h.10, h.11, h.12, h.13,
    emit_fits h (e := .rst l s.nextAnswer) trivial⟩

theorem emitDly_inv {s : State} (h : s.Inv) (t : Nat) : (emitDly t s).Inv :=
  ⟨h.1, h.2, h.3, h.4, h.5, h.6, h.7, h.8, h.9, h.10, h.11, h.12, h.13, emit_fits h (e := .dly t) trivial⟩

theorem emitWr_inv {s : State} (h : s.Inv) {bytes : List Byte} (h1 : 1 ≤ bytes.length)
    (h2 : bytes.length ≤ s.cfg.chunkBytes) : (emitWr bytes s).1.Inv :=
  ⟨h.1, h.2, h.3, h.4, h.5, takeBytes_wf _ h.6 h.7, (takeBytes_bench _ _ _ _ _ _).symm ▸ h.7, h.8, h.9, h.10, h.11,
    h.12, h.13,
    emit_fits h (e := .wr bytes s.nextAnswer) ⟨h1, h2⟩⟩

/-- A source has enough for the frame: a byte sequence all of it, the producer port whatever comes. -/
def Source.Covers (n : Nat) : Source → Prop
  | .bytes l => n ≤ l.length
  | .port8 => True
  | .port16 _ => n % 2 = 0

/-- What one pull leaves and delivers. -/
theorem fill_inv {s : State} (h : s.Inv) {src : Source} {n : Nat} (hn : n ≤ s.cfg.chunkBytes) (hsrc : src.Covers n) :
    (src.fill n s).1.Inv ∧ ∀ chunk src1, (src.fill n s).2 = some (chunk, src1) → chunk.length = n := by
  cases src with
  | bytes l =>
    simp only [Source.Covers] at hsrc
    refine ⟨h, fun chunk src1 e => ?_⟩
    cases e; simp; omega
  | port8 =>
    by_cases hl : n ≤ s.prod8.length
    · simp only [Source.fill, if_pos hl]
      refine ⟨h.of_eq rfl rfl rfl rfl rfl rfl rfl rfl, fun chunk src1 e => ?_⟩
      cases e; simp; omega
    · simp only [Source.fill, if_neg hl]
      refine ⟨stage_inv (s := { s with prod8 := [] }) (h.of_eq rfl rfl rfl rfl rfl rfl rfl rfl) ?_,
        fun chunk src1 e => nomatch e⟩
      show s.prod8.length ≤ s.cfg.chunkBytes
      omega
  | port16 o =>
    simp only [Source.Covers] at hsrc
    by_cases hl : n / 2 ≤ s.prod16.length
    · simp only [Source.fill, if_pos hl]
      refine ⟨h.of_eq rfl rfl rfl rfl rfl rfl rfl rfl, fun chunk src1 e => ?_⟩
      cases e; simp; omega
    · simp only [Source.fill, if_neg hl]
      refine ⟨stage_inv (s := { s with prod16 := [] }) (h.of_eq rfl rfl rfl rfl rfl rfl rfl rfl) ?_,
        fun chunk src1 e => nomatch e⟩
      show (serAll o s.prod16).length ≤ s.cfg.chunkBytes
      rw [serAll_length]; omega

theorem fill_after {n : Nat} {s s1 : State} {src src1 : Source} {chunk : List Byte}
    (h : src.fill n s = (s1, some (chunk, src1))) : src1 = src.after n := by
  cases src with
  | bytes l => simp only [Source.fill, Prod.mk.injEq, Option.some.injEq] at h; exact h.2.2.symm
  | port8 =>
    by_cases hl : n ≤ s.prod8.length
    · simp only [Source.fill, if_pos hl, Prod.mk.injEq, Option.some.injEq] at h; exact h.2.2.symm
    · simp [Source.fill, if_neg hl] at h
  | port16 o =>
    by_cases hl : n / 2 ≤ s.prod16.length
    · simp only [Source.fill, if_pos hl, Prod.mk.injEq, Option.some.injEq] at h; exact h.2.2.symm
    · simp [Source.fill, if_neg hl] at h

theorem writeStream_inv {s : State} (h : s.Inv) {fuel left : Nat} {src : Source} (hsrc : src.Covers left) :
    (writeStream fuel left src s).1.Inv := by
  induction fuel generalizing left src s with
  | zero => exact h
  | succ fuel ih =>
    by_cases hl : left = 0
    · subst hl; simpa [writeStream] using h
    · have hc := h.config.chunk_two
      have he := h.config.chunk_even
      have hmin : src.Covers (min s.cfg.chunkBytes left) := by
        cases src <;> simp only [Source.Covers] at hsrc ⊢ <;> omega
      have hrest : (src.after (min s.cfg.chunkBytes left)).Covers (left - min s.cfg.chunkBytes left) := by
        cases src <;> simp only [Source.Covers, Source.after, List.length_drop] at hsrc ⊢ <;> omega
      obtain ⟨hf, hlen⟩ := fill_inv h (Nat.min_le_left _ _) hmin
      have hcfg := (fill_frame (min s.cfg.chunkBytes left) s src).outside.cfg
      unfold writeStream
      rw [if_neg hl]
      split
      · rename_i s1 e; rw [e] at hf; exact hf
      · rename_i s1 chunk src1 e
        have hafter := fill_after e
        rw [e] at hf hlen hcfg
        have hlen := hlen chunk src1 rfl
        simp only at hcfg hf
        subst hafter
        have hst := stage_inv hf (chunk := chunk) (by rw [hcfg]; omega)
        refine Run.andThen_keeps (P := State.Inv)
          (emitWr_inv hst (by omega) (show chunk.length ≤ s1.cfg.chunkBytes by rw [hcfg]; omega)) fun _ hi => ih hi hrest

theorem tcSend_inv {s : State} (h : s.Inv) {ph : Phase} {src : Source} {n : Nat} (hsrc : src.Covers n) :
    (tcSend ph src n s).1.Inv :=
  Run.andThen_keeps (P := State.Inv) (emitDc_inv h _) fun _ hi => writeStream_inv hi hsrc

theorem sendBytes_inv {s : State} (h : s.Inv) (ph : Phase) (l : List Byte) : (sendBytes ph l s).1.Inv :=
  tcSend_inv h (src := .bytes l) (Nat.le_refl _)

theorem pdCommand_inv {s : State} (h : s.Inv) (op : Byte) (args : List Byte) : (pdCommand op args s).1.Inv := by
  refine Run.andThen_keeps (P := State.Inv) (sendBytes_inv h _ _) fun _ hi => ?_
  split
  · exact hi
  · exact sendBytes_inv hi _ _

theorem setWindow_inv {s : State} (h : s.Inv) (w : Window) : (setWindow w s).1.Inv :=
  Run.andThen_keeps (P := State.Inv) (pdCommand_inv h _ _) fun _ hi =>
    Run.andThen_keeps (P := State.Inv) (pdCommand_inv hi _ _) fun _ hj => hj.of_eq rfl rfl rfl rfl rfl rfl rfl rfl

end Sys2Proof.Machine
end

