-- ==== Sys2Proof/Laws/Box.lean ====
section
/-! SUPPORT. The geometry of FLUSH (41_panel_driver.md R167 to R169): the cells of a rectangle, the bounding box of the
difference, and the pixels a box is sent as. -/

namespace Sys2Proof.Machine

theorem mem_cellsFrom {x0 y0 w h : Nat} {p : Nat × Nat} :
    p ∈ cellsFrom x0 y0 w h ↔ (x0 ≤ p.1 ∧ p.1 < x0 + w) ∧ (y0 ≤ p.2 ∧ p.2 < y0 + h) := by
  obtain ⟨x, y⟩ := p
  simp only [cellsFrom, List.mem_flatMap, List.mem_map, List.mem_range, Prod.mk.injEq]
  constructor
  · rintro ⟨dy, hdy, dx, hdx, rfl, rfl⟩
    omega
  · rintro ⟨⟨h1, h2⟩, h3, h4⟩
    exact ⟨y - y0, by omega, x - x0, by omega, by omega, by omega⟩

theorem cellsFrom_succ (x0 y0 w h : Nat) :
    cellsFrom x0 y0 w (h + 1) = cellsFrom x0 y0 w h ++ (List.range w).map fun dx => (x0 + dx, y0 + h) := by
  simp [cellsFrom, List.range_succ]

@[simp] theorem cellsFrom_length (x0 y0 w h : Nat) : (cellsFrom x0 y0 w h).length = w * h := by
  induction h with
  | zero => simp [cellsFrom]
  | succ h ih => rw [cellsFrom_succ, List.length_append, ih, List.length_map, List.length_range, Nat.mul_succ]

/-- The cells of a rectangle, row by row: the cell `(x0 + dx, y0 + dy)` is number `dy * w + dx` (R169). -/
theorem cellsFrom_getElem? {x0 y0 w h dx dy : Nat} (hx : dx < w) (hy : dy < h) :
    (cellsFrom x0 y0 w h)[dy * w + dx]? = some (x0 + dx, y0 + dy) := by
  induction h with
  | zero => omega
  | succ h ih =>
    rw [cellsFrom_succ]
    by_cases hlt : dy < h
    · have : dy * w + dx < w * h := by
        have h1 : (dy + 1) * w ≤ h * w := Nat.mul_le_mul_right _ hlt
        rw [Nat.succ_mul] at h1
        rw [Nat.mul_comm w h]; omega
      rw [List.getElem?_append_left (by simpa using this)]
      exact ih hlt
    · have he : dy = h := by omega
      subst he
      rw [List.getElem?_append_right (by rw [cellsFrom_length, Nat.mul_comm]; omega), cellsFrom_length,
        show dy * w + dx - w * dy = dx by rw [Nat.mul_comm dy w]; omega]
      simp [hx]

theorem foldl_grow (ps : List (Nat × Nat)) (b : Box) :
    (ps.foldl Box.grow b).xmin ≤ b.xmin ∧ b.xmax ≤ (ps.foldl Box.grow b).xmax ∧
      (ps.foldl Box.grow b).ymin ≤ b.ymin ∧ b.ymax ≤ (ps.foldl Box.grow b).ymax ∧
      (∀ p ∈ ps, (ps.foldl Box.grow b).contains p.1 p.2) ∧
      ∀ c : Box, (c.xmin ≤ b.xmin ∧ b.xmax ≤ c.xmax ∧ c.ymin ≤ b.ymin ∧ b.ymax ≤ c.ymax) →
        (∀ p ∈ ps, c.contains p.1 p.2) →
        c.xmin ≤ (ps.foldl Box.grow b).xmin ∧ (ps.foldl Box.grow b).xmax ≤ c.xmax ∧
          c.ymin ≤ (ps.foldl Box.grow b).ymin ∧ (ps.foldl Box.grow b).ymax ≤ c.ymax := by
  induction ps generalizing b with
  | nil => exact ⟨Nat.le_refl _, Nat.le_refl _, Nat.le_refl _, Nat.le_refl _, nofun, fun c h _ => h⟩
  | cons p ps ih =>
    obtain ⟨h1, h2, h3, h4, h5, h6⟩ := ih (b.grow p)
    simp only [Box.grow] at h1 h2 h3 h4
    refine ⟨?_, ?_, ?_, ?_, ?_, ?_⟩
    · simp only [List.foldl_cons, Box.grow]; omega
    · simp only [List.foldl_cons, Box.grow]; omega
    · simp only [List.foldl_cons, Box.grow]; omega
    · simp only [List.foldl_cons, Box.grow]; omega
    · intro q hq
      rcases List.mem_cons.1 hq with rfl | hq
      · simp only [List.foldl_cons, Box.grow, Box.contains]; omega
      · exact h5 q hq
    · intro c hc hall
      have hp := hall p (by simp)
      simp only [Box.contains] at hp
      refine h6 c ?_ fun q hq => hall q (by simp [hq])
      simp only [Box.grow]; omega

/-- The bounding box: it contains every cell, and it is the least rectangle that does (R168). -/
theorem boundingBox_spec {ps : List (Nat × Nat)} {b : Box} (h : boundingBox ps = some b) :
    (∀ p ∈ ps, b.contains p.1 p.2) ∧
      ∀ c : Box, (∀ p ∈ ps, c.contains p.1 p.2) →
        c.xmin ≤ b.xmin ∧ b.xmax ≤ c.xmax ∧ c.ymin ≤ b.ymin ∧ b.ymax ≤ c.ymax := by
  cases ps with
  | nil => cases h
  | cons p ps =>
    simp only [boundingBox, Option.some.injEq] at h
    subst h
    obtain ⟨h1, h2, h3, h4, h5, h6⟩ := foldl_grow ps ⟨p.1, p.2, p.1, p.2⟩
    refine ⟨fun q hq => ?_, fun c hc => ?_⟩
    · rcases List.mem_cons.1 hq with rfl | hq
      · exact ⟨h1, h2, h3, h4⟩
      · exact h5 q hq
    · have hp := hc p (by simp)
      exact h6 c ⟨hp.1, hp.2.1, hp.2.2.1, hp.2.2.2⟩ fun q hq => hc q (by simp [hq])

theorem boundingBox_none {ps : List (Nat × Nat)} : boundingBox ps = none ↔ ps = [] := by
  cases ps <;> simp [boundingBox]

/-- The cells of FLUSH's difference (R167). -/
theorem mem_dirtyCells {s : State} {p : Nat × Nat} : p ∈ s.dirtyCells ↔ s.differs p.1 p.2 := by
  simp [State.dirtyCells, State.differs, mem_cellsFrom, and_assoc]

/-- A framebuffer has `width * height` cells in every orientation (R66). -/
theorem State.cells_eq (s : State) : s.width.toNat * s.height.toNat = s.cfg.cells := by
  unfold State.width State.height Config.width Config.height Config.cells
  split
  · rw [Nat.mul_comm]
  · rfl

/-- The index of a cell inside the framebuffer is one of its cells (R66). -/
theorem State.cellIndex_lt {s : State} {x y : Nat} (hx : x < s.width.toNat) (hy : y < s.height.toNat) :
    s.cellIndex x y < s.cfg.cells := by
  rw [← s.cells_eq]
  unfold State.cellIndex
  have h2 : (y + 1) * s.width.toNat ≤ s.height.toNat * s.width.toNat := Nat.mul_le_mul_right _ hy
  rw [Nat.succ_mul] at h2
  rw [Nat.mul_comm s.width.toNat]
  omega

/-- The dirty box lies in the framebuffer (R168). -/
theorem dirtyBox_inside {s : State} {b : Box} (h : boundingBox s.dirtyCells = some b) : b.inside s := by
  obtain ⟨h1, h2⟩ := boundingBox_spec h
  have hne : s.dirtyCells ≠ [] := fun e => by rw [e] at h; cases h
  obtain ⟨p, hp⟩ := List.exists_mem_of_ne_nil _ hne
  have hc := h1 p hp
  have hd := mem_dirtyCells.1 hp
  have hall : ∀ q ∈ s.dirtyCells, Box.contains ⟨0, 0, s.width.toNat - 1, s.height.toNat - 1⟩ q.1 q.2 := by
    intro q hq
    have := mem_dirtyCells.1 hq
    simp only [State.differs] at this
    simp only [Box.contains]; omega
  have := h2 _ hall
  simp only [Box.contains] at hc
  simp only [State.differs] at hd
  simp only [Box.inside]
  simp only at this
  omega

/-- The pixels of a box inside a framebuffer whose cells all hold values: there are as many as the box has cells, and
the one of cell `(x, y)` stands at its place in row order, expanded (R169). -/
theorem boxPixels_spec {s : State} {b : Box} (hf : Filled s.cfg s.cur) (hb : b.inside s) :
    ∃ pixels, s.boxPixels b = some pixels ∧
      pixels.length = (b.xmax - b.xmin + 1) * (b.ymax - b.ymin + 1) ∧
      ∀ x y, b.contains x y →
        pixels[(y - b.ymin) * (b.xmax - b.xmin + 1) + (x - b.xmin)]? =
          (Memory.read s.cur (s.cellIndex x y)).map s.cfg.expand := by
  simp only [Box.inside] at hb
  obtain ⟨vs, hvs⟩ := Memory.readAll_isSome (m := s.cur) (as := b.cells.map fun p => s.cellIndex p.1 p.2)
    (by
      intro a ha
      obtain ⟨p, hp, rfl⟩ := List.mem_map.1 ha
      have := mem_cellsFrom.1 hp
      exact hf _ (State.cellIndex_lt (by omega) (by omega)))
  refine ⟨vs.map s.cfg.expand, by simp [State.boxPixels, hvs], ?_, fun x y hc => ?_⟩
  · rw [List.length_map, Memory.readAll_length hvs, List.length_map]
    exact cellsFrom_length _ _ _ _
  · simp only [Box.contains] at hc
    have hcell := cellsFrom_getElem? (x0 := b.xmin) (y0 := b.ymin) (w := b.xmax - b.xmin + 1)
      (h := b.ymax - b.ymin + 1) (dx := x - b.xmin) (dy := y - b.ymin) (by omega) (by omega)
    rw [List.getElem?_map, Memory.readAll_getElem? hvs, List.getElem?_map, Box.cells, hcell]
    simp only [Option.map_some, Option.bind_some]
    rw [show b.xmin + (x - b.xmin) = x by omega, show b.ymin + (y - b.ymin) = y by omega]

end Sys2Proof.Machine
end

