-- ==== Sys2Proof/Laws/Codec.lean ====
section
/-! SUPPORT. The laws of the codec: a field of a command word is what it was put together from, and an operand read
back from its encoding is the operand. -/

namespace Sys2Proof

@[simp] theorem opField_commandWord (op : Byte) (a0 a1 a2 a3 : HalfWord) : opField (commandWord op a0 a1 a2 a3) = op := by
  apply BitVec.eq_of_getLsbD_eq; intro i hi
  simp only [opField, commandWord, BitVec.getLsbD_extractLsb', BitVec.getLsbD_append]
  simp [hi, show ¬ (64 + i < 16) by omega, show ¬ (64 + i - 16 < 16) by omega, show ¬ (64 + i - 16 - 16 < 16) by omega,
    show ¬ (64 + i - 16 - 16 - 16 < 16) by omega, show 64 + i - 16 - 16 - 16 - 16 = i by omega]

@[simp] theorem a0Field_commandWord (op : Byte) (a0 a1 a2 a3 : HalfWord) : a0Field (commandWord op a0 a1 a2 a3) = a0 := by
  apply BitVec.eq_of_getLsbD_eq; intro i hi
  simp only [a0Field, commandWord, BitVec.getLsbD_extractLsb', BitVec.getLsbD_append]
  simp [hi, show ¬ (48 + i < 16) by omega, show ¬ (48 + i - 16 < 16) by omega, show ¬ (48 + i - 16 - 16 < 16) by omega,
    show 48 + i - 16 - 16 - 16 = i by omega]

@[simp] theorem a1Field_commandWord (op : Byte) (a0 a1 a2 a3 : HalfWord) : a1Field (commandWord op a0 a1 a2 a3) = a1 := by
  apply BitVec.eq_of_getLsbD_eq; intro i hi
  simp only [a1Field, commandWord, BitVec.getLsbD_extractLsb', BitVec.getLsbD_append]
  simp [hi, show ¬ (32 + i < 16) by omega, show ¬ (32 + i - 16 < 16) by omega, show 32 + i - 16 - 16 = i by omega]

@[simp] theorem a2Field_commandWord (op : Byte) (a0 a1 a2 a3 : HalfWord) : a2Field (commandWord op a0 a1 a2 a3) = a2 := by
  apply BitVec.eq_of_getLsbD_eq; intro i hi
  simp only [a2Field, commandWord, BitVec.getLsbD_extractLsb', BitVec.getLsbD_append]
  simp [hi, show ¬ (16 + i < 16) by omega]

@[simp] theorem a3Field_commandWord (op : Byte) (a0 a1 a2 a3 : HalfWord) : a3Field (commandWord op a0 a1 a2 a3) = a3 := by
  apply BitVec.eq_of_getLsbD_eq; intro i hi
  simp only [a3Field, commandWord, BitVec.getLsbD_extractLsb', BitVec.getLsbD_append]
  simp [hi]

/-- A command word decodes by the fields it was put together from (R90). -/
@[simp] theorem decodeCommand_commandWord (op : Byte) (a0 a1 a2 a3 : HalfWord) :
    decodeCommand (commandWord op a0 a1 a2 a3) = decodeFields op a0 a1 a2 a3 := by simp [decodeCommand]

@[simp] theorem lenOperand_halves (len : Word) : lenOperand (len.extractLsb' 0 16) (len.extractLsb' 16 16) = len := by
  apply BitVec.eq_of_getLsbD_eq; intro i hi
  simp only [lenOperand, BitVec.getLsbD_extractLsb', BitVec.getLsbD_append]
  by_cases h : i < 16
  · simp [h]
  · simp [h, show i - 16 < 16 by omega, show 16 + (i - 16) = i by omega]

@[simp] theorem orientationOperand_field (v : Orientation) : orientationOperand (orientationField v) = v := by
  cases v <;> rfl

@[simp] theorem modeOperand_setWidth (mode : BitVec 1) : modeOperand (mode.setWidth 16) = mode := by
  revert mode; decide

@[simp] theorem brightnessOperand_setWidth (value : Byte) : brightnessOperand (value.setWidth 16) = value := by
  apply BitVec.eq_of_getLsbD_eq; intro i hi
  simp [brightnessOperand, hi, show i < 16 by omega]

theorem wireHalf_join (v : HalfWord) : (v.extractLsb' 8 8 ++ v.extractLsb' 0 8 : HalfWord) = v := by
  apply BitVec.eq_of_getLsbD_eq; intro i hi
  simp only [BitVec.getLsbD_extractLsb', BitVec.getLsbD_append]
  by_cases h : i < 8
  · simp [h]
  · simp [h, show i - 8 < 8 by omega, show 8 + (i - 8) = i by omega]

theorem wirePixels_flatMap (pixels : List HalfWord) : wirePixels (pixels.flatMap wireHalf) = some pixels := by
  induction pixels with
  | nil => rfl
  | cons v vs ih =>
    simp only [List.flatMap_cons, wireHalf, List.cons_append, List.nil_append, wirePixels]
    rw [ih]; simp only [Option.map_some]
    rw [show (v.extractLsb' 8 8 ++ v.extractLsb' 0 8 : HalfWord) = v from wireHalf_join v]

end Sys2Proof
end

