-- ==== Sys2Proof/Laws/Driver.lean ====
section
/-! SUPPORT. What the Panel Driver's composed operations can do (41_panel_driver.md): `set_window` (R164), the sending
part of FLUSH (R167, R170) and the walk of INIT (R162, R163), when every event is answered `ok` and whatever is
answered. -/

namespace Sys2Proof.Machine

theorem pdCommand_of {op : Byte} {args : List Byte} {s : State} : BytesOnly s (pdCommand op args s).1 :=
  pdCommand_frame op args s

/-- The frame of `set_window`: `WIN` and the bus. -/
structure WindowOnly (s t : State) : Prop where
  outside : KeepsOutside s t
  payload : KeepsPayload s t
  pd : t.pd = s.pd
  orient : t.orient = s.orient
  cur : t.cur = s.cur
  snt : t.snt = s.snt
  rstN : t.rstN = s.rstN
  seqMode : t.seqMode = s.seqMode
  seqResults : t.seqResults = s.seqResults

theorem BytesOnly.windowOnly {s t : State} (h : BytesOnly s t) : WindowOnly s t :=
  ⟨h.bus.outside, ⟨h.bus.pb, h.prod8, h.prod16⟩, h.bus.driver.pd, h.bus.driver.orient, h.bus.driver.cur,
    h.bus.driver.snt, h.bus.driver.rstN, h.bus.seqMode, h.bus.seqResults⟩

theorem KeepsOutside.trans {a b c : State} (h : KeepsOutside a b) (g : KeepsOutside b c) : KeepsOutside a c :=
  ⟨g.1.trans h.1, g.2.trans h.2, g.3.trans h.3, g.4.trans h.4, g.5.trans h.5, g.6.trans h.6⟩

theorem KeepsPayload.trans {a b c : State} (h : KeepsPayload a b) (g : KeepsPayload b c) : KeepsPayload a c :=
  ⟨g.1.trans h.1, g.2.trans h.2, g.3.trans h.3⟩

theorem WindowOnly.trans {a b c : State} (h : WindowOnly a b) (g : WindowOnly b c) : WindowOnly a c :=
  ⟨h.outside.trans g.outside, h.payload.trans g.payload, g.pd.trans h.pd, g.orient.trans h.orient, g.cur.trans h.cur,
    g.snt.trans h.snt, g.rstN.trans h.rstN, g.seqMode.trans h.seqMode, g.seqResults.trans h.seqResults⟩

theorem setWin_window (w : Window) (s : State) : WindowOnly s { s with win := w } :=
  ⟨⟨rfl, rfl, rfl, rfl, rfl, rfl⟩, ⟨rfl, rfl, rfl⟩, rfl, rfl, rfl, rfl, rfl, rfl, rfl⟩

/-- `set_window` whatever is answered: it touches `WIN` and the bus; `WIN` is the new window exactly after `ok`, else
the old one (R164). -/
theorem setWindow_frame (w : Window) (s : State) :
    WindowOnly s (setWindow w s).1 ∧
      (((setWindow w s).2 = .ok ∧ (setWindow w s).1.win = w) ∨
        ((setWindow w s).2 ≠ .ok ∧ (setWindow w s).1.win = s.win)) := by
  unfold setWindow
  by_cases h1 : (pdCommand opcColumnRange (rangeBytes w.x0 w.x1) s).2 = .ok
  · rw [Run.andThen_of_ok h1]
    have f1 := pdCommand_frame opcColumnRange (rangeBytes w.x0 w.x1) s
    by_cases h2 : (pdCommand opcPageRange (rangeBytes w.y0 w.y1)
        (pdCommand opcColumnRange (rangeBytes w.x0 w.x1) s).1).2 = .ok
    · rw [Run.andThen_of_ok h2]
      have f2 := f1.trans (pdCommand_frame opcPageRange (rangeBytes w.y0 w.y1) _)
      exact ⟨f2.windowOnly.trans (setWin_window w _), .inl ⟨rfl, rfl⟩⟩
    · rw [Run.andThen_of_ne h2]
      have f2 := f1.trans (pdCommand_frame opcPageRange (rangeBytes w.y0 w.y1) _)
      exact ⟨f2.windowOnly, .inr ⟨h2, f2.bus.driver.win⟩⟩
  · rw [Run.andThen_of_ne h1]
    have f1 := pdCommand_frame opcColumnRange (rangeBytes w.x0 w.x1) s
    exact ⟨f1.windowOnly, .inr ⟨h1, f1.bus.driver.win⟩⟩

/-- `set_window` when every event is answered `ok` (R164). -/
theorem setWindow_ok {s : State} (hok : AllOk s) (hc : 0 < s.cfg.chunkBytes) (w : Window) :
    ∃ t, setWindow w s = (t, .ok) ∧
      t.history = s.history ++ (transactionEvents s.cfg opcColumnRange (rangeBytes w.x0 w.x1) ++
        transactionEvents s.cfg opcPageRange (rangeBytes w.y0 w.y1)) ∧
      t.panel = takeTransaction s opcPageRange (rangeBytes w.y0 w.y1)
        (takeTransaction s opcColumnRange (rangeBytes w.x0 w.x1) s.panel) ∧
      t.dc = s.cfg.dcData ∧ t.win = w ∧
      (∀ a, min s.cfg.chunkBytes 4 ≤ a → Memory.read t.cb a = Memory.read s.cb a) ∧
      AllOk t ∧ WindowOnly s t := by
  obtain ⟨u, h1, h2, h3, h4, hcb, h5, h6⟩ := pdCommand_ok hok hc opcColumnRange (rangeBytes w.x0 w.x1)
  have hcfg := h6.bus.outside.cfg
  obtain ⟨t, g1, g2, g3, g4, gcb, g5, g6⟩ :=
    pdCommand_ok h5 (by rw [hcfg]; exact hc) opcPageRange (rangeBytes w.y0 w.y1)
  have hlen : ∀ a b, (rangeBytes a b).length = 4 := fun _ _ => rfl
  have hf := (h6.trans g6).windowOnly
  refine ⟨{ t with win := w }, ?_, ?_, ?_, ?_, rfl, fun a ha => ?_, g5,
    hf.trans (setWin_window w t)⟩
  · unfold setWindow
    rw [h1, Run.andThen_of_ok rfl, g1, Run.andThen_of_ok rfl]
  · show t.history = _
    rw [g2, h2, hcfg, List.append_assoc]
  · show t.panel = _
    rw [g3, h3]
    simp [takeTransaction, hcfg, h6.bus.width, h6.bus.height]
  · show t.dc = _
    rw [g4, hcfg]; simp [rangeBytes, ser16]
  · show Memory.read t.cb a = _
    rw [gcb a (by rw [hcfg, hlen]; omega), hcb a (by rw [hlen]; omega)]

/-- The sending part of FLUSH whatever is answered: `cur` never changes; `snt` becomes `cur` exactly after `ok`, else
it stays (R170). -/
theorem flushBox_frame (b : Box) (pixels : List HalfWord) (s : State) :
    (flushBox b pixels s).1.cur = s.cur ∧ (flushBox b pixels s).1.orient = s.orient ∧
      (flushBox b pixels s).1.pd = s.pd ∧ (flushBox b pixels s).1.rstN = s.rstN ∧
      KeepsOutside s (flushBox b pixels s).1 ∧ KeepsPayload s (flushBox b pixels s).1 ∧
      (flushBox b pixels s).1.seqMode = s.seqMode ∧ (flushBox b pixels s).1.seqResults = s.seqResults ∧
      (((flushBox b pixels s).2 = .ok ∧ (flushBox b pixels s).1.snt = s.cur) ∨
        ((flushBox b pixels s).2 ≠ .ok ∧ (flushBox b pixels s).1.snt = s.snt)) := by
  have pack : ∀ {r : Run}, WindowOnly s r.1 → r.2 ≠ .ok → r.1.cur = s.cur ∧ r.1.orient = s.orient ∧ r.1.pd = s.pd ∧
      r.1.rstN = s.rstN ∧ KeepsOutside s r.1 ∧ KeepsPayload s r.1 ∧ r.1.seqMode = s.seqMode ∧
      r.1.seqResults = s.seqResults ∧ ((r.2 = .ok ∧ r.1.snt = s.cur) ∨ (r.2 ≠ .ok ∧ r.1.snt = s.snt)) :=
    fun h hne => ⟨h.cur, h.orient, h.pd, h.rstN, h.outside, h.payload, h.seqMode, h.seqResults, .inr ⟨hne, h.snt⟩⟩
  unfold flushBox
  have f1 := (setWindow_frame b.window s).1
  by_cases h1 : (setWindow b.window s).2 = .ok
  · rw [Run.andThen_of_ok h1]
    have f2 := f1.trans (sendBytes_frame .command [opcMemoryWrite] (setWindow b.window s).1).windowOnly
    by_cases h2 : (sendBytes .command [opcMemoryWrite] (setWindow b.window s).1).2 = .ok
    · rw [Run.andThen_of_ok h2]
      have f3 := f2.trans (sendBytes_frame .data (serAll .be pixels)
        (sendBytes .command [opcMemoryWrite] (setWindow b.window s).1).1).windowOnly
      by_cases h3 : (sendBytes .data (serAll .be pixels)
          (sendBytes .command [opcMemoryWrite] (setWindow b.window s).1).1).2 = .ok
      · rw [Run.andThen_of_ok h3]
        exact ⟨f3.cur, f3.orient, f3.pd, f3.rstN, ⟨f3.1.1, f3.1.2, f3.1.3, f3.1.4, f3.1.5, f3.1.6⟩,
          ⟨f3.2.1, f3.2.2, f3.2.3⟩, f3.seqMode, f3.seqResults, .inl ⟨rfl, f3.cur⟩⟩
      · rw [Run.andThen_of_ne h3]; exact pack f3 h3
    · rw [Run.andThen_of_ne h2]; exact pack f2 h2
  · rw [Run.andThen_of_ne h1]; exact pack f1 h1

/-- The sending part of FLUSH when every event is answered `ok` (R167, R169, R170). -/
theorem flushBox_ok {s : State} (hok : AllOk s) (hc : 0 < s.cfg.chunkBytes) (b : Box) {pixels : List HalfWord}
    (hp : pixels ≠ []) :
    ∃ t, flushBox b pixels s = (t, .ok) ∧
      t.history = s.history ++ (transactionEvents s.cfg opcColumnRange (rangeBytes b.window.x0 b.window.x1) ++
        transactionEvents s.cfg opcPageRange (rangeBytes b.window.y0 b.window.y1) ++
        transactionEvents s.cfg opcMemoryWrite (serAll .be pixels)) ∧
      t.panel = takeTransaction s opcMemoryWrite (serAll .be pixels)
        (takeTransaction s opcPageRange (rangeBytes b.window.y0 b.window.y1)
          (takeTransaction s opcColumnRange (rangeBytes b.window.x0 b.window.x1) s.panel)) ∧
      t.dc = s.cfg.dcData ∧ t.win = b.window ∧ t.snt = s.cur ∧
      (∀ a, min s.cfg.chunkBytes (max 4 (2 * pixels.length)) ≤ a → Memory.read t.cb a = Memory.read s.cb a) ∧
      AllOk t := by
  have hpos : 0 < pixels.length := List.length_pos_iff.2 hp
  have hne : serAll .be pixels ≠ [] := fun h => by
    have := congrArg List.length h; rw [serAll_length, List.length_nil] at this; omega
  obtain ⟨u, h1, h2, h3, h4, hwin, hcb, h5, h6⟩ := setWindow_ok hok hc b.window
  have hcfg := h6.outside.cfg
  obtain ⟨v, i1, i2, i3, i4, icb, i5, i6⟩ := sendBytes_ok h5 (by rw [hcfg]; exact hc) .command [opcMemoryWrite]
  have icfg := i6.bus.outside.cfg
  obtain ⟨t, g1, g2, g3, g4, gcb, g5, g6⟩ :=
    sendBytes_ok i5 (by rw [icfg, hcfg]; exact hc) .data (serAll .be pixels)
  refine ⟨{ t with snt := t.cur }, ?_, ?_, ?_, ?_, ?_, ?_, fun a ha => ?_, g5⟩
  · unfold flushBox
    rw [h1, Run.andThen_of_ok rfl, i1, Run.andThen_of_ok rfl, g1, Run.andThen_of_ok rfl]
  · show t.history = _
    rw [g2, i2, h2, icfg, hcfg]
    simp [transactionEvents, hne]
  · show t.panel = _
    rw [g3]
    have hw : u.width = s.width := by simp [State.width, hcfg, h6.orient]
    have hh : u.height = s.height := by simp [State.height, hcfg, h6.orient]
    simp [panelAfter, takeTransaction, i3, h3, icfg, hcfg, i6.bus.width, i6.bus.height, hw, hh, Config.level]
  · show t.dc = _
    rw [g4, icfg, hcfg]; rfl
  · show t.win = _
    rw [g6.bus.driver.win, i6.bus.driver.win, hwin]
  · show t.cur = _
    rw [g6.bus.driver.cur, i6.bus.driver.cur, h6.cur]
  · show Memory.read t.cb a = _
    rw [gcb a (by rw [icfg, hcfg, serAll_length]; omega),
      icb a (by rw [hcfg]; simp only [List.length_singleton]; omega), hcb a (by omega)]

/-- What INIT's walk keeps, whatever is answered, once its first writes are made. -/
structure WalkOnly (s t : State) : Prop where
  outside : KeepsOutside s t
  payload : KeepsPayload s t
  orient : t.orient = s.orient
  win : t.win = s.win
  cur : t.cur = s.cur
  snt : t.snt = s.snt
  seqMode : t.seqMode = s.seqMode
  seqResults : t.seqResults = s.seqResults

theorem WalkOnly.trans {a b c : State} (h : WalkOnly a b) (g : WalkOnly b c) : WalkOnly a c :=
  ⟨h.outside.trans g.outside, h.payload.trans g.payload, g.orient.trans h.orient, g.win.trans h.win, g.cur.trans h.cur,
    g.snt.trans h.snt, g.seqMode.trans h.seqMode, g.seqResults.trans h.seqResults⟩

theorem BytesOnly.walkOnly {s t : State} (h : BytesOnly s t) : WalkOnly s t :=
  ⟨h.bus.outside, ⟨h.bus.pb, h.prod8, h.prod16⟩, h.bus.driver.orient, h.bus.driver.win, h.bus.driver.cur,
    h.bus.driver.snt, h.bus.seqMode, h.bus.seqResults⟩

theorem setPd_walk (p : PdState) (s : State) : WalkOnly s { s with pd := p } :=
  ⟨⟨rfl, rfl, rfl, rfl, rfl, rfl⟩, ⟨rfl, rfl, rfl⟩, rfl, rfl, rfl, rfl, rfl, rfl⟩

theorem emitRst_walk (l : BitVec 1) (s : State) : WalkOnly s (emitRst l s).1 :=
  ⟨⟨rfl, rfl, rfl, rfl, rfl, rfl⟩, ⟨rfl, rfl, rfl⟩, rfl, rfl, rfl, rfl, rfl, rfl⟩

/-- The four parts of INIT's walk: what each keeps, and that it enters the next `PD_STATE` exactly after `ok`
(R25, R163). -/
theorem initResetting_frame (s : State) :
    WalkOnly s (initResetting s).1 ∧ (((initResetting s).2 = .ok ∧ (initResetting s).1.pd = .softwareReset) ∨
      ((initResetting s).2 ≠ .ok ∧ (initResetting s).1.pd = s.pd)) := by
  unfold initResetting
  by_cases h1 : (emitRst 0 s).2 = .ok
  · rw [Run.andThen_of_ok h1]
    have f2 := (emitRst_walk 0 s).trans ((emitDly_frame s.cfg.tRstLow (emitRst 0 s).1).walkOnly.trans (emitRst_walk 1 _))
    by_cases h2 : (emitRst 1 (emitDly s.cfg.tRstLow (emitRst 0 s).1)).2 = .ok
    · rw [Run.andThen_of_ok h2]
      exact ⟨f2.trans ((emitDly_frame _ _).walkOnly.trans (setPd_walk _ _)), .inl ⟨rfl, rfl⟩⟩
    · rw [Run.andThen_of_ne h2]; exact ⟨f2, .inr ⟨h2, rfl⟩⟩
  · rw [Run.andThen_of_ne h1]; exact ⟨emitRst_walk 0 s, .inr ⟨h1, rfl⟩⟩

theorem initSoftwareReset_frame (s : State) :
    WalkOnly s (initSoftwareReset s).1 ∧
      (((initSoftwareReset s).2 = .ok ∧ (initSoftwareReset s).1.pd = .configuringFormat) ∨
        ((initSoftwareReset s).2 ≠ .ok ∧ (initSoftwareReset s).1.pd = s.pd)) := by
  unfold initSoftwareReset
  have f1 := pdCommand_frame opcSoftwareReset [] s
  by_cases h1 : (pdCommand opcSoftwareReset [] s).2 = .ok
  · rw [Run.andThen_of_ok h1]
    exact ⟨f1.walkOnly.trans ((emitDly_frame _ _).walkOnly.trans (setPd_walk _ _)), .inl ⟨rfl, rfl⟩⟩
  · rw [Run.andThen_of_ne h1]; exact ⟨f1.walkOnly, .inr ⟨h1, f1.bus.driver.pd⟩⟩

theorem initConfiguring_frame (v : Orientation) (s : State) :
    WalkOnly s (initConfiguring v s).1 ∧
      (((initConfiguring v s).2 = .ok ∧ (initConfiguring v s).1.pd = .wakingFromSleep) ∨
        ((initConfiguring v s).2 ≠ .ok ∧ (initConfiguring v s).1.pd = s.pd)) := by
  unfold initConfiguring
  have f1 := pdCommand_frame opcMemoryAccessControl [s.cfg.madctl v] s
  by_cases h1 : (pdCommand opcMemoryAccessControl [s.cfg.madctl v] s).2 = .ok
  · rw [Run.andThen_of_ok h1]
    have f2 := f1.trans (pdCommand_frame opcPixelFormat [s.cfg.pixfmt16bpp] _)
    by_cases h2 : (pdCommand opcPixelFormat [s.cfg.pixfmt16bpp]
        (pdCommand opcMemoryAccessControl [s.cfg.madctl v] s).1).2 = .ok
    · rw [Run.andThen_of_ok h2]
      exact ⟨f2.walkOnly.trans ((emitDly_frame _ _).walkOnly.trans (setPd_walk _ _)), .inl ⟨rfl, rfl⟩⟩
    · rw [Run.andThen_of_ne h2]; exact ⟨f2.walkOnly, .inr ⟨h2, f2.bus.driver.pd⟩⟩
  · rw [Run.andThen_of_ne h1]; exact ⟨f1.walkOnly, .inr ⟨h1, f1.bus.driver.pd⟩⟩

theorem initWaking_frame (s : State) :
    WalkOnly s (initWaking s).1 ∧ (((initWaking s).2 = .ok ∧ (initWaking s).1.pd = .ready) ∨
      ((initWaking s).2 ≠ .ok ∧ (initWaking s).1.pd = s.pd)) := by
  unfold initWaking
  have f1 := pdCommand_frame opcSleepOff [] s
  by_cases h1 : (pdCommand opcSleepOff [] s).2 = .ok
  · rw [Run.andThen_of_ok h1]
    have f2 := f1.trans ((emitDly_frame s.cfg.tWake _).trans (pdCommand_frame opcDisplayOn [] _))
    by_cases h2 : (pdCommand opcDisplayOn [] (emitDly s.cfg.tWake (pdCommand opcSleepOff [] s).1)).2 = .ok
    · rw [Run.andThen_of_ok h2]
      exact ⟨f2.walkOnly.trans (setPd_walk _ _), .inl ⟨rfl, rfl⟩⟩
    · rw [Run.andThen_of_ne h2]; exact ⟨f2.walkOnly, .inr ⟨h2, f2.bus.driver.pd⟩⟩
  · rw [Run.andThen_of_ne h1]; exact ⟨f1.walkOnly, .inr ⟨h1, f1.bus.driver.pd⟩⟩

/-- INIT's walk: it ends `ok` exactly in `Ready`, and never back in `Uninitialized` (R25, R163). -/
theorem initSequence_frame (v : Orientation) (s : State) :
    WalkOnly (initStart v s) (initSequence v s).1 ∧
      ((initSequence v s).2 = .ok ↔ (initSequence v s).1.pd = .ready) ∧
      (initSequence v s).1.pd ≠ .uninitialized := by
  unfold initSequence
  obtain ⟨f1, c1⟩ := initResetting_frame (initStart v s)
  rcases c1 with ⟨h1, p1⟩ | ⟨h1, p1⟩
  · rw [Run.andThen_of_ok h1]
    obtain ⟨f2, c2⟩ := initSoftwareReset_frame (initResetting (initStart v s)).1
    rcases c2 with ⟨h2, p2⟩ | ⟨h2, p2⟩
    · rw [Run.andThen_of_ok h2]
      obtain ⟨f3, c3⟩ := initConfiguring_frame v (initSoftwareReset (initResetting (initStart v s)).1).1
      rcases c3 with ⟨h3, p3⟩ | ⟨h3, p3⟩
      · rw [Run.andThen_of_ok h3]
        obtain ⟨f4, c4⟩ := initWaking_frame (initConfiguring v (initSoftwareReset (initResetting (initStart v s)).1).1).1
        rcases c4 with ⟨h4, p4⟩ | ⟨h4, p4⟩
        · exact ⟨((f1.trans f2).trans f3).trans f4, by simp [h4, p4], by simp [p4]⟩
        · exact ⟨((f1.trans f2).trans f3).trans f4, by simp [h4, p4, p3], by simp [p4, p3]⟩
      · rw [Run.andThen_of_ne h3]
        exact ⟨(f1.trans f2).trans f3, by simp [h3, p3, p2], by simp [p3, p2]⟩
    · rw [Run.andThen_of_ne h2]
      exact ⟨f1.trans f2, by simp [h2, p2, p1], by simp [p2, p1]⟩
  · rw [Run.andThen_of_ne h1]
    rw [show (initStart v s).pd = .resetting from rfl] at p1
    exact ⟨f1, by simp [h1, p1], by simp [p1]⟩

/-- INIT's walk when every event is answered `ok` (R162): the reset pulse, five transactions, five delays. -/
theorem initSequence_ok {s : State} (hok : AllOk s) (hc : 0 < s.cfg.chunkBytes) (v : Orientation) :
    ∃ t, initSequence v s = (t, .ok) ∧
      t.history = s.history ++ ([.rst 0 .ok, .dly s.cfg.tRstLow, .rst 1 .ok, .dly s.cfg.tRstSettle] ++
        transactionEvents s.cfg opcSoftwareReset [] ++ [.dly s.cfg.tSwReset] ++
        transactionEvents s.cfg opcMemoryAccessControl [s.cfg.madctl v] ++
        transactionEvents s.cfg opcPixelFormat [s.cfg.pixfmt16bpp] ++ [.dly s.cfg.tCfg] ++
        transactionEvents s.cfg opcSleepOff [] ++ [.dly s.cfg.tWake] ++ transactionEvents s.cfg opcDisplayOn []) ∧
      t.panel = takeTransaction (initStart v s) opcDisplayOn [] (takeTransaction (initStart v s) opcSleepOff []
        (takeTransaction (initStart v s) opcPixelFormat [s.cfg.pixfmt16bpp]
          (takeTransaction (initStart v s) opcMemoryAccessControl [s.cfg.madctl v]
            (takeTransaction (initStart v s) opcSoftwareReset [] s.panel.afterReset)))) ∧
      t.dc = s.cfg.dcCmd ∧ t.rstN = 1 ∧ t.pd = .ready ∧
      (∀ a, min s.cfg.chunkBytes 1 ≤ a → Memory.read t.cb a = Memory.read s.cb a) ∧ AllOk t := by
  have tt : ∀ {a b : State} (op : Byte) (args : List Byte) (p : Panel), WalkOnly a b →
      takeTransaction b op args p = takeTransaction a op args p := fun op args p h => by
    simp [takeTransaction, h.outside.cfg, State.width, State.height, h.orient]
  -- the reset pulse
  let r1 := (emitRst 0 (initStart v s)).1
  let r2 := (emitRst 1 (emitDly s.cfg.tRstLow r1)).1
  let r3 : State := { emitDly s.cfg.tRstSettle r2 with pd := .softwareReset }
  have ok0 : AllOk (initStart v s) := AllOk.of_eq hok rfl
  have ok1 : AllOk r1 := AllOk.tail ok0 rfl
  have ok2 : AllOk r2 := AllOk.tail ok1 rfl
  have ok3 : AllOk r3 := AllOk.of_eq ok2 rfl
  have n0 := nextAnswer_of_allOk ok0
  have n1 : (emitDly s.cfg.tRstLow r1).nextAnswer = .ok := nextAnswer_of_allOk (AllOk.of_eq ok1 rfl)
  have e1 : initResetting (initStart v s) = (r3, .ok) := by
    unfold initResetting
    rw [Run.andThen_of_ok (by rw [emitRst_reply, n0]; rfl)]
    show Run.andThen (emitRst 1 (emitDly s.cfg.tRstLow r1)) _ = _
    rw [Run.andThen_of_ok (by rw [emitRst_reply, n1]; rfl)]
    rfl
  have w3 : WalkOnly (initStart v s) r3 := by
    have := (initResetting_frame (initStart v s)).1; rw [e1] at this; exact this
  have p3 : r3.panel = s.panel.afterReset := rfl
  have h3 : r3.history =
      s.history ++ [.rst 0 .ok, .dly s.cfg.tRstLow, .rst 1 .ok, .dly s.cfg.tRstSettle] := by
    show (((s.history ++ [.rst 0 (initStart v s).nextAnswer]) ++ [.dly s.cfg.tRstLow]) ++
      [.rst 1 (emitDly s.cfg.tRstLow r1).nextAnswer]) ++ [.dly s.cfg.tRstSettle] = _
    rw [n0, n1]; simp
  have rst3 : r3.rstN = 1 := by
    show (emitDly s.cfg.tRstLow r1).nextAnswer.settle 1 = 1
    rw [n1]; rfl
  have cb3 : r3.cb = s.cb := rfl
  have cfg3 : r3.cfg = s.cfg := rfl
  -- the five transactions
  obtain ⟨a, a1, a2, a3, a4, acb, aok, af⟩ := pdCommand_ok ok3 hc opcSoftwareReset []
  have acfg : a.cfg = s.cfg := af.bus.outside.cfg.trans cfg3
  let b : State := { emitDly s.cfg.tSwReset a with pd := .configuringFormat }
  have bw : WalkOnly (initStart v s) b :=
    w3.trans (af.walkOnly.trans ((emitDly_frame _ _).walkOnly.trans (setPd_walk _ _)))
  have bcfg : b.cfg = s.cfg := acfg
  obtain ⟨c, c1, c2, c3, c4, ccb, cok, cf⟩ :=
    pdCommand_ok (s := b) (AllOk.of_eq aok rfl) (by rw [bcfg]; exact hc) opcMemoryAccessControl [s.cfg.madctl v]
  have ccfg : c.cfg = s.cfg := cf.bus.outside.cfg.trans bcfg
  have cw : WalkOnly (initStart v s) c := bw.trans cf.walkOnly
  obtain ⟨d, d1, d2, d3, d4, dcb, dok, df⟩ :=
    pdCommand_ok cok (by rw [ccfg]; exact hc) opcPixelFormat [s.cfg.pixfmt16bpp]
  have dcfg : d.cfg = s.cfg := df.bus.outside.cfg.trans ccfg
  let e : State := { emitDly s.cfg.tCfg d with pd := .wakingFromSleep }
  have ew : WalkOnly (initStart v s) e :=
    cw.trans (df.walkOnly.trans ((emitDly_frame _ _).walkOnly.trans (setPd_walk _ _)))
  have ecfg : e.cfg = s.cfg := dcfg
  obtain ⟨f, f1, f2, f3, f4, fcb, fok, ff⟩ :=
    pdCommand_ok (s := e) (AllOk.of_eq dok rfl) (by rw [ecfg]; exact hc) opcSleepOff []
  have fcfg : f.cfg = s.cfg := ff.bus.outside.cfg.trans ecfg
  let g : State := emitDly s.cfg.tWake f
  have gw : WalkOnly (initStart v s) g := ew.trans (ff.walkOnly.trans (emitDly_frame _ _).walkOnly)
  have gcfg : g.cfg = s.cfg := fcfg
  obtain ⟨t, t1, t2, t3, t4, tcb, tok, tf⟩ :=
    pdCommand_ok (s := g) (AllOk.of_eq fok rfl) (by rw [gcfg]; exact hc) opcDisplayOn []
  have one : ∀ x : Byte, ([x] : List Byte).length = 1 := fun _ => rfl
  refine ⟨{ t with pd := .ready }, ?_, ?_, ?_, ?_, ?_, rfl, fun i hi => ?_, AllOk.of_eq tok rfl⟩
  · unfold initSequence
    rw [e1, Run.andThen_of_ok rfl]
    have e2 : initSoftwareReset r3 = (b, .ok) := by
      unfold initSoftwareReset; rw [a1, Run.andThen_of_ok rfl]; rfl
    rw [e2, Run.andThen_of_ok rfl]
    have e3 : initConfiguring v b = (e, .ok) := by
      unfold initConfiguring
      rw [show b.cfg.madctl v = s.cfg.madctl v by rw [bcfg], c1, Run.andThen_of_ok rfl]
      show Run.andThen (pdCommand opcPixelFormat [b.cfg.pixfmt16bpp] c) _ = _
      rw [show b.cfg.pixfmt16bpp = s.cfg.pixfmt16bpp by rw [bcfg], d1, Run.andThen_of_ok rfl]
      show (({ emitDly b.cfg.tCfg d with pd := .wakingFromSleep }, .ok) : Run) = _
      rw [show b.cfg.tCfg = s.cfg.tCfg by rw [bcfg]]
    rw [e3, Run.andThen_of_ok rfl]
    unfold initWaking
    rw [f1, Run.andThen_of_ok rfl]
    show Run.andThen (pdCommand opcDisplayOn [] (emitDly e.cfg.tWake f)) _ = _
    rw [show e.cfg.tWake = s.cfg.tWake by rw [ecfg]]
    show Run.andThen (pdCommand opcDisplayOn [] g) _ = _
    rw [t1, Run.andThen_of_ok rfl]
  · show t.history = _
    rw [t2, show g.history = f.history ++ [.dly s.cfg.tWake] from rfl, f2,
      show e.history = d.history ++ [.dly s.cfg.tCfg] from rfl, d2, c2,
      show b.history = a.history ++ [.dly s.cfg.tSwReset] from rfl, a2, h3, gcfg, ecfg, ccfg, bcfg, cfg3]
    simp only [List.append_assoc, List.cons_append, List.nil_append]
  · show t.panel = _
    rw [t3, tt _ _ _ gw, show g.panel = f.panel from rfl, f3, tt _ _ _ ew, show e.panel = d.panel from rfl, d3,
      tt _ _ _ cw, c3, tt _ _ _ bw, show b.panel = a.panel from rfl, a3, tt _ _ _ w3, p3]
  · show t.dc = _
    rw [t4, gcfg]; rfl
  · show t.rstN = 1
    rw [tf.bus.driver.rstN, show g.rstN = f.rstN from rfl, ff.bus.driver.rstN, show e.rstN = d.rstN from rfl,
      df.bus.driver.rstN, cf.bus.driver.rstN, show b.rstN = a.rstN from rfl, af.bus.driver.rstN, rst3]
  · show Memory.read t.cb i = _
    simp only [List.length_nil, one, gcfg, ecfg, ccfg, bcfg, cfg3] at acb ccb dcb fcb tcb
    rw [tcb i (by omega), show g.cb = f.cb from rfl, fcb i (by omega), show e.cb = d.cb from rfl, dcb i (by omega),
      ccb i (by omega), show b.cb = a.cb from rfl, acb i (by omega), cb3]

end Sys2Proof.Machine
end

