-- ==== Sys2Proof/Laws/Events.lean ====
section
/-! SUPPORT. The events of the parts of an operation (10_state.md R36, 20_memory.md R62, R63): that the lines and the
panel are what the events make of them, and that the first event not answered `ok` cuts the part's events there. -/

namespace Sys2Proof.Machine

/-! ### The lines and the panel follow the events -/

/-- `t` comes after `s` by further events, and its lines and its panel are what these make of `s`'s. -/
def Follows (s t : State) : Prop :=
  t.cfg = s.cfg ∧ t.width = s.width ∧ t.height = s.height ∧
    ∃ es, t.history = s.history ++ es ∧
      (t.panel, t.dc, t.rstN) = es.foldl (playEvent s.cfg s.width s.height) (s.panel, s.dc, s.rstN)

theorem Follows.refl (s : State) : Follows s s := ⟨rfl, rfl, rfl, [], by simp, rfl⟩

theorem Follows.trans {a b c : State} (h : Follows a b) (g : Follows b c) : Follows a c := by
  obtain ⟨h1, h2, h3, es, h4, h5⟩ := h
  obtain ⟨g1, g2, g3, fs, g4, g5⟩ := g
  refine ⟨g1.trans h1, g2.trans h2, g3.trans h3, es ++ fs, by rw [g4, h4, List.append_assoc], ?_⟩
  rw [g5, h1, h2, h3, List.foldl_append, h5]

theorem emitDc_follows (l : BitVec 1) (s : State) : Follows s (emitDc l s).1 :=
  ⟨rfl, rfl, rfl, [.dc l s.nextAnswer], rfl, by
    rw [List.foldl_cons, List.foldl_nil, emitDc_dc]; cases s.nextAnswer <;> rfl⟩

theorem emitRst_follows (l : BitVec 1) (s : State) : Follows s (emitRst l s).1 :=
  ⟨rfl, rfl, rfl, [.rst l s.nextAnswer], rfl, by
    rw [List.foldl_cons, List.foldl_nil, emitRst_rstN]; cases s.nextAnswer <;> rfl⟩

theorem emitWr_follows (bytes : List Byte) (s : State) : Follows s (emitWr bytes s).1 :=
  ⟨rfl, rfl, rfl, [.wr bytes s.nextAnswer], rfl, by
    rw [List.foldl_cons, List.foldl_nil, emitWr_panel]; cases s.nextAnswer <;> rfl⟩

theorem emitDly_follows (t : Nat) (s : State) : Follows s (emitDly t s) := ⟨rfl, rfl, rfl, [.dly t], rfl, rfl⟩

/-- Pulling and staging emit nothing and touch no line. -/
theorem fill_follows (n : Nat) (s : State) (src : Source) : Follows s (src.fill n s).1 := by
  cases src <;> simp only [Source.fill] <;> (try split) <;> exact Follows.refl _

theorem stage_follows (chunk : List Byte) (s : State) : Follows s (stage chunk s) := Follows.refl _

theorem writeStream_follows (fuel left : Nat) (src : Source) (s : State) :
    Follows s (writeStream fuel left src s).1 := by
  induction fuel generalizing left src s with
  | zero => exact Follows.refl s
  | succ fuel ih =>
    have hf := fill_follows (min s.cfg.chunkBytes left) s src
    unfold writeStream
    split
    · exact Follows.refl s
    · split
      · rename_i s1 e; rwa [e] at hf
      · rename_i s1 chunk src1 e
        rw [e] at hf
        exact Run.andThen_rel Follows Follows.trans
          (hf.trans ((stage_follows chunk s1).trans (emitWr_follows _ _))) fun _ => ih _ _ _

theorem tcSend_follows (ph : Phase) (src : Source) (total : Nat) (s : State) : Follows s (tcSend ph src total s).1 :=
  Run.andThen_rel Follows Follows.trans (emitDc_follows _ s) fun _ => writeStream_follows _ _ _ _

theorem pdCommand_follows (op : Byte) (args : List Byte) (s : State) : Follows s (pdCommand op args s).1 := by
  refine Run.andThen_rel Follows Follows.trans (tcSend_follows _ _ _ s) fun _ => ?_
  split
  · exact Follows.refl _
  · exact tcSend_follows _ _ _ _

theorem setWindow_follows (w : Window) (s : State) : Follows s (setWindow w s).1 :=
  Run.andThen_rel Follows Follows.trans (pdCommand_follows _ _ s) fun _ =>
    Run.andThen_rel Follows Follows.trans (pdCommand_follows _ _ _) fun _ => Follows.refl _

theorem flushBox_follows (b : Box) (pixels : List HalfWord) (s : State) : Follows s (flushBox b pixels s).1 :=
  Run.andThen_rel Follows Follows.trans (setWindow_follows _ s) fun _ =>
    Run.andThen_rel Follows Follows.trans (tcSend_follows _ _ _ _) fun _ =>
      Run.andThen_rel Follows Follows.trans (tcSend_follows _ _ _ _) fun _ => Follows.refl _

/-- INIT's walk, from the orientation it starts with (R162). -/
theorem initSequence_follows (v : Orientation) (s : State) : Follows (initStart v s) (initSequence v s).1 := by
  have hdly : ∀ (t : Nat) (p : PdState) (u : State), Follows u { emitDly t u with pd := p } := fun t _ u =>
    emitDly_follows t u
  refine Run.andThen_rel Follows Follows.trans ?_ fun _ => Run.andThen_rel Follows Follows.trans ?_ fun _ =>
    Run.andThen_rel Follows Follows.trans ?_ fun _ => ?_
  · exact Run.andThen_rel Follows Follows.trans (emitRst_follows _ _) fun _ =>
      Run.andThen_rel Follows Follows.trans ((emitDly_follows _ _).trans (emitRst_follows _ _)) fun _ => hdly _ _ _
  · exact Run.andThen_rel Follows Follows.trans (pdCommand_follows _ _ _) fun _ => hdly _ _ _
  · exact Run.andThen_rel Follows Follows.trans (pdCommand_follows _ _ _) fun _ =>
      Run.andThen_rel Follows Follows.trans (pdCommand_follows _ _ _) fun _ => hdly _ _ _
  · exact Run.andThen_rel Follows Follows.trans (pdCommand_follows _ _ _) fun _ =>
      Run.andThen_rel Follows Follows.trans ((emitDly_follows _ _).trans (pdCommand_follows _ _ _)) fun _ =>
        Follows.refl _

/-! ### The first event not answered `ok` -/

/-- How many events of a list can fail. -/
def fallible (es : List Event) : Nat := (es.filterMap failureOf).length

@[simp] theorem fallible_nil : fallible [] = 0 := rfl

theorem fallible_append (es fs : List Event) : fallible (es ++ fs) = fallible es + fallible fs := by
  simp [fallible]

theorem cutAt_append_left (a : Answer) (fs : List Event) :
    ∀ (es : List Event) (n : Nat), n < fallible es → cutAt a n (es ++ fs) = cutAt a n es := by
  intro es
  induction es with
  | nil => intro n h; simp at h
  | cons e es ih =>
    intro n h
    cases e <;> cases n <;>
      simp only [fallible, List.filterMap_cons, failureOf, List.length_cons, List.cons_append, cutAt] at h ⊢
    all_goals rw [ih _ (by simp only [fallible]; omega)]

theorem cutAt_append_right (a : Answer) (fs : List Event) :
    ∀ (es : List Event) (n : Nat), fallible es ≤ n → cutAt a n (es ++ fs) = es ++ cutAt a (n - fallible es) fs := by
  intro es
  induction es with
  | nil => intro n _; simp
  | cons e es ih =>
    intro n h
    cases e <;> cases n <;>
      simp only [fallible, List.filterMap_cons, failureOf, List.length_cons, List.cons_append, cutAt] at h ⊢
    all_goals first
      | omega
      | (rw [ih _ (by simp only [fallible]; omega)]; simp only [fallible, Nat.add_sub_add_right])

/-- The state with other answers ahead. -/
def State.answered (l : List Answer) (s : State) : State := { s with answers := l }

/-- `n` answers `ok`, then `a`, then others. -/
def firstBad (n : Nat) (a : Answer) (rest : List Answer) : List Answer := List.replicate n .ok ++ a :: rest

/-- What a part, run from `s` with any answers ahead, does with its events: when all are answered `ok` it emits some; an
answer that is not `ok` cuts them there; one that comes later is left for the parts after it. -/
def Cuts (s : State) (f : List Answer → Run) : Prop :=
  ∃ es, (f []).1.history = s.history ++ es ∧ (f []).1.answers = [] ∧
    ∀ (n : Nat) (a : Answer) (rest : List Answer), a ≠ .ok →
      (∀ st, (es.filterMap failureOf)[n]? = some st →
        (f (firstBad n a rest)).1.history = s.history ++ cutAt a n es ∧ (f (firstBad n a rest)).1.answers = rest ∧
          (f (firstBad n a rest)).2 = a.reply st) ∧
      (fallible es ≤ n →
        f (firstBad n a rest) = ((f []).1.answered (firstBad (n - fallible es) a rest), (f []).2))

theorem reply_ne_ok {a : Answer} (h : a ≠ .ok) (st : Status) : a.reply st ≠ .ok := by
  cases a <;> simp_all [Answer.reply]

theorem answered_self {s : State} {l : List Answer} (h : s.answers = l) : s.answered l = s := by
  subst h; rfl

/-- A part that emits nothing and does not look at the answers. -/
theorem Cuts.silent {s u : State} {r : Reply} (h : u.history = s.history) (f : List Answer → Run)
    (hf : ∀ l, f l = (u.answered l, r)) : Cuts s f := by
  refine ⟨[], by rw [hf]; simpa [State.answered] using h, by rw [hf]; rfl, fun n a rest _ => ⟨nofun, fun _ => ?_⟩⟩
  rw [hf, hf]; rfl

/-- Both parts cut, so the whole does. -/
theorem Cuts.andThen {s : State} {f : List Answer → Run} {k : State → Run} (h : Cuts s f)
    (hk : ∀ u, Cuts u fun l => k (u.answered l)) : Cuts s fun l => (f l).andThen k := by
  obtain ⟨es, h1, h2, h3⟩ := h
  by_cases hr : (f []).2 = .ok
  · obtain ⟨fs, g1, g2, g3⟩ := hk (f []).1
    have hself := answered_self h2
    simp only [hself] at g1 g2 g3
    refine ⟨es ++ fs, by simp only [Run.andThen_of_ok hr]; rw [g1, h1, List.append_assoc],
      by simp only [Run.andThen_of_ok hr]; exact g2, fun n a rest ha => ⟨fun st hst => ?_, fun hn => ?_⟩⟩
    · by_cases hlt : n < fallible es
      · rw [List.filterMap_append, List.getElem?_append_left hlt] at hst
        obtain ⟨i1, i2, i3⟩ := (h3 n a rest ha).1 st hst
        simp only [Run.andThen_of_ne (show (f (firstBad n a rest)).2 ≠ .ok by rw [i3]; exact reply_ne_ok ha st)]
        exact ⟨by rw [i1, cutAt_append_left a fs es n hlt], i2, i3⟩
      · have hge : fallible es ≤ n := by omega
        rw [List.filterMap_append, List.getElem?_append_right hge] at hst
        have e := (h3 n a rest ha).2 hge
        obtain ⟨i1, i2, i3⟩ := (g3 (n - fallible es) a rest ha).1 st hst
        have run : (f (firstBad n a rest)).andThen k = k ((f []).1.answered (firstBad (n - fallible es) a rest)) := by
          rw [e]; exact Run.andThen_of_ok (r := ((f []).1.answered (firstBad (n - fallible es) a rest), (f []).2)) hr k
        simp only [run]
        exact ⟨by rw [i1, h1, cutAt_append_right a fs es n hge, List.append_assoc], i2, i3⟩
    · rw [fallible_append] at hn ⊢
      have e := (h3 n a rest ha).2 (by omega)
      have e2 := (g3 (n - fallible es) a rest ha).2 (by omega)
      simp only [Run.andThen_of_ok hr]
      rw [e, Run.andThen_of_ok (r := ((f []).1.answered (firstBad (n - fallible es) a rest), (f []).2)) hr k, e2, Nat.sub_sub]
  · refine ⟨es, by simp only [Run.andThen_of_ne hr]; exact h1, by simp only [Run.andThen_of_ne hr]; exact h2,
      fun n a rest ha => ⟨fun st hst => ?_, fun hn => ?_⟩⟩
    · obtain ⟨i1, i2, i3⟩ := (h3 n a rest ha).1 st hst
      simp only [Run.andThen_of_ne (show (f (firstBad n a rest)).2 ≠ .ok by rw [i3]; exact reply_ne_ok ha st)]
      exact ⟨i1, i2, i3⟩
    · have e := (h3 n a rest ha).2 hn
      simp only [Run.andThen_of_ne (show (f (firstBad n a rest)).2 ≠ .ok by rw [e]; exact hr), Run.andThen_of_ne hr]
      exact e

/-- What a part does after a delay. -/
theorem Cuts.delayed {s : State} {f : List Answer → Run} (t : Nat) (h : Cuts (emitDly t s) f) : Cuts s f := by
  obtain ⟨es, h1, h2, h3⟩ := h
  refine ⟨.dly t :: es, by rw [h1]; simp [emitDly], h2, fun n a rest ha => ⟨fun st hst => ?_, fun hn => ?_⟩⟩
  · obtain ⟨i1, i2, i3⟩ := (h3 n a rest ha).1 st hst
    exact ⟨by rw [i1]; simp [emitDly, cutAt], i2, i3⟩
  · exact (h3 n a rest ha).2 hn

/-- One event that can fail. -/
theorem Cuts.one {s : State} {f : List Answer → Run} (e : Answer → Event) (st : Status)
    (hfail : ∀ a, failureOf (e a) = some st) (hcut : ∀ a, cutAt a 0 [e .ok] = [e a])
    (hhist : ∀ l, (f l).1.history = s.history ++ [e (l.headD .ok)])
    (hans : ∀ l, (f l).1.answers = l.tail) (hreply : ∀ l, (f l).2 = (l.headD .ok).reply st)
    (hok : ∀ l, f (.ok :: l) = ((f []).1.answered l, (f []).2)) : Cuts s f := by
  refine ⟨[e .ok], hhist [], hans [], fun n a rest _ => ⟨fun st' hst => ?_, fun hn => ?_⟩⟩
  · cases n with
    | zero =>
      simp only [List.filterMap_cons, hfail, List.getElem?_cons_zero, Option.some.injEq] at hst
      subst hst
      exact ⟨by rw [hhist, hcut]; rfl, hans _, hreply _⟩
    | succ n => simp [hfail] at hst
  · have h1 : fallible [e .ok] = 1 := by simp [fallible, hfail]
    rw [h1] at hn ⊢
    obtain ⟨n, rfl⟩ : ∃ m, n = m + 1 := ⟨n - 1, by omega⟩
    exact hok (firstBad n a rest)

theorem emitDc_cuts (l : BitVec 1) (s : State) : Cuts s fun as => emitDc l (s.answered as) :=
  Cuts.one (fun a => .dc l a) .selectLineError (fun _ => rfl) (fun _ => rfl) (fun _ => rfl) (fun _ => rfl)
    (fun _ => rfl) (fun _ => rfl)

theorem emitRst_cuts (l : BitVec 1) (s : State) : Cuts s fun as => emitRst l (s.answered as) :=
  Cuts.one (fun a => .rst l a) .resetError (fun _ => rfl) (fun _ => rfl) (fun _ => rfl) (fun _ => rfl)
    (fun _ => rfl) (fun _ => rfl)

theorem emitWr_cuts (bytes : List Byte) (s : State) : Cuts s fun as => emitWr bytes (s.answered as) :=
  Cuts.one (fun a => .wr bytes a) .busWriteError (fun _ => rfl) (fun _ => rfl) (fun _ => rfl) (fun _ => rfl)
    (fun _ => rfl) (fun _ => rfl)

theorem Cuts.of_history {s u : State} {f : List Answer → Run} (e : u.history = s.history) (h : Cuts u f) :
    Cuts s f := by
  obtain ⟨es, h1, h2, h3⟩ := h
  rw [e] at h1
  exact ⟨es, h1, h2, fun n a rest ha => ⟨fun st hst => e ▸ (h3 n a rest ha).1 st hst, (h3 n a rest ha).2⟩⟩

/-- Pulling does not look at the answers. -/
theorem fill_answered (n : Nat) (s : State) (src : Source) (l : List Answer) :
    src.fill n (s.answered l) = ((src.fill n s).1.answered l, (src.fill n s).2) := by
  cases src with
  | bytes b => rfl
  | port8 => by_cases h : n ≤ s.prod8.length <;> simp [Source.fill, State.answered, stage, h]
  | port16 o => by_cases h : n / 2 ≤ s.prod16.length <;> simp [Source.fill, State.answered, stage, h]

theorem writeStream_cuts (fuel left : Nat) (src : Source) (s : State) :
    Cuts s fun l => writeStream fuel left src (s.answered l) := by
  induction fuel generalizing left src s with
  | zero => exact Cuts.silent rfl _ fun _ => rfl
  | succ fuel ih =>
    unfold writeStream
    by_cases hl : left = 0
    · simp only [hl, if_true]; exact Cuts.silent rfl _ fun _ => rfl
    · simp only [if_neg hl, fill_answered]
      show Cuts s fun l => match ((src.fill (min s.cfg.chunkBytes left) s).1.answered l,
        (src.fill (min s.cfg.chunkBytes left) s).2) with
        | (s1, none) => (s1, Reply.hung)
        | (s1, some (chunk, src1)) => (emitWr chunk (stage chunk s1)).andThen
            (writeStream fuel (left - min s.cfg.chunkBytes left) src1)
      have hh := fill_history (min s.cfg.chunkBytes left) s src
      generalize src.fill (min s.cfg.chunkBytes left) s = r at hh ⊢
      obtain ⟨s1, o⟩ := r
      cases o with
      | none => exact Cuts.silent hh _ fun _ => rfl
      | some p =>
        refine Cuts.andThen (Cuts.of_history (u := stage p.1 s1) hh ?_) fun u => ih _ _ u
        exact emitWr_cuts p.1 (stage p.1 s1)

theorem tcSend_cuts (ph : Phase) (src : Source) (total : Nat) (s : State) :
    Cuts s fun l => tcSend ph src total (s.answered l) :=
  Cuts.andThen (emitDc_cuts _ s) fun _ => writeStream_cuts _ _ _ _

theorem pdCommand_cuts (op : Byte) (args : List Byte) (s : State) :
    Cuts s fun l => pdCommand op args (s.answered l) := by
  refine Cuts.andThen (tcSend_cuts _ _ _ s) fun u => ?_
  by_cases h : args = []
  · simp only [h, if_true]; exact Cuts.silent rfl _ fun _ => rfl
  · simp only [if_neg h]; exact tcSend_cuts _ _ _ u

theorem setWindow_cuts (w : Window) (s : State) : Cuts s fun l => setWindow w (s.answered l) :=
  Cuts.andThen (pdCommand_cuts _ _ s) fun u => Cuts.andThen (pdCommand_cuts _ _ u) fun v =>
    Cuts.silent (u := { v with win := w }) rfl _ fun _ => rfl

theorem flushBox_cuts (b : Box) (pixels : List HalfWord) (s : State) :
    Cuts s fun l => flushBox b pixels (s.answered l) :=
  Cuts.andThen (setWindow_cuts _ s) fun u => Cuts.andThen (tcSend_cuts _ _ _ u) fun v =>
    Cuts.andThen (tcSend_cuts _ _ _ v) fun x => Cuts.silent (u := { x with snt := x.cur }) rfl _ fun _ => rfl

/-- A delay and the step to the next `PD_STATE`. -/
theorem delay_cuts (t : Nat) (p : PdState) (s : State) :
    Cuts s fun l => (({ emitDly t (s.answered l) with pd := p }, .ok) : Run) :=
  Cuts.delayed t (Cuts.silent (u := { emitDly t s with pd := p }) rfl _ fun _ => rfl)

theorem initResetting_cuts (s : State) : Cuts s fun l => initResetting (s.answered l) := by
  unfold initResetting
  refine Cuts.andThen (emitRst_cuts 0 s) fun u => ?_
  have h : Cuts u fun l => emitRst 1 (emitDly s.cfg.tRstLow (u.answered l)) :=
    Cuts.delayed s.cfg.tRstLow (emitRst_cuts 1 (emitDly s.cfg.tRstLow u))
  exact Cuts.andThen h fun x => delay_cuts s.cfg.tRstSettle .softwareReset x

theorem initSoftwareReset_cuts (s : State) : Cuts s fun l => initSoftwareReset (s.answered l) := by
  unfold initSoftwareReset
  exact Cuts.andThen (pdCommand_cuts _ _ s) fun x => delay_cuts s.cfg.tSwReset .configuringFormat x

theorem initConfiguring_cuts (v : Orientation) (s : State) : Cuts s fun l => initConfiguring v (s.answered l) := by
  have h : Cuts s fun l => (pdCommand opcMemoryAccessControl [s.cfg.madctl v] (s.answered l)).andThen fun s1 =>
      (pdCommand opcPixelFormat [s.cfg.pixfmt16bpp] s1).andThen fun s2 =>
        ({ emitDly s.cfg.tCfg s2 with pd := .wakingFromSleep }, .ok) :=
    Cuts.andThen (pdCommand_cuts _ _ s) fun y => Cuts.andThen (pdCommand_cuts _ _ y) fun z =>
      delay_cuts s.cfg.tCfg .wakingFromSleep z
  exact h

theorem initWaking_cuts (s : State) : Cuts s fun l => initWaking (s.answered l) := by
  unfold initWaking
  refine Cuts.andThen (pdCommand_cuts opcSleepOff [] s) fun z => ?_
  have h : Cuts z fun l => pdCommand opcDisplayOn [] (emitDly s.cfg.tWake (z.answered l)) :=
    Cuts.delayed s.cfg.tWake (pdCommand_cuts opcDisplayOn [] (emitDly s.cfg.tWake z))
  exact Cuts.andThen h fun x => Cuts.silent (u := { x with pd := .ready }) rfl _ fun _ => rfl

theorem initSequence_cuts (v : Orientation) (s : State) : Cuts s fun l => initSequence v (s.answered l) := by
  unfold initSequence
  have h : Cuts s fun l => initResetting (initStart v (s.answered l)) :=
    Cuts.of_history (u := initStart v s) rfl (initResetting_cuts (initStart v s))
  exact Cuts.andThen h fun u => Cuts.andThen (initSoftwareReset_cuts u) fun x =>
    Cuts.andThen (initConfiguring_cuts v x) fun y => initWaking_cuts y

end Sys2Proof.Machine
end

