-- ==== Sys2Proof/Laws/Independence.lean ====
section
/-! SUPPORT. No operation of SEQ reads QDA's part (10_state.md R21): every shared operation commutes with replacing it. -/

namespace Sys2Proof.Machine

/-- QDA's part and the results of its port, replaced. -/
def State.setQda (q : Qda) (rs : List Result) (s : State) : State := { s with qda := q, qdaResults := rs }

variable (q : Qda) (rs : List Result)

/-- A run with QDA's part replaced in the state it leaves. -/
def Run.setQda (r : Run) : Run := (r.1.setQda q rs, r.2)

/-- An outcome with QDA's part replaced in its next state. -/
def setQdaOutcome : Outcome → Outcome
  | .next t => .next (t.setQda q rs)
  | .fault f => .fault f
  | .refused r => .refused r

theorem Run.setQda_andThen {r : Run} {k : State → Run} (hk : ∀ s, k (s.setQda q rs) = (k s).setQda q rs) :
    (r.setQda q rs).andThen k = (r.andThen k).setQda q rs := by
  by_cases h : r.2 = .ok
  · rw [Run.andThen_of_ok h, Run.andThen_of_ok (show (r.setQda q rs).2 = .ok from h)]; exact hk r.1
  · rw [Run.andThen_of_ne h, Run.andThen_of_ne (show (r.setQda q rs).2 ≠ .ok from h)]

theorem conclude_setQda (m : SeqMode) (r : Run) : conclude m (r.setQda q rs) = setQdaOutcome q rs (conclude m r) := by
  obtain ⟨s, x⟩ := r
  cases x <;> rfl

theorem gated_setQda (need : PdState) (k : State → Outcome) (s : State)
    (hk : k (s.setQda q rs) = setQdaOutcome q rs (k s)) :
    gated need k (s.setQda q rs) = setQdaOutcome q rs (gated need k s) := by
  by_cases h : s.pd = need
  · rw [gated_of_eq h, gated_of_eq (show (s.setQda q rs).pd = need from h)]; exact hk
  · rw [gated_of_ne h, gated_of_ne (show (s.setQda q rs).pd ≠ need from h)]; rfl

theorem emitRst_setQda (l : BitVec 1) (s : State) : emitRst l (s.setQda q rs) = (emitRst l s).setQda q rs := rfl
theorem emitDc_setQda (l : BitVec 1) (s : State) : emitDc l (s.setQda q rs) = (emitDc l s).setQda q rs := rfl
theorem emitWr_setQda (b : List Byte) (s : State) : emitWr b (s.setQda q rs) = (emitWr b s).setQda q rs := rfl
theorem emitDly_setQda (t : Nat) (s : State) : emitDly t (s.setQda q rs) = (emitDly t s).setQda q rs := rfl
theorem stage_setQda (c : List Byte) (s : State) : stage c (s.setQda q rs) = (stage c s).setQda q rs := rfl

theorem fill_setQda (n : Nat) (src : Source) (s : State) :
    src.fill n (s.setQda q rs) = ((src.fill n s).1.setQda q rs, (src.fill n s).2) := by
  cases src with
  | bytes l => rfl
  | port8 =>
    by_cases h : n ≤ s.prod8.length
    · simp only [Source.fill, show (s.setQda q rs).prod8 = s.prod8 from rfl, if_pos h]; rfl
    · simp only [Source.fill, show (s.setQda q rs).prod8 = s.prod8 from rfl, if_neg h]; rfl
  | port16 o =>
    by_cases h : n / 2 ≤ s.prod16.length
    · simp only [Source.fill, show (s.setQda q rs).prod16 = s.prod16 from rfl, if_pos h]; rfl
    · simp only [Source.fill, show (s.setQda q rs).prod16 = s.prod16 from rfl, if_neg h]; rfl

theorem writeStream_setQda (fuel left : Nat) (src : Source) (s : State) :
    writeStream fuel left src (s.setQda q rs) = (writeStream fuel left src s).setQda q rs := by
  induction fuel generalizing left src s with
  | zero => rfl
  | succ fuel ih =>
    unfold writeStream
    split
    · rfl
    · rw [show (s.setQda q rs).cfg = s.cfg from rfl, fill_setQda]
      obtain ⟨s1, _ | ⟨chunk, src1⟩⟩ := Source.fill (min s.cfg.chunkBytes left) s src
      · rfl
      · simp only [stage_setQda, emitWr_setQda]
        exact Run.setQda_andThen q rs fun u => ih _ _ _

theorem tcSend_setQda (ph : Phase) (src : Source) (n : Nat) (s : State) :
    tcSend ph src n (s.setQda q rs) = (tcSend ph src n s).setQda q rs := by
  unfold tcSend
  rw [show (s.setQda q rs).cfg = s.cfg from rfl, emitDc_setQda]
  exact Run.setQda_andThen q rs fun u => writeStream_setQda q rs _ _ _ u

theorem sendBytes_setQda (ph : Phase) (l : List Byte) (s : State) :
    sendBytes ph l (s.setQda q rs) = (sendBytes ph l s).setQda q rs := tcSend_setQda q rs _ _ _ _

theorem pdCommand_setQda (op : Byte) (args : List Byte) (s : State) :
    pdCommand op args (s.setQda q rs) = (pdCommand op args s).setQda q rs := by
  unfold pdCommand
  rw [sendBytes_setQda]
  refine Run.setQda_andThen q rs fun u => ?_
  split
  · rfl
  · exact sendBytes_setQda q rs _ _ _

theorem setWindow_setQda (w : Window) (s : State) : setWindow w (s.setQda q rs) = (setWindow w s).setQda q rs := by
  unfold setWindow
  rw [pdCommand_setQda]
  refine Run.setQda_andThen q rs fun u => ?_
  rw [pdCommand_setQda]
  exact Run.setQda_andThen q rs fun _ => rfl

theorem flushBox_setQda (b : Box) (pixels : List HalfWord) (s : State) :
    flushBox b pixels (s.setQda q rs) = (flushBox b pixels s).setQda q rs := by
  unfold flushBox
  rw [setWindow_setQda]
  refine Run.setQda_andThen q rs fun u => ?_
  rw [sendBytes_setQda]
  refine Run.setQda_andThen q rs fun u => ?_
  rw [sendBytes_setQda]
  exact Run.setQda_andThen q rs fun _ => rfl

theorem initSequence_setQda (v : Orientation) (s : State) :
    initSequence v (s.setQda q rs) = (initSequence v s).setQda q rs := by
  have h1 : ∀ s, initResetting (s.setQda q rs) = (initResetting s).setQda q rs := fun s => by
    unfold initResetting
    rw [emitRst_setQda]
    refine Run.setQda_andThen q rs fun u => ?_
    rw [show (s.setQda q rs).cfg = s.cfg from rfl, emitDly_setQda, emitRst_setQda]
    exact Run.setQda_andThen q rs fun _ => rfl
  have h2 : ∀ s, initSoftwareReset (s.setQda q rs) = (initSoftwareReset s).setQda q rs := fun s => by
    unfold initSoftwareReset
    rw [pdCommand_setQda]
    exact Run.setQda_andThen q rs fun _ => rfl
  have h3 : ∀ s, initConfiguring v (s.setQda q rs) = (initConfiguring v s).setQda q rs := fun s => by
    unfold initConfiguring
    rw [show (s.setQda q rs).cfg = s.cfg from rfl, pdCommand_setQda]
    refine Run.setQda_andThen q rs fun u => ?_
    rw [pdCommand_setQda]
    exact Run.setQda_andThen q rs fun _ => rfl
  have h4 : ∀ s, initWaking (s.setQda q rs) = (initWaking s).setQda q rs := fun s => by
    unfold initWaking
    rw [pdCommand_setQda]
    refine Run.setQda_andThen q rs fun u => ?_
    rw [show (s.setQda q rs).cfg = s.cfg from rfl, emitDly_setQda, pdCommand_setQda]
    exact Run.setQda_andThen q rs fun _ => rfl
  unfold initSequence
  rw [show initStart v (s.setQda q rs) = (initStart v s).setQda q rs from rfl, h1]
  refine Run.setQda_andThen q rs fun u => ?_
  rw [h2]
  refine Run.setQda_andThen q rs fun u => ?_
  rw [h3]
  exact Run.setQda_andThen q rs h4

end Sys2Proof.Machine
end

