-- ==== Sys2Proof/Laws/Inputs.lean ====
section
/-! SUPPORT. What the ports take and what the decoder reads on them (30_encoding.md R93, R95). -/

namespace Sys2Proof.Machine

/-- A command word decodes to an operation whose own encoding is a command word. -/
theorem encode_of_decodeCommand {cw : CommandWord} {i : Instr} (h : decodeCommand cw = .ok i) :
    ∃ c, encode i = .command c := by
  unfold decodeCommand decodeFields at h
  split at h
  · cases h; unfold decodeSendc; split <;> exact ⟨_, rfl⟩
  · cases h; unfold decodeSendd; split <;> exact ⟨_, rfl⟩
  · unfold decodeDriver at h; split at h <;> (try cases h) <;> exact ⟨_, rfl⟩
  · split at h <;> cases h; exact ⟨_, rfl⟩
  · cases h

/-- The port of what a command word decodes to (R93). -/
theorem portOf_of_decodeCommand {cw : CommandWord} {i : Instr} (h : decodeCommand cw = .ok i) :
    portOf i = if i = .poll then .qdaCmd else .seqCmd := by
  obtain ⟨c, hc⟩ := encode_of_decodeCommand h
  unfold portOf
  split
  · rfl
  · rename_i hne; rw [hc]; simp; exact fun h => hne h 

/-- Only `OP = 0x40` is POLL (R94). -/
theorem decodeCommand_poll_iff {cw : CommandWord} : decodeCommand cw = .ok .poll ↔ (opField cw).toNat = 0x40 := by
  have hb := (opField cw).isLt
  constructor
  · intro h
    unfold decodeCommand decodeFields at h
    split at h
    · unfold decodeSendc at h; split at h <;> simp at h
    · unfold decodeSendd at h; split at h <;> simp at h
    · unfold decodeDriver at h; split at h <;> simp at h
    · split at h
      · omega
      · cases h
    · cases h
  · intro h
    unfold decodeCommand decodeFields
    rw [h]; rfl

/-- Below `0x10` and above `0x3B` nothing but POLL decodes (R95 (2)). -/
theorem decodeCommand_outside {cw : CommandWord} {i : Instr} (ho : (opField cw).toNat < 0x10 ∨ 0x3C ≤ (opField cw).toNat)
    (hd : decodeCommand cw = .ok i) : i = .poll := by
  unfold decodeCommand decodeFields at hd
  have hb := (opField cw).isLt
  generalize (opField cw).toNat = n at *
  split at hd
  · omega
  · omega
  · unfold decodeDriver at hd
    split at hd <;> first | (simp at hd; done) | (exfalso; omega)
  · split at hd <;> simp at hd; exact hd.symm
  · simp at hd

/-- What is taken can be taken. -/
theorem takeInput_acceptable {m : SeqMode} {l r : List Input} {i : Input} (h : takeInput m l = some (i, r)) :
    acceptable m i = true := by
  induction l generalizing r with
  | nil => cases h
  | cons x xs ih =>
    simp only [takeInput] at h
    split at h
    · cases h; assumption
    · split at h
      · rename_i hh; cases h; exact ih hh
      · cases h

end Sys2Proof.Machine
end

