-- ==== Sys2Proof/Laws/PerInstr.lean ====
section
/-! SUPPORT. What holds of every operation's encoding, one lemma per constructor. -/

namespace Sys2Proof.Laws

/-- The `OP` field of a command word (R90), or the opcode byte of a wire transaction (R97, R100). -/
def opcodeOf : Words → Option Byte
  | .command cw => some (opField cw)
  | .wire bytes => bytes.head?

/-- The fixed byte of an operation's row of spec/opcode_table.json (`match` under `mask`). -/
def tableOpcode : Instr → Byte
  | .sendcU8 _ => 0x10
  | .sendcU16 _ => 0x11
  | .sendcU16le _ => 0x12
  | .sendcU16be _ => 0x13
  | .sendcU8i _ => 0x14
  | .sendcU16i _ => 0x15
  | .sendcU16lei _ => 0x16
  | .sendcU16bei _ => 0x17
  | .senddU8 _ => 0x20
  | .senddU16 _ => 0x21
  | .senddU16le _ => 0x22
  | .senddU16be _ => 0x23
  | .senddU8i _ => 0x24
  | .senddU16i _ => 0x25
  | .senddU16lei _ => 0x26
  | .senddU16bei _ => 0x27
  | .sendcReserved8 _ => 0x18
  | .sendcReserved9 _ => 0x19
  | .sendcReserved10 _ => 0x1A
  | .sendcReserved11 _ => 0x1B
  | .sendcReserved12 _ => 0x1C
  | .sendcReserved13 _ => 0x1D
  | .sendcReserved14 _ => 0x1E
  | .sendcReserved15 _ => 0x1F
  | .senddReserved8 _ => 0x28
  | .senddReserved9 _ => 0x29
  | .senddReserved10 _ => 0x2A
  | .senddReserved11 _ => 0x2B
  | .senddReserved12 _ => 0x2C
  | .senddReserved13 _ => 0x2D
  | .senddReserved14 _ => 0x2E
  | .senddReserved15 _ => 0x2F
  | .init _ => 0x30
  | .setwin _ _ _ _ => 0x31
  | .wrpix _ _ _ => 0x32
  | .clear _ => 0x33
  | .flush => 0x34
  | .bright _ => 0x35
  | .sleep _ => 0x36
  | .display _ => 0x37
  | .invert _ => 0x38
  | .setori _ => 0x39
  | .getw => 0x3A
  | .geth => 0x3B
  | .poll => 0x40
  | .wireSoftwareReset => 0x01
  | .wireSleepOn => 0x10
  | .wireSleepOff => 0x11
  | .wireInvertOff => 0x20
  | .wireInvertOn => 0x21
  | .wireDisplayOff => 0x28
  | .wireDisplayOn => 0x29
  | .wireColumnRange _ _ => 0x2A
  | .wirePageRange _ _ => 0x2B
  | .wireMemoryWrite _ => 0x2C
  | .wireMemoryAccessControl _ => 0x36
  | .wirePixelFormat _ => 0x3A
  | .wireBrightness _ => 0x51

theorem opcodeOf_lenCommand (op : Byte) (len : Word) : opcodeOf (lenCommand op len) = some op := by
  simp [opcodeOf, lenCommand]

theorem opcodeOf_command (op : Byte) (a0 a1 a2 a3 : HalfWord) :
    opcodeOf (.command (commandWord op a0 a1 a2 a3)) = some op := by
  simp [opcodeOf]

/-- The encoder writes the table's fixed byte first. -/
def EncodingStartsWithItsOpcode.Statement (i : Instr) : Prop := opcodeOf (encode i) = some (tableOpcode i)

theorem EncodingStartsWithItsOpcode.sendcU8 (len : Word) :
    EncodingStartsWithItsOpcode.Statement (.sendcU8 len) :=
  opcodeOf_lenCommand _ _
theorem EncodingStartsWithItsOpcode.sendcU16 (len : Word) :
    EncodingStartsWithItsOpcode.Statement (.sendcU16 len) :=
  opcodeOf_lenCommand _ _
theorem EncodingStartsWithItsOpcode.sendcU16le (len : Word) :
    EncodingStartsWithItsOpcode.Statement (.sendcU16le len) :=
  opcodeOf_lenCommand _ _
theorem EncodingStartsWithItsOpcode.sendcU16be (len : Word) :
    EncodingStartsWithItsOpcode.Statement (.sendcU16be len) :=
  opcodeOf_lenCommand _ _
theorem EncodingStartsWithItsOpcode.sendcU8i (len : Word) :
    EncodingStartsWithItsOpcode.Statement (.sendcU8i len) :=
  opcodeOf_lenCommand _ _
theorem EncodingStartsWithItsOpcode.sendcU16i (len : Word) :
    EncodingStartsWithItsOpcode.Statement (.sendcU16i len) :=
  opcodeOf_lenCommand _ _
theorem EncodingStartsWithItsOpcode.sendcU16lei (len : Word) :
    EncodingStartsWithItsOpcode.Statement (.sendcU16lei len) :=
  opcodeOf_lenCommand _ _
theorem EncodingStartsWithItsOpcode.sendcU16bei (len : Word) :
    EncodingStartsWithItsOpcode.Statement (.sendcU16bei len) :=
  opcodeOf_lenCommand _ _
theorem EncodingStartsWithItsOpcode.senddU8 (len : Word) :
    EncodingStartsWithItsOpcode.Statement (.senddU8 len) :=
  opcodeOf_lenCommand _ _
theorem EncodingStartsWithItsOpcode.senddU16 (len : Word) :
    EncodingStartsWithItsOpcode.Statement (.senddU16 len) :=
  opcodeOf_lenCommand _ _
theorem EncodingStartsWithItsOpcode.senddU16le (len : Word) :
    EncodingStartsWithItsOpcode.Statement (.senddU16le len) :=
  opcodeOf_lenCommand _ _
theorem EncodingStartsWithItsOpcode.senddU16be (len : Word) :
    EncodingStartsWithItsOpcode.Statement (.senddU16be len) :=
  opcodeOf_lenCommand _ _
theorem EncodingStartsWithItsOpcode.senddU8i (len : Word) :
    EncodingStartsWithItsOpcode.Statement (.senddU8i len) :=
  opcodeOf_lenCommand _ _
theorem EncodingStartsWithItsOpcode.senddU16i (len : Word) :
    EncodingStartsWithItsOpcode.Statement (.senddU16i len) :=
  opcodeOf_lenCommand _ _
theorem EncodingStartsWithItsOpcode.senddU16lei (len : Word) :
    EncodingStartsWithItsOpcode.Statement (.senddU16lei len) :=
  opcodeOf_lenCommand _ _
theorem EncodingStartsWithItsOpcode.senddU16bei (len : Word) :
    EncodingStartsWithItsOpcode.Statement (.senddU16bei len) :=
  opcodeOf_lenCommand _ _
theorem EncodingStartsWithItsOpcode.sendcReserved8 (len : Word) :
    EncodingStartsWithItsOpcode.Statement (.sendcReserved8 len) :=
  opcodeOf_lenCommand _ _
theorem EncodingStartsWithItsOpcode.sendcReserved9 (len : Word) :
    EncodingStartsWithItsOpcode.Statement (.sendcReserved9 len) :=
  opcodeOf_lenCommand _ _
theorem EncodingStartsWithItsOpcode.sendcReserved10 (len : Word) :
    EncodingStartsWithItsOpcode.Statement (.sendcReserved10 len) :=
  opcodeOf_lenCommand _ _
theorem EncodingStartsWithItsOpcode.sendcReserved11 (len : Word) :
    EncodingStartsWithItsOpcode.Statement (.sendcReserved11 len) :=
  opcodeOf_lenCommand _ _
theorem EncodingStartsWithItsOpcode.sendcReserved12 (len : Word) :
    EncodingStartsWithItsOpcode.Statement (.sendcReserved12 len) :=
  opcodeOf_lenCommand _ _
theorem EncodingStartsWithItsOpcode.sendcReserved13 (len : Word) :
    EncodingStartsWithItsOpcode.Statement (.sendcReserved13 len) :=
  opcodeOf_lenCommand _ _
theorem EncodingStartsWithItsOpcode.sendcReserved14 (len : Word) :
    EncodingStartsWithItsOpcode.Statement (.sendcReserved14 len) :=
  opcodeOf_lenCommand _ _
theorem EncodingStartsWithItsOpcode.sendcReserved15 (len : Word) :
    EncodingStartsWithItsOpcode.Statement (.sendcReserved15 len) :=
  opcodeOf_lenCommand _ _
theorem EncodingStartsWithItsOpcode.senddReserved8 (len : Word) :
    EncodingStartsWithItsOpcode.Statement (.senddReserved8 len) :=
  opcodeOf_lenCommand _ _
theorem EncodingStartsWithItsOpcode.senddReserved9 (len : Word) :
    EncodingStartsWithItsOpcode.Statement (.senddReserved9 len) :=
  opcodeOf_lenCommand _ _
theorem EncodingStartsWithItsOpcode.senddReserved10 (len : Word) :
    EncodingStartsWithItsOpcode.Statement (.senddReserved10 len) :=
  opcodeOf_lenCommand _ _
theorem EncodingStartsWithItsOpcode.senddReserved11 (len : Word) :
    EncodingStartsWithItsOpcode.Statement (.senddReserved11 len) :=
  opcodeOf_lenCommand _ _
theorem EncodingStartsWithItsOpcode.senddReserved12 (len : Word) :
    EncodingStartsWithItsOpcode.Statement (.senddReserved12 len) :=
  opcodeOf_lenCommand _ _
theorem EncodingStartsWithItsOpcode.senddReserved13 (len : Word) :
    EncodingStartsWithItsOpcode.Statement (.senddReserved13 len) :=
  opcodeOf_lenCommand _ _
theorem EncodingStartsWithItsOpcode.senddReserved14 (len : Word) :
    EncodingStartsWithItsOpcode.Statement (.senddReserved14 len) :=
  opcodeOf_lenCommand _ _
theorem EncodingStartsWithItsOpcode.senddReserved15 (len : Word) :
    EncodingStartsWithItsOpcode.Statement (.senddReserved15 len) :=
  opcodeOf_lenCommand _ _
theorem EncodingStartsWithItsOpcode.init (v : Orientation) :
    EncodingStartsWithItsOpcode.Statement (.init v) :=
  opcodeOf_command _ _ _ _ _
theorem EncodingStartsWithItsOpcode.setwin (x0 y0 x1 y1 : HalfWord) :
    EncodingStartsWithItsOpcode.Statement (.setwin x0 y0 x1 y1) :=
  opcodeOf_command _ _ _ _ _
theorem EncodingStartsWithItsOpcode.wrpix (x y color : HalfWord) :
    EncodingStartsWithItsOpcode.Statement (.wrpix x y color) :=
  opcodeOf_command _ _ _ _ _
theorem EncodingStartsWithItsOpcode.clear (color : HalfWord) :
    EncodingStartsWithItsOpcode.Statement (.clear color) :=
  opcodeOf_command _ _ _ _ _
theorem EncodingStartsWithItsOpcode.flush :
    EncodingStartsWithItsOpcode.Statement .flush :=
  opcodeOf_command _ _ _ _ _
theorem EncodingStartsWithItsOpcode.bright (value : Byte) :
    EncodingStartsWithItsOpcode.Statement (.bright value) :=
  opcodeOf_command _ _ _ _ _
theorem EncodingStartsWithItsOpcode.sleep (mode : BitVec 1) :
    EncodingStartsWithItsOpcode.Statement (.sleep mode) :=
  opcodeOf_command _ _ _ _ _
theorem EncodingStartsWithItsOpcode.display (mode : BitVec 1) :
    EncodingStartsWithItsOpcode.Statement (.display mode) :=
  opcodeOf_command _ _ _ _ _
theorem EncodingStartsWithItsOpcode.invert (mode : BitVec 1) :
    EncodingStartsWithItsOpcode.Statement (.invert mode) :=
  opcodeOf_command _ _ _ _ _
theorem EncodingStartsWithItsOpcode.setori (v : Orientation) :
    EncodingStartsWithItsOpcode.Statement (.setori v) :=
  opcodeOf_command _ _ _ _ _
theorem EncodingStartsWithItsOpcode.getw :
    EncodingStartsWithItsOpcode.Statement .getw :=
  opcodeOf_command _ _ _ _ _
theorem EncodingStartsWithItsOpcode.geth :
    EncodingStartsWithItsOpcode.Statement .geth :=
  opcodeOf_command _ _ _ _ _
theorem EncodingStartsWithItsOpcode.poll :
    EncodingStartsWithItsOpcode.Statement .poll :=
  opcodeOf_command _ _ _ _ _
theorem EncodingStartsWithItsOpcode.wireSoftwareReset :
    EncodingStartsWithItsOpcode.Statement .wireSoftwareReset := rfl
theorem EncodingStartsWithItsOpcode.wireSleepOn :
    EncodingStartsWithItsOpcode.Statement .wireSleepOn := rfl
theorem EncodingStartsWithItsOpcode.wireSleepOff :
    EncodingStartsWithItsOpcode.Statement .wireSleepOff := rfl
theorem EncodingStartsWithItsOpcode.wireInvertOff :
    EncodingStartsWithItsOpcode.Statement .wireInvertOff := rfl
theorem EncodingStartsWithItsOpcode.wireInvertOn :
    EncodingStartsWithItsOpcode.Statement .wireInvertOn := rfl
theorem EncodingStartsWithItsOpcode.wireDisplayOff :
    EncodingStartsWithItsOpcode.Statement .wireDisplayOff := rfl
theorem EncodingStartsWithItsOpcode.wireDisplayOn :
    EncodingStartsWithItsOpcode.Statement .wireDisplayOn := rfl
theorem EncodingStartsWithItsOpcode.wireColumnRange (x0 x1 : HalfWord) :
    EncodingStartsWithItsOpcode.Statement (.wireColumnRange x0 x1) := rfl
theorem EncodingStartsWithItsOpcode.wirePageRange (y0 y1 : HalfWord) :
    EncodingStartsWithItsOpcode.Statement (.wirePageRange y0 y1) := rfl
theorem EncodingStartsWithItsOpcode.wireMemoryWrite (pixels : List HalfWord) :
    EncodingStartsWithItsOpcode.Statement (.wireMemoryWrite pixels) := rfl
theorem EncodingStartsWithItsOpcode.wireMemoryAccessControl (flags : Byte) :
    EncodingStartsWithItsOpcode.Statement (.wireMemoryAccessControl flags) := rfl
theorem EncodingStartsWithItsOpcode.wirePixelFormat (format : Byte) :
    EncodingStartsWithItsOpcode.Statement (.wirePixelFormat format) := rfl
theorem EncodingStartsWithItsOpcode.wireBrightness (value : Byte) :
    EncodingStartsWithItsOpcode.Statement (.wireBrightness value) := rfl

end Sys2Proof.Laws
end

