-- ==== Sys2Proof/Laws/Quadrature.lean ====
section
/-! SUPPORT. The three ways a POLL ends (42_quadrature_decoder.md R222 to R225). -/

namespace Sys2Proof.Machine

/-- A POLL returns a direction, accepts a press, or returns nothing. -/
theorem execPoll_cases (s : State) :
    (∃ d, directionOf s.cfg (phasePattern (sample s.pins s.qda)) = some d ∧
      execPoll s = .next (({ s with qda := sample s.pins s.qda }).finishQda .ok d.eventCode)) ∨
    (directionOf s.cfg (phasePattern (sample s.pins s.qda)) = none ∧
      pressAcceptable s.cfg s.pins (sample s.pins s.qda) = true ∧
      execPoll s = .next (({ s with qda := { sample s.pins s.qda with tLast := s.pins.now, tValid := true } }).finishQda
        .ok eventSelect)) ∨
    (directionOf s.cfg (phasePattern (sample s.pins s.qda)) = none ∧
      pressAcceptable s.cfg s.pins (sample s.pins s.qda) = false ∧
      execPoll s = .next (({ s with qda := sample s.pins s.qda }).finishQda .ok eventNone)) := by
  unfold execPoll classify
  cases hd : directionOf s.cfg (phasePattern (sample s.pins s.qda)) with
  | some d => exact .inl ⟨d, rfl, rfl⟩
  | none =>
    cases hp : pressAcceptable s.cfg s.pins (sample s.pins s.qda) with
    | true => exact .inr (.inl ⟨rfl, rfl, rfl⟩)
    | false => exact .inr (.inr ⟨rfl, rfl, rfl⟩)

/-- No pattern matches exactly when neither configured pattern is seen (R222). -/
theorem directionOf_none {c : Config} {pat : BitVec 4} :
    directionOf c pat = none ↔ pat ≠ c.patALeads ∧ pat ≠ c.patBLeads := by
  unfold directionOf
  split
  · simp_all
  · split <;> simp_all

/-- The button condition (R223). -/
theorem pressAcceptable_iff {c : Config} {p : Pins} {q : Qda} :
    pressAcceptable c p q = true ↔
      q.btn = 0xFF ∧ (q.tValid = false ∨ c.minInterval.toNat ≤ (p.now - q.tLast).toNat) := by
  unfold pressAcceptable
  simp only [Bool.and_eq_true, beq_iff_eq, Bool.or_eq_true, Bool.not_eq_true', decide_eq_true_eq]
  rfl

theorem eventCode_ne_select (d : Direction) : d.eventCode ≠ eventSelect := by cases d <;> decide

end Sys2Proof.Machine
end

