-- ==== Sys2Proof/Laws/Replies.lean ====
section
/-! SUPPORT. No part of an operation ends with the status `ok` as an error: an operation returns `OK` exactly when its
run ended with `ok` (00_scope.md R13, 60_exceptions.md R250). -/

namespace Sys2Proof.Machine

/-- The run did not end with `ok` as an error. -/
def Run.Honest (r : Run) : Prop := r.2 ≠ .err .ok

theorem reply_honest {st : Status} (h : st ≠ .ok) (a : Answer) : a.reply st ≠ .err .ok := by
  cases a <;> simp [Answer.reply, h]

theorem Run.andThen_honest {r : Run} {k : State → Run} (h : r.Honest) (hk : ∀ s, (k s).Honest) :
    (r.andThen k).Honest := by
  by_cases hr : r.2 = .ok
  · rw [Run.andThen_of_ok hr]; exact hk r.1
  · rw [Run.andThen_of_ne hr]; exact h

theorem ok_honest (s : State) : Run.Honest (s, .ok) := by simp [Run.Honest]

theorem emitRst_honest (l : BitVec 1) (s : State) : (emitRst l s).Honest := reply_honest (by decide) _
theorem emitDc_honest (l : BitVec 1) (s : State) : (emitDc l s).Honest := reply_honest (by decide) _
theorem emitWr_honest (b : List Byte) (s : State) : (emitWr b s).Honest := reply_honest (by decide) _

theorem writeStream_honest (fuel left : Nat) (src : Source) (s : State) : (writeStream fuel left src s).Honest := by
  induction fuel generalizing left src s with
  | zero => exact ok_honest s
  | succ fuel ih =>
    unfold writeStream
    split
    · exact ok_honest s
    · split
      · simp [Run.Honest]
      · exact Run.andThen_honest (emitWr_honest _ _) fun _ => ih _ _ _

theorem tcSend_honest (ph : Phase) (src : Source) (n : Nat) (s : State) : (tcSend ph src n s).Honest :=
  Run.andThen_honest (emitDc_honest _ _) fun _ => writeStream_honest _ _ _ _

theorem pdCommand_honest (op : Byte) (args : List Byte) (s : State) : (pdCommand op args s).Honest := by
  refine Run.andThen_honest (tcSend_honest _ _ _ _) fun u => ?_
  split
  · exact ok_honest u
  · exact tcSend_honest _ _ _ _

theorem setWindow_honest (w : Window) (s : State) : (setWindow w s).Honest :=
  Run.andThen_honest (pdCommand_honest _ _ _) fun _ =>
    Run.andThen_honest (pdCommand_honest _ _ _) fun _ => ok_honest _

theorem flushBox_honest (b : Box) (pixels : List HalfWord) (s : State) : (flushBox b pixels s).Honest :=
  Run.andThen_honest (setWindow_honest _ _) fun _ => Run.andThen_honest (tcSend_honest _ _ _ _) fun _ =>
    Run.andThen_honest (tcSend_honest _ _ _ _) fun _ => ok_honest _

theorem initSequence_honest (v : Orientation) (s : State) : (initSequence v s).Honest :=
  Run.andThen_honest
    (Run.andThen_honest (emitRst_honest _ _) fun _ => Run.andThen_honest (emitRst_honest _ _) fun _ => ok_honest _)
    fun _ => Run.andThen_honest (Run.andThen_honest (pdCommand_honest _ _ _) fun _ => ok_honest _) fun _ =>
      Run.andThen_honest (Run.andThen_honest (pdCommand_honest _ _ _) fun _ =>
        Run.andThen_honest (pdCommand_honest _ _ _) fun _ => ok_honest _) fun _ =>
        Run.andThen_honest (pdCommand_honest _ _ _) fun _ => Run.andThen_honest (pdCommand_honest _ _ _) fun _ =>
          ok_honest _

/-- An operation returns `(OK, 0)` exactly when its run ended with `ok`. -/
theorem conclude_returns_ok {m : SeqMode} {r : Run} {t : State} (hr : r.Honest) (h : conclude m r = .next t) :
    t.seqResults = r.1.seqResults ++ [⟨.ok, 0⟩] ↔ r.2 = .ok := by
  obtain ⟨u, h1, h2⟩ := conclude_next m r
  rw [h] at h1; cases h1
  rcases h2 with ⟨e, rfl⟩ | ⟨st, e, rfl⟩ | ⟨e, rfl⟩
  · simp [State.finishSeq, e]
  · simp only [State.finishSeq, e, reduceCtorEq, iff_false]
    intro h
    have := List.append_cancel_left h
    simp only [List.cons.injEq, Result.mk.injEq, and_true] at this
    exact hr (by rw [e, this])
  · simp [e]

/-- Concluding changes only the results or the mode. -/
theorem conclude_keeps {m : SeqMode} {r : Run} {t : State} (h : conclude m r = .next t) :
    t = { r.1 with seqMode := t.seqMode, seqResults := t.seqResults } := by
  obtain ⟨u, h1, h2⟩ := conclude_next m r
  rw [h] at h1; cases h1
  rcases h2 with ⟨_, rfl⟩ | ⟨_, _, rfl⟩ | ⟨_, rfl⟩ <;> rfl

end Sys2Proof.Machine
end

