-- ==== Sys2Proof/Tests/Slice0.lean ====
section
/-! SUPPORT. The model's own tests. Every expected result is the spec's: the words of 30_encoding.md R90 to R98, R103 and of
95_test_vectors.md V1 to V3, the rows of V10 to V42, the examples of the operations' rules. After them, for every
statement with hypotheses, a concrete state and operands that meet them (a statement's premises are not empty). -/

namespace Sys2Proof.Tests

set_option Elab.async false

open Sys2Proof.Machine

/-! ### Well-formedness -/

/-- The parameters of 95_test_vectors.md meet their ranges. -/
theorem vectors_config : (State.reset.cfg).WellFormed :=
  ⟨by decide, by decide, by decide, by decide, by decide, by decide, by decide, by decide, by decide⟩

/-- Small parameters for short tests. -/
def smallConfig : Config := { chunkBytes := 2, pbBytes := 8, w0 := 3, h0 := 2 }

theorem small_config : smallConfig.WellFormed :=
  ⟨by decide, by decide, by decide, by decide, by decide, by decide, by decide, by decide, by decide⟩

theorem test_illformed_too_long (pixels : List HalfWord) (h : pixels.length = 2 ^ 32) :
    ¬ Instr.WellFormed (.wireMemoryWrite pixels) := fun hw => absurd h (Nat.ne_of_lt hw)

theorem test_illformed_chunk_odd : ¬ ({ chunkBytes := 63 } : Config).WellFormed := fun h => absurd h.chunk_even (by decide)
theorem test_illformed_chunk_zero : ¬ ({ chunkBytes := 0 } : Config).WellFormed := fun h => absurd h.chunk_two (by decide)
theorem test_illformed_pb_odd : ¬ ({ pbBytes := 511 } : Config).WellFormed := fun h => absurd h.pb_even (by decide)
theorem test_illformed_pb_zero : ¬ ({ pbBytes := 0 } : Config).WellFormed := fun h => absurd h.pb_two (by decide)
theorem test_illformed_width : ¬ ({ w0 := 0 } : Config).WellFormed := fun h => absurd h.width_pos (by decide)
theorem test_illformed_height : ¬ ({ h0 := 0 } : Config).WellFormed := fun h => absurd h.height_pos (by decide)
theorem test_illformed_levels : ¬ ({ dcCmd := 1 } : Config).WellFormed := fun h => absurd h.levels_differ (by decide)
theorem test_illformed_patterns : ¬ ({ patALeads := 0b0001 } : Config).WellFormed := fun h =>
  absurd h.patterns_differ (by decide)
theorem test_illformed_interval : ¬ ({ minInterval := 0x80000000 } : Config).WellFormed := fun h =>
  absurd h.interval_bound (by decide)

/-! ### Decoding -/

/-- R94, R103, V1: class 1, the shape code in the low digit, the length from `A0` and `A1`. -/
theorem decode_sendc :
    decodeCommand 0x100001000000000000 = .ok (.sendcU8 1) ∧
    decodeCommand 0x110002000000000000 = .ok (.sendcU16 2) ∧
    decodeCommand 0x120001000000000000 = .ok (.sendcU16le 1) ∧
    decodeCommand 0x130003000000000000 = .ok (.sendcU16be 3) ∧
    decodeCommand 0x1400C8000000000000 = .ok (.sendcU8i 200) ∧
    decodeCommand 0x150001000000000000 = .ok (.sendcU16i 1) ∧
    decodeCommand 0x160002000000000000 = .ok (.sendcU16lei 2) ∧
    decodeCommand 0x170021000000000000 = .ok (.sendcU16bei 33) := by
  decide

/-- R95 (1): shape codes 8 to 15. -/
theorem decode_sendc_reserved :
    decodeCommand 0x180001000000000000 = .ok (.sendcReserved8 1) ∧
    decodeCommand 0x190001000000000000 = .ok (.sendcReserved9 1) ∧
    decodeCommand 0x1A0001000000000000 = .ok (.sendcReserved10 1) ∧
    decodeCommand 0x1B0001000000000000 = .ok (.sendcReserved11 1) ∧
    decodeCommand 0x1C0001000000000000 = .ok (.sendcReserved12 1) ∧
    decodeCommand 0x1D0001000000000000 = .ok (.sendcReserved13 1) ∧
    decodeCommand 0x1E0001000000000000 = .ok (.sendcReserved14 1) ∧
    decodeCommand 0x1F0001000000000000 = .ok (.sendcReserved15 1) := by
  decide

/-- R94, R103, V1: class 2. -/
theorem decode_sendd :
    decodeCommand 0x200001000000000000 = .ok (.senddU8 1) ∧
    decodeCommand 0x210002000000000000 = .ok (.senddU16 2) ∧
    decodeCommand 0x220001000000000000 = .ok (.senddU16le 1) ∧
    decodeCommand 0x230003000000000000 = .ok (.senddU16be 3) ∧
    decodeCommand 0x241170000100000000 = .ok (.senddU8i 70000) ∧
    decodeCommand 0x250001000000000000 = .ok (.senddU16i 1) ∧
    decodeCommand 0x260002000000000000 = .ok (.senddU16lei 2) ∧
    decodeCommand 0x270021000000000000 = .ok (.senddU16bei 33) := by
  decide

/-- R95 (1), V2: shape codes 8 to 15. -/
theorem decode_sendd_reserved :
    decodeCommand 0x28FFFFFFFF00000000 = .ok (.senddReserved8 0xFFFFFFFF) ∧
    decodeCommand 0x29FFFFFFFF00000000 = .ok (.senddReserved9 0xFFFFFFFF) ∧
    decodeCommand 0x2AFFFFFFFF00000000 = .ok (.senddReserved10 0xFFFFFFFF) ∧
    decodeCommand 0x2BFFFFFFFF00000000 = .ok (.senddReserved11 0xFFFFFFFF) ∧
    decodeCommand 0x2CFFFFFFFF00000000 = .ok (.senddReserved12 0xFFFFFFFF) ∧
    decodeCommand 0x2DFFFFFFFF00000000 = .ok (.senddReserved13 0xFFFFFFFF) ∧
    decodeCommand 0x2EFFFFFFFF00000000 = .ok (.senddReserved14 0xFFFFFFFF) ∧
    decodeCommand 0x2FFFFFFFFF00000000 = .ok (.senddReserved15 0xFFFFFFFF) := by
  decide

/-- R94, V1: class 3. -/
theorem decode_driver :
    decodeCommand 0x300000000000000000 = .ok (.init .portrait) ∧
    decodeCommand 0x300001000000000000 = .ok (.init .landscape) ∧
    decodeCommand 0x300002000000000000 = .ok (.init .portraitFlipped) ∧
    decodeCommand 0x300003000000000000 = .ok (.init .landscapeFlipped) ∧
    decodeCommand 0x310001000200030004 = .ok (.setwin 1 2 3 4) ∧
    decodeCommand 0x3200030002F8000000 = .ok (.wrpix 3 2 0xF800) ∧
    decodeCommand 0x33001F000000000000 = .ok (.clear 0x001F) ∧
    decodeCommand 0x340000000000000000 = .ok (.flush) ∧
    decodeCommand 0x350080000000000000 = .ok (.bright 0x80) ∧
    decodeCommand 0x360001000000000000 = .ok (.sleep 1) ∧
    decodeCommand 0x370000000000000000 = .ok (.display 0) ∧
    decodeCommand 0x380001000000000000 = .ok (.invert 1) ∧
    decodeCommand 0x390001000000000000 = .ok (.setori .landscape) ∧
    decodeCommand 0x3A0000000000000000 = .ok (.getw) ∧
    decodeCommand 0x3B0000000000000000 = .ok (.geth) ∧
    decodeCommand 0x400000000000000000 = .ok (.poll) := by
  decide

/-- R92, V3: unused operand bits are ignored. -/
theorem decode_unused_bits :
    decodeCommand 0x34DEADBEEF12345678 = .ok (.flush) ∧
    decodeCommand 0x36FFFF000000000000 = .ok (.sleep 1) ∧
    decodeCommand 0x36FFFE111122223333 = .ok (.sleep 0) ∧
    decodeCommand 0x351280000000000000 = .ok (.bright 0x80) ∧
    decodeCommand 0x300007000000000000 = .ok (.init .landscapeFlipped) ∧
    decodeCommand 0x3200030002F800FFFF = .ok (.wrpix 3 2 0xF800) := by
  decide

/-- R95 (2), V2: words that name no operation. -/
theorem decode_unassigned :
    decodeCommand 0x0F0000000000000000 = .error .unassignedOp ∧
    decodeCommand 0x3C0000000000000000 = .error .unassignedOp ∧
    decodeCommand 0x3F0000000000000000 = .error .unassignedOp ∧
    decodeCommand 0x410000000000000000 = .error .unassignedOp ∧
    decodeCommand 0x500000000000000000 = .error .unassignedOp ∧
    decodeCommand 0xFFFFFFFFFFFFFFFFFF = .error .unassignedOp := by
  decide

/-- R96 to R98: the wire transactions, opcode and data bytes; ranges and pixels big-endian. -/
theorem decode_wire :
    decodeWire [0x01] = .ok .wireSoftwareReset ∧
    decodeWire [0x10] = .ok .wireSleepOn ∧
    decodeWire [0x11] = .ok .wireSleepOff ∧
    decodeWire [0x20] = .ok .wireInvertOff ∧
    decodeWire [0x21] = .ok .wireInvertOn ∧
    decodeWire [0x28] = .ok .wireDisplayOff ∧
    decodeWire [0x29] = .ok .wireDisplayOn ∧
    decodeWire [0x2A, 0x01, 0x02, 0x01, 0xFF] = .ok (.wireColumnRange 0x0102 0x01FF) ∧
    decodeWire [0x2B, 0x00, 0x00, 0x01, 0x3F] = .ok (.wirePageRange 0 0x013F) ∧
    decodeWire [0x2C, 0xF8, 0x00, 0x07, 0xE0] = .ok (.wireMemoryWrite [0xF800, 0x07E0]) ∧
    decodeWire [0x36, 0x48] = .ok (.wireMemoryAccessControl 0x48) ∧
    decodeWire [0x3A, 0x55] = .ok (.wirePixelFormat 0x55) ∧
    decodeWire [0x51, 0x80] = .ok (.wireBrightness 0x80) := by
  decide

/-- R96, R97: no transaction. -/
theorem decode_wire_refused :
    decodeWire [] = .error .emptyTransaction ∧
    decodeWire [0x02] = .error .unlistedOpcode ∧
    decodeWire [0x2A, 0, 0, 0] = .error .dataLength ∧
    decodeWire [0x2C, 0] = .error .dataLength ∧
    decodeWire [0x29, 0] = .error .dataLength := by
  decide

/-- Words of spec/opcode_table.json; a wire row is its opcode byte, its data bytes zero. -/
theorem decode_table_words :
    decodeTableWord 72 0x3B0000000000000000 = some .geth ∧
    decodeTableWord 8 0x2A = some (.wireColumnRange 0 0) ∧
    decodeTableWord 8 0x2C = some (.wireMemoryWrite []) ∧
    decodeTableWord 8 0x51 = some (.wireBrightness 0) ∧
    decodeTableWord 72 0x3C0000000000000000 = none := by
  decide

/-! ### One operation -/

/-- The state after an operation. -/
def after (i : Instr) (s : State) : State :=
  match exec i s with
  | .next t => t
  | .fault _ => s
  | .refused _ => s

/-- The events an operation appends to an empty history, and its result. -/
def seen (i : Instr) (s : State) : List Event × Option Result := ((after i s).history, (after i s).seqResults.getLast?)

/-- `n` answers `ok`, then a failure (`.fail n+1`, R101). -/
def failAfter (n : Nat) : List Answer := List.replicate n .ok ++ [.fail 0]

/-- Right after block reset, HOST having written bytes into the payload buffer. -/
def withBytes (l : List Byte) : State := { State.reset with pb := Memory.writeFrom [] 0 l }

/-- The Panel Driver is up: what R39 says INIT leaves, with an empty history. -/
def ready : State :=
  { State.reset with
    pd := .ready
    cur := Memory.fill 48 0
    snt := Memory.fill 48 0
    panel := { Panel.unknown with command := some 0x29, asleep := some false, displayOn := some true } }

/-- V11, P4 line 3. -/
theorem test_sendc_u8 : seen (.sendcU8 1) (withBytes [0x2C]) = ([.dc 0 .ok, .wr [0x2C] .ok], some ⟨.ok, 0⟩) := by
  decide +kernel

/-- V11: an empty stream gives no write. -/
theorem test_sendc_u8_empty : seen (.sendcU8 0) State.reset = ([.dc 0 .ok], some ⟨.ok, 0⟩) := by
  decide +kernel

/-- V11, R99: 65 bytes go out as 64 and 1. -/
theorem test_sendd_u8_chunks : (after (.senddU8 65) (withBytes (List.replicate 64 7 ++ [0x40]))).history =
    [.dc 1 .ok, .wr (List.replicate 64 7) .ok, .wr [0x40] .ok] := by
  decide +kernel

/-- V11: 513 bytes do not fit. -/
theorem test_sendd_u8_too_long : seen (.senddU8 513) State.reset = ([], some ⟨.illegalOp, 0⟩) := by
  decide +kernel

/-- V12, R131: native little-endian words. -/
theorem test_sendc_u16 : (seen (.sendcU16 2) (withBytes [0x34, 0x12, 0xCD, 0xAB])).1 = [.dc 0 .ok, .wr [0x34, 0x12, 0xCD, 0xAB] .ok] := by
  decide +kernel

/-- V15: native big-endian. -/
theorem test_sendc_u16le_swaps : (after (.sendcU16le 1) { withBytes [0x12, 0x34] with cfg := { nativeOrder := .be } }).pb = [(0, 0x34), (1, 0x12)] := by
  decide +kernel

/-- V13: the buffer is converted, and sent converted. -/
theorem test_sendc_u16be_converts : ((after (.sendcU16be 3) (withBytes [0x34, 0x12, 0xCD, 0xAB, 0xFF, 0x00])).pb.map (·.2),
    (after (.sendcU16be 3) (withBytes [0x34, 0x12, 0xCD, 0xAB, 0xFF, 0x00])).history) =
    ([0x12, 0x34, 0xAB, 0xCD, 0x00, 0xFF], [.dc 0 .ok, .wr [0x12, 0x34, 0xAB, 0xCD, 0x00, 0xFF] .ok]) := by
  decide +kernel

/-- V16, `.fail 3`: 128 items are pulled. -/
theorem test_sendc_u8i : (after (.sendcU8i 200) { State.reset with prod8 := List.replicate 200 5, answers := failAfter 2 }).prod8.length = 72 := by
  decide +kernel

/-- V17: native little-endian, then big-endian. -/
theorem test_sendc_u16i : (after (.sendcU16i 1) { State.reset with prod16 := [0x1234] }).history = [.dc 0 .ok, .wr [0x34, 0x12] .ok] ∧
    (after (.sendcU16i 1) { State.reset with cfg := { nativeOrder := .be }, prod16 := [0x1234] }).history =
      [.dc 0 .ok, .wr [0x12, 0x34] .ok] := by
  decide +kernel

/-- V17. -/
theorem test_sendc_u16lei : (after (.sendcU16lei 2) { State.reset with prod16 := [0x1234, 0xABCD] }).history =
    [.dc 0 .ok, .wr [0x34, 0x12, 0xCD, 0xAB] .ok] := by
  decide +kernel

/-- V17: 33 items go out as 64 bytes and 2. -/
theorem test_sendc_u16bei : (after (.sendcU16bei 33) { State.reset with prod16 := List.replicate 32 0x0100 ++ [0x0120] }).history =
    [.dc 0 .ok, .wr ((List.replicate 32 [(1 : Byte), 0]).flatten) .ok, .wr [0x01, 0x20] .ok] := by
  decide +kernel

/-- V12, R131: native little-endian words. -/
theorem test_sendd_u16 : (seen (.senddU16 2) (withBytes [0x34, 0x12, 0xCD, 0xAB])).1 = [.dc 1 .ok, .wr [0x34, 0x12, 0xCD, 0xAB] .ok] := by
  decide +kernel

/-- V15: native big-endian. -/
theorem test_sendd_u16le_swaps : (after (.senddU16le 1) { withBytes [0x12, 0x34] with cfg := { nativeOrder := .be } }).pb = [(0, 0x34), (1, 0x12)] := by
  decide +kernel

/-- V13: the buffer is converted, and sent converted. -/
theorem test_sendd_u16be_converts : ((after (.senddU16be 3) (withBytes [0x34, 0x12, 0xCD, 0xAB, 0xFF, 0x00])).pb.map (·.2),
    (after (.senddU16be 3) (withBytes [0x34, 0x12, 0xCD, 0xAB, 0xFF, 0x00])).history) =
    ([0x12, 0x34, 0xAB, 0xCD, 0x00, 0xFF], [.dc 1 .ok, .wr [0x12, 0x34, 0xAB, 0xCD, 0x00, 0xFF] .ok]) := by
  decide +kernel

/-- V16, `.fail 3`: 128 items are pulled. -/
theorem test_sendd_u8i : (after (.senddU8i 200) { State.reset with prod8 := List.replicate 200 5, answers := failAfter 2 }).prod8.length = 72 := by
  decide +kernel

/-- V17: native little-endian, then big-endian. -/
theorem test_sendd_u16i : (after (.senddU16i 1) { State.reset with prod16 := [0x1234] }).history = [.dc 1 .ok, .wr [0x34, 0x12] .ok] ∧
    (after (.senddU16i 1) { State.reset with cfg := { nativeOrder := .be }, prod16 := [0x1234] }).history =
      [.dc 1 .ok, .wr [0x12, 0x34] .ok] := by
  decide +kernel

/-- V17. -/
theorem test_sendd_u16lei : (after (.senddU16lei 2) { State.reset with prod16 := [0x1234, 0xABCD] }).history =
    [.dc 1 .ok, .wr [0x34, 0x12, 0xCD, 0xAB] .ok] := by
  decide +kernel

/-- V17: 33 items go out as 64 bytes and 2. -/
theorem test_sendd_u16bei : (after (.senddU16bei 33) { State.reset with prod16 := List.replicate 32 0x0100 ++ [0x0120] }).history =
    [.dc 1 .ok, .wr ((List.replicate 32 [(1 : Byte), 0]).flatten) .ok, .wr [0x01, 0x20] .ok] := by
  decide +kernel

/-- V13, `.fail 1`: converted, though nothing is sent. -/
theorem test_sendd_u16be_fail : ((after (.senddU16be 1) { withBytes [0x34, 0x12] with answers := failAfter 0 }).pb,
    seen (.senddU16be 1) { withBytes [0x34, 0x12] with answers := failAfter 0 }) =
    ([(0, 0x12), (1, 0x34)], [.dc 1 (.fail 0)], some ⟨.selectLineError, 0⟩) := by
  decide +kernel

/-- V2, R255. -/
theorem test_sendc_reserved : ∀ i ∈ [Instr.sendcReserved8 0xFFFFFFFF, .sendcReserved9 0xFFFFFFFF, .sendcReserved10 0xFFFFFFFF, .sendcReserved11 0xFFFFFFFF, .sendcReserved12 0xFFFFFFFF, .sendcReserved13 0xFFFFFFFF, .sendcReserved14 0xFFFFFFFF, .sendcReserved15 0xFFFFFFFF],
    seen i State.reset = ([], some ⟨.unsupportedPayloadShape, 0⟩) := by
  decide +kernel

/-- V2, R255. -/
theorem test_sendd_reserved : ∀ i ∈ [Instr.senddReserved8 0xFFFFFFFF, .senddReserved9 0xFFFFFFFF, .senddReserved10 0xFFFFFFFF, .senddReserved11 0xFFFFFFFF, .senddReserved12 0xFFFFFFFF, .senddReserved13 0xFFFFFFFF, .senddReserved14 0xFFFFFFFF, .senddReserved15 0xFFFFFFFF],
    seen i State.reset = ([], some ⟨.unsupportedPayloadShape, 0⟩) := by
  decide +kernel

/-- V22. -/
theorem test_init_events : seen (.init .portrait) State.reset =
    ([.rst 0 .ok, .dly 10, .rst 1 .ok, .dly 5000, .dc 0 .ok, .wr [0x01] .ok, .dly 120000,
      .dc 0 .ok, .wr [0x36] .ok, .dc 1 .ok, .wr [0x48] .ok, .dc 0 .ok, .wr [0x3A] .ok, .dc 1 .ok, .wr [0x55] .ok,
      .dly 5000, .dc 0 .ok, .wr [0x11] .ok, .dly 5000, .dc 0 .ok, .wr [0x29] .ok], some ⟨.ok, 0⟩) := by
  decide +kernel

/-- V23, `.fail 11`. -/
theorem test_init_fail : ((after (.init .portrait) { State.reset with answers := failAfter 10 }).pd,
    (after (.init .portrait) { State.reset with answers := failAfter 10 }).seqResults) =
    (.configuringFormat, [⟨.selectLineError, 0⟩]) := by
  decide +kernel

/-- V25, first row. -/
theorem test_setwin : seen (.setwin 1 2 3 4) ready =
    ([.dc 0 .ok, .wr [0x2A] .ok, .dc 1 .ok, .wr [0, 1, 0, 3] .ok, .dc 0 .ok, .wr [0x2B] .ok, .dc 1 .ok,
      .wr [0, 2, 0, 4] .ok], some ⟨.ok, 0⟩) := by
  decide +kernel

/-- V25, `.fail 6`: `WIN` unchanged. -/
theorem test_setwin_fail : (after (.setwin 1 2 3 4) { ready with answers := failAfter 5 }).win = ⟨0, 0, 0, 0⟩ := by
  decide +kernel

/-- V26: `(7, 5)` is cell 47. -/
theorem test_wrpix : Memory.read (after (.wrpix 7 5 0x1234) ready).cur 47 = some 0x1234 := by
  decide +kernel

/-- V26: `x = width`. -/
theorem test_wrpix_bounds : seen (.wrpix 8 0 0xF800) ready = ([], some ⟨.outOfBoundsError, 0⟩) := by
  decide +kernel

/-- R166: every cell of `cur`, none of `snt`. -/
theorem test_clear : ((after (.clear 0x001F) ready).cur, (after (.clear 0x001F) ready).snt) = (Memory.fill 48 0x001F, Memory.fill 48 0) := by
  decide +kernel

/-- R167: the example. -/
theorem test_flush_one_pixel : seen .flush (after (.wrpix 3 2 0xF800) { ready with seqResults := [] }) =
    ([.dc 0 .ok, .wr [0x2A] .ok, .dc 1 .ok, .wr [0, 3, 0, 3] .ok, .dc 0 .ok, .wr [0x2B] .ok, .dc 1 .ok,
      .wr [0, 2, 0, 2] .ok, .dc 0 .ok, .wr [0x2C] .ok, .dc 1 .ok, .wr [0xF8, 0x00] .ok], some ⟨.ok, 0⟩) := by
  decide +kernel

/-- V28, sixth row: three pixels, one box. -/
theorem test_flush_box : boundingBox (after (.wrpix 3 0 1) (after (.wrpix 1 1 1) (after (.wrpix 6 4 1) ready))).dirtyCells = some ⟨1, 0, 6, 4⟩ := by
  decide +kernel

/-- V40, and `.fail 3`. -/
theorem test_bright : (seen (.bright 0xFF) ready).1 = [.dc 0 .ok, .wr [0x51] .ok, .dc 1 .ok, .wr [0xFF] .ok] ∧
    seen (.bright 0x80) { ready with answers := failAfter 2 } =
      ([.dc 0 .ok, .wr [0x51] .ok, .dc 1 (.fail 0)], some ⟨.selectLineError, 0⟩) := by
  decide +kernel

/-- V40. -/
theorem test_sleep : (seen (.sleep 1) ready).1 = [.dc 0 .ok, .wr [0x10] .ok] ∧ (seen (.sleep 0) ready).1 = [.dc 0 .ok, .wr [0x11] .ok] := by
  decide +kernel

/-- V40. -/
theorem test_display : (seen (.display 1) ready).1 = [.dc 0 .ok, .wr [0x29] .ok] ∧ (seen (.display 0) ready).1 = [.dc 0 .ok, .wr [0x28] .ok] := by
  decide +kernel

/-- V40. -/
theorem test_invert : (seen (.invert 1) ready).1 = [.dc 0 .ok, .wr [0x21] .ok] ∧ (seen (.invert 0) ready).1 = [.dc 0 .ok, .wr [0x20] .ok] := by
  decide +kernel

/-- V41. -/
theorem test_setori : seen (.setori .landscape) ready =
    ([.dc 0 .ok, .wr [0x36] .ok, .dc 1 .ok, .wr [0x28] .ok], some ⟨.ok, 0⟩) := by
  decide +kernel

/-- V42: after SETORI L, `(5, 7)` is cell 47 and `(6, 0)` is out of bounds. -/
theorem test_setori_addressing : Memory.read (after (.wrpix 5 7 1) (after (.setori .landscape) ready)).cur 47 = some 1 ∧
    (after (.wrpix 6 0 1) (after (.setori .landscape) ready)).seqResults = [⟨.ok, 0⟩, ⟨.outOfBoundsError, 0⟩] := by
  decide +kernel

/-- V41. -/
theorem test_getw_geth : seen .getw ready = ([], some ⟨.ok, 8⟩) ∧ seen .geth ready = ([], some ⟨.ok, 6⟩) ∧
    seen .getw { ready with orient := .landscape } = ([], some ⟨.ok, 6⟩) ∧
    seen .geth { ready with orient := .landscapeFlipped } = ([], some ⟨.ok, 8⟩) := by
  decide +kernel

/-- V30, poll 2. -/
theorem test_poll_down : (after .poll { State.reset with pins := ⟨1, 0, 1, 5⟩ }).qda = ⟨0b01, 0b00, 0x00, 0, false⟩ ∧
    (after .poll { State.reset with pins := ⟨1, 0, 1, 5⟩ }).qdaResults = [⟨.ok, 2⟩] := by
  decide +kernel

/-- A POLL at `now` with phase A high, B low and the switch closed. -/
def pressed (now : Word) (s : State) : State := after .poll { s with pins := ⟨1, 0, 0, now⟩ }

/-- V37's start state. -/
def held : State := { State.reset with qda := ⟨0b00, 0b00, 0x7F, 0, false⟩ }

/-- V37: at poll 1 the direction wins, at poll 2 the press is accepted. -/
theorem test_poll_select : (pressed 510 (pressed 500 held)).qdaResults = [⟨.ok, 2⟩, ⟨.ok, 3⟩] ∧
    (pressed 510 (pressed 500 held)).qda = ⟨0b11, 0b00, 0xFF, 510, true⟩ := by
  decide +kernel

/-- V38: the interval is taken modulo 2^32. -/
theorem test_poll_wrap : (after .poll { State.reset with qda := ⟨0, 0, 0xFF, 0xFFFFFFC0, true⟩, pins := ⟨0, 0, 0, 0x40⟩ }).qdaResults = [⟨.ok, 0⟩] ∧
    (after .poll { State.reset with qda := ⟨0, 0, 0xFF, 0xFFFFFF00, true⟩, pins := ⟨0, 0, 0, 0x64⟩ }).qdaResults = [⟨.ok, 3⟩] := by
  decide +kernel

/-- A wire transaction with all events answered `ok`. -/
def onWire (i : Instr) : List Event := (after i State.reset).history

/-- R96, R97: the transactions without data bytes. -/
theorem test_wire_commands : onWire .wireSoftwareReset = [.dc 0 .ok, .wr [0x01] .ok] ∧
    onWire .wireSleepOn = [.dc 0 .ok, .wr [0x10] .ok] ∧
    onWire .wireSleepOff = [.dc 0 .ok, .wr [0x11] .ok] ∧
    onWire .wireInvertOff = [.dc 0 .ok, .wr [0x20] .ok] ∧
    onWire .wireInvertOn = [.dc 0 .ok, .wr [0x21] .ok] ∧
    onWire .wireDisplayOff = [.dc 0 .ok, .wr [0x28] .ok] ∧
    onWire .wireDisplayOn = [.dc 0 .ok, .wr [0x29] .ok] := by
  decide +kernel

/-- R96 to R98, S3: the transactions with data bytes. -/
theorem test_wire_data : onWire (.wireColumnRange 0x0102 0x01FF) = [.dc 0 .ok, .wr [0x2A] .ok, .dc 1 .ok, .wr [0x01, 0x02, 0x01, 0xFF] .ok] ∧
    onWire (.wirePageRange 0 0x013F) = [.dc 0 .ok, .wr [0x2B] .ok, .dc 1 .ok, .wr [0x00, 0x00, 0x01, 0x3F] .ok] ∧
    onWire (.wireMemoryWrite [0xF800]) = [.dc 0 .ok, .wr [0x2C] .ok, .dc 1 .ok, .wr [0xF8, 0x00] .ok] ∧
    onWire (.wireMemoryAccessControl 0x48) = [.dc 0 .ok, .wr [0x36] .ok, .dc 1 .ok, .wr [0x48] .ok] ∧
    onWire (.wirePixelFormat 0x55) = [.dc 0 .ok, .wr [0x3A] .ok, .dc 1 .ok, .wr [0x55] .ok] ∧
    onWire (.wireBrightness 0x80) = [.dc 0 .ok, .wr [0x51] .ok, .dc 1 .ok, .wr [0x80] .ok] := by
  decide +kernel

/-- The panel after SETWIN 2, 1, 3, 2 and a memory-write of two pixels. -/
def written : Panel := (after (.wireMemoryWrite [0xF800, 0x07E0]) (after (.setwin 2 1 3 2) ready)).panel

/-- R81, R82, P4 line 4: the first two pixels of the window `(2, 1)` to `(3, 2)`. -/
theorem test_panel_window : (written.pixel 2 1, written.pixel 3 1, written.pixel 2 2) = (some 0xF800, some 0x07E0, none) := by
  decide +kernel

/-- One step's results on the two ports, and its events. -/
def stepped (s : State) : Option (List Result × List Result × List Event) :=
  match step s with
  | .next t => some (t.seqResults, t.qdaResults, t.history)
  | .fault _ => none
  | .refused _ => none

/-- V2: POLL on `SEQ_CMD` and FLUSH on `QDA_CMD` are `IllegalOp`. -/
theorem test_ports : stepped { ready with inputs := [.seqCmd 0x400000000000000000] } = some ([⟨.illegalOp, 0⟩], [], []) ∧
    stepped { ready with inputs := [.qdaCmd 0x340000000000000000] } = some ([], [⟨.illegalOp, 0⟩], []) := by
  decide +kernel

/-- A word of the table is the next operation. -/
theorem test_fetch_word : stepped (State.reset.withFetchWord 72 0x3A0000000000000000) = some ([⟨.ok, 8⟩], [], []) ∧
    stepped (State.reset.withFetchWord 72 0x400000000000000000) = some ([], [⟨.ok, 0⟩], []) ∧
    stepped (State.reset.withFetchWord 8 0x29) = some ([⟨.ok, 0⟩], [], [.dc 0 .ok, .wr [0x29] .ok]) := by
  decide +kernel

/-- What HOST reads in one step. -/
def hostSees (input : Input) (s : State) : List HostRead :=
  match step { s with inputs := [input] } with
  | .next t => t.hostReads
  | .fault _ => []
  | .refused _ => []

/-- R64, R68, V13: after SENDD.U16BE, the words natively and the bytes as they lie. -/
theorem test_host_reads : hostSees (.readWords 0 2) (after (.senddU16be 2) (withBytes [0x34, 0x12, 0xCD, 0xAB])) = [.words 0 [0x3412, 0xCDAB]] ∧
    hostSees (.readBytes 1 2) (after (.senddU16be 2) (withBytes [0x34, 0x12, 0xCD, 0xAB])) = [.bytes 1 [0x34, 0xAB]] := by
  decide +kernel

/-- R64: `PBW(1)` in either order. -/
theorem test_native_word_view : Memory.word .le [(2, 0xCD), (3, 0xAB)] 1 = some 0xABCD ∧ Memory.word .be [(2, 0xCD), (3, 0xAB)] 1 = some 0xCDAB := by
  decide +kernel

/-- R80: an opcode that R96 does not list becomes the current command, data bytes leave it. -/
theorem test_panel_unlisted_opcode : (after (.sendcU8 2) (withBytes [0x2C, 0xE3])).panel.command = some 0xE3 ∧
    (after (.senddU8 2) { withBytes [0x12, 0xE3] with panel := { Panel.unknown with command := some 0xE3 } }).panel.command = some 0xE3 := by
  decide +kernel

/-- A test bench assumes that pixel `(1, 0)` is green after the panel's resets, and what the panel keeps asleep. -/
def assuming (keeps : Bool) : State :=
  { State.reset with
    panel := { Panel.unknown with bench := { pixels := [(1, 0x07E0)], keepsAsleep := keeps } } }

/-- R83, D41: the pixel memory a test bench assumes is there after INIT. -/
theorem test_panel_after_init : (after (.init .portrait) (assuming false)).panel.pixel 1 0 = some 0x07E0 ∧
    (after (.init .portrait) State.reset).panel.pixel 1 0 = none := by
  decide +kernel

/-- R269, U13: what the panel keeps while asleep is only what a test bench assumes. -/
theorem test_panel_asleep : (after (.sleep 1) (after (.init .portrait) (assuming true))).panel.pixel 1 0 = some 0x07E0 ∧
    (after (.sleep 1) (after (.init .portrait) (assuming false))).panel.pixel 1 0 = none := by
  decide +kernel

/-! ### Every statement's premises are met

One theorem for each statement of Certificates/Slice0/Obligations.lean that has premises, with a case for each clause
and boundary values of its ranges. -/

/-- Whether an operation gives a next state. -/
def completes (i : Instr) (s : State) : Bool :=
  match exec i s with
  | .next _ => true
  | .fault _ => false
  | .refused _ => false

theorem next_after {i : Instr} {s : State} (h : completes i s = true) : exec i s = .next (after i s) := by
  unfold completes at h
  unfold after
  split at h
  · rename_i t ht
    rw [ht]
  · cases h
  · cases h

/-- Right after block reset, with the small parameters: 3 by 2 cells, chunks of 2 bytes, 8 bytes of `PB`. -/
def small : State := { State.reset with cfg := smallConfig }

/-- The same after INIT, the panel's window the whole panel. -/
def smallUp : State :=
  { small with
    pd := .ready
    cur := Memory.fill 6 0
    snt := Memory.fill 6 0
    panel := { Panel.unknown with command := some 0x2C, columns := some (0, 2), pages := some (0, 1) } }

/-- One pixel to send. -/
def smallDirty : State := { smallUp with cur := Memory.write (Memory.fill 6 0) 5 0xF800 }

/-- Eight bytes in `PB`: a full slice. -/
def smallBytes : State := { small with pb := Memory.writeFrom [] 0 [1, 2, 3, 4, 5, 6, 7, 8] }

theorem noAnswers {s : State} (h : s.answers = []) : AllOk s := fun _ ha => absurd (h ▸ ha) List.not_mem_nil

theorem witness_DecodeInvertsEncode :
    Instr.WellFormed (.wireMemoryWrite [0xF800]) ∧ Instr.WellFormed (.setwin 1 2 3 4) :=
  ⟨by show 1 < 2 ^ 32; decide, trivial⟩

theorem witness_OperandsComeFromTheirFields :
    orientationCode .portrait = (0xFFFC : HalfWord).extractLsb' 0 2 ∧
      orientationCode .landscape = (1 : HalfWord).extractLsb' 0 2 ∧
      orientationCode .portraitFlipped = (2 : HalfWord).extractLsb' 0 2 ∧
      orientationCode .landscapeFlipped = (0xFFFF : HalfWord).extractLsb' 0 2 ∧
      (0x10, Instr.sendcU8) ∈ transportRows ∧ (0x2F, Instr.senddReserved15) ∈ transportRows :=
  ⟨by decide, by decide, by decide, by decide, by simp [transportRows], by simp [transportRows]⟩

theorem witness_StepRunsTheDecodedOperation :
    (∃ (s : State) (rest : List Input) (cw : CommandWord) (i : Instr),
      s.inputs = .seqCmd cw :: rest ∧ s.seqMode = .idle ∧ decodeCommand cw = .ok i ∧ i ≠ .poll) ∧
    (∃ (s : State) (rest : List Input) (cw : CommandWord),
      s.inputs = .qdaCmd cw :: rest ∧ decodeCommand cw = .ok .poll) ∧
    (∃ (s : State) (rest : List Input) (bytes : List Byte) (i : Instr),
      s.inputs = .wire bytes :: rest ∧ s.seqMode = .idle ∧ decodeWire bytes = .ok i) :=
  ⟨⟨{ small with inputs := [.seqCmd 0x340000000000000000, .blockReset] }, [.blockReset], 0x340000000000000000, .flush,
      rfl, rfl, by decide +kernel, by decide⟩,
    ⟨{ small with inputs := [.qdaCmd 0x400000000000000000] }, [], 0x400000000000000000, rfl, by decide +kernel⟩,
    ⟨{ small with inputs := [.wire [0x29]] }, [], [0x29], .wireDisplayOn, rfl, rfl, by decide +kernel⟩⟩

/-- The classes on either side of those `SEQ_CMD` executes, POLL on it, and the words next to POLL on `QDA_CMD`. -/
theorem witness_IllegalOpHasNoEffect :
    (∀ op ∈ [0x0F, 0x3C, 0x3F, 0x40, 0xFF], ∃ (s : State) (cw : CommandWord),
      s.inputs = .seqCmd cw :: [] ∧ s.seqMode = .idle ∧
        ((opField cw).toNat < 0x10 ∨ (0x3C ≤ (opField cw).toNat ∧ (opField cw).toNat ≤ 0x3F) ∨
          0x40 ≤ (opField cw).toNat)) ∧
    (∀ op ∈ [0x3F, 0x41], ∃ (s : State) (cw : CommandWord),
      s.inputs = .qdaCmd cw :: [] ∧ (opField cw).toNat ≠ 0x40 ∧ (opField cw).toNat = op) ∧
    (∃ s : State, s.cfg.pbBytes < (9 : Word).toNat ∧ s.cfg.pbBytes < 2 * (5 : Word).toNat ∧
      s.cfg.pbBytes < 2 * (0xFFFFFFFF : Word).toNat) :=
  ⟨fun op h => ⟨{ small with inputs := [.seqCmd (commandWord (BitVec.ofNat 8 op) 0 0 0 0)] }, _, rfl, rfl,
      by revert op; decide +kernel⟩,
    fun op h => ⟨{ small with inputs := [.qdaCmd (commandWord (BitVec.ofNat 8 op) 0 0 0 0)] }, _, rfl,
      by revert op; decide +kernel, by revert op; decide +kernel⟩,
    small, by decide, by decide, by decide⟩

/-- Hung in a Panel Driver operation, HOST's write taken; hung in SENDD, the write waiting and a POLL taken. -/
theorem witness_HungSeqGoesNoFurther :
    (∃ s t : State, s.seqMode ≠ .idle ∧ (∀ rest, takeInput s.seqMode s.inputs ≠ some (.blockReset, rest)) ∧
      step s = .next t ∧ t.pb ≠ s.pb) ∧
    (∃ s t : State, s.seqMode = .hungInTransport ∧
      (∀ rest, takeInput s.seqMode s.inputs ≠ some (.blockReset, rest)) ∧ step s = .next t ∧ t.qda ≠ s.qda) :=
  ⟨⟨{ smallUp with seqMode := .hungInDriver, inputs := [.seqCmd 0, .payloadBytes 0 [1]] }, _,
      by decide, fun _ h => by simp [takeInput, acceptable] at h, rfl, by decide⟩,
    ⟨{ smallUp with seqMode := .hungInTransport, inputs := [.payloadBytes 0 [1], .qdaCmd 0x400000000000000000],
                    pins := ⟨1, 0, 0, 0⟩ }, _,
      rfl, fun _ h => by simp [takeInput, acceptable] at h, rfl, by decide⟩⟩

/-- The operation completes with every event answered `ok`, and emits a fallible event number `n`. -/
def Reaches (i : Instr) (s : State) (n : Nat) : Prop :=
  ∃ u es st, exec i { s with answers := [] } = .next u ∧ u.history = s.history ++ es ∧
    (es.filterMap failureOf)[n]? = some st

theorem reaches {i : Instr} {s : State} {n : Nat}
    (h : completes i { s with answers := [] } = true ∧ s.history = [] ∧
      (((after i { s with answers := [] }).history.filterMap failureOf)[n]?).isSome = true) : Reaches i s n := by
  obtain ⟨st, hst⟩ := Option.isSome_iff_exists.mp h.2.2
  exact ⟨_, _, st, next_after h.1, by rw [h.2.1]; rfl, hst⟩

/-- Every event of FLUSH, SETWIN, INIT and a SENDC at which one of them can fail first or last. -/
theorem witness_FailedEventEndsTheOperation :
    (∀ n ∈ [0, 3, 13], Reaches .flush { smallDirty with answers := List.replicate n .ok ++ [.fail 1, .ok] } n) ∧
    (∀ n ∈ [0, 9], Reaches (.setwin 1 0 2 1) { smallUp with answers := List.replicate n .ok ++ [.fail 1] } n) ∧
    (∀ n ∈ [0, 1, 15], Reaches (.init .landscape) { small with answers := List.replicate n .ok ++ [.fail 0] } n) ∧
    (∀ n ∈ [0, 4], Reaches (.sendcU16be 4) { smallBytes with answers := List.replicate n .ok ++ [.fail 3] } n) :=
  ⟨fun n h => reaches (by revert n; decide +kernel), fun n h => reaches (by revert n; decide +kernel),
    fun n h => reaches (by revert n; decide +kernel), fun n h => reaches (by revert n; decide +kernel)⟩

/-- The first, an inner and the last fallible event of BRIGHT and of a chunked SENDD stay unanswered; producers of
either width deliver nothing, half a chunk, and a whole chunk with half of another. -/
theorem witness_UnansweredEventsAndShortProducersHang :
    (∀ n ∈ [0, 2, 3], Reaches (.bright 0x80) { smallUp with answers := List.replicate n .ok ++ [.never 1, .ok] } n) ∧
    (∀ n ∈ [0, 1, 4], Reaches (.senddU8 8) { smallBytes with answers := List.replicate n .ok ++ [.never 1] } n) ∧
    (∀ n ∈ [0, 1], Reaches (.init .portrait) { small with answers := List.replicate n .ok ++ [.never 0] } n) ∧
    (∀ n ∈ [0, 1, 3], ∃ s : State, s.cfg.WellFormed ∧ AllOk s ∧ s.prod8.length = n ∧
      s.prod8.length < (4 : Word).toNat) ∧
    (Shape.u16i ∈ [Shape.u16i, .u16lei, .u16bei] ∧ Shape.u16bei ∈ [Shape.u16i, .u16lei, .u16bei]) ∧
    (∀ n ∈ [0, 1], ∃ s : State, s.cfg.WellFormed ∧ AllOk s ∧ s.prod16.length = n ∧
      s.prod16.length < (2 : Word).toNat) :=
  ⟨fun n h => reaches (by revert n; decide +kernel), fun n h => reaches (by revert n; decide +kernel),
    fun n h => reaches (by revert n; decide +kernel),
    fun n h => ⟨{ small with prod8 := List.replicate n 7 }, small_config, noAnswers rfl, by simp,
      by revert n; decide⟩,
    by decide,
    fun n h => ⟨{ small with prod16 := List.replicate n 7 }, small_config, noAnswers rfl, by simp,
      by revert n; decide⟩⟩

/-- INIT, and a BRIGHT whose data write fails after its byte reached the panel. -/
theorem witness_LinesAndPanelFollowTheEvents :
    exec (.init .landscape) small = .next (after (.init .landscape) small) ∧
      exec (.bright 0x80) { smallUp with answers := [.ok, .ok, .ok, .fail 1] } =
        .next (after (.bright 0x80) { smallUp with answers := [.ok, .ok, .ok, .fail 1] }) ∧
      (after (.bright 0x80) { smallUp with answers := [.ok, .ok, .ok, .fail 1] }).panel.brightness = some 0x80 :=
  ⟨next_after (by decide +kernel), next_after (by decide +kernel), by decide +kernel⟩

theorem witness_PollCommutesWithEveryOperation :
    Instr.flush ≠ .poll ∧ (∃ u, exec .poll smallDirty = .next u) ∧ (∃ t, exec .flush smallDirty = .next t) ∧
      exec (.senddU8 1) small = .refused .unwrittenPayload ∧
      exec .flush { smallUp with cur := [], snt := [(5, 1)] } = .fault .unspecifiedCell :=
  ⟨by decide, ⟨_, rfl⟩, ⟨_, next_after (by decide +kernel)⟩, rfl, rfl⟩

theorem witness_AgentsShareNoState :
    exec .flush smallDirty = .next (after .flush smallDirty) ∧ Instr.flush ≠ .poll ∧
      exec .poll smallDirty = .next (after .poll smallDirty) :=
  ⟨next_after (by decide +kernel), by decide, next_after (by decide +kernel)⟩

theorem witness_OnlyTheNamedOperationsWrite :
    (∀ i s, completes i s = true → exec i s = .next (after i s)) ∧
    (completes (.init .landscape) { small with rstN := 0 } = true ∧
      (after (.init .landscape) { small with rstN := 0 }).pd ≠ .uninitialized ∧
      (after (.init .landscape) { small with rstN := 0 }).orient ≠ .portrait ∧
      (after (.init .landscape) { small with rstN := 0 }).cur ≠ [] ∧
      (after (.init .landscape) { small with rstN := 0 }).snt ≠ [] ∧
      (after (.init .landscape) { small with rstN := 0 }).rstN ≠ 0) ∧
    (completes .flush smallDirty = true ∧ (after .flush smallDirty).win ≠ ⟨0, 0, 0, 0⟩ ∧
      (after .flush smallDirty).snt ≠ Memory.fill 6 0) ∧
    (completes (.clear 1) smallUp = true ∧ (after (.clear 1) smallUp).cur ≠ Memory.fill 6 0) ∧
    (completes (.senddU16be 1) smallBytes = true ∧
      Memory.read (after (.senddU16be 1) smallBytes).pb 0 ≠ Memory.read smallBytes.pb 0) ∧
    (completes .poll { small with pins := ⟨1, 1, 0, 0⟩ } = true ∧
      (after .poll { small with pins := ⟨1, 1, 0, 0⟩ }).qda ≠ small.qda) :=
  ⟨fun _ _ => next_after, by decide +kernel, by decide +kernel, by decide +kernel, by decide +kernel,
    by decide +kernel⟩

theorem witness_PdStateMovesForwardOnly :
    small.pd = .uninitialized ∧ exec (.init .portrait) small = .next (after (.init .portrait) small) ∧
      (after (.init .portrait) small).pd = .ready ∧
      exec (.init .portrait) { small with answers := [.fail 0] } =
        .next (after (.init .portrait) { small with answers := [.fail 0] }) ∧
      (after (.init .portrait) { small with answers := [.fail 0] }).pd = .resetting :=
  ⟨rfl, next_after (by decide +kernel), by decide +kernel, next_after (by decide +kernel), by decide +kernel⟩

theorem witness_HistoryOnlyGrows :
    ∃ (i : Instr) (s t : State), exec i s = .next t ∧ s.history ≠ t.history :=
  ⟨.flush, smallDirty, _, next_after (by decide +kernel), by decide +kernel⟩

theorem witness_ParametersNeverChange : ∃ s t : State, step s = .next t ∧ s.inputs ≠ [] :=
  ⟨{ small with inputs := [.blockReset] }, _, rfl, by decide⟩

/-- `smallUp` meets the invariant of a run, with an operation to take. -/
theorem witness_StepKeepsTheInvariant :
    ∃ s t : State, s.Inv ∧ step s = .next t ∧ s.inputs ≠ [] :=
  have filled : ∀ i, i < smallConfig.cells → Memory.read smallUp.cur i = some 0 := by decide +kernel
  ⟨{ smallUp with inputs := [.seqCmd 0x330001000000000000] }, _,
    { config := small_config, pb_wf := by decide, cb_wf := by decide, cur_wf := by decide +kernel,
      snt_wf := by decide +kernel, pixels_wf := by decide, bench_wf := by decide,
      pb_below := fun _ h => absurd h List.not_mem_nil, cb_below := fun _ h => absurd h List.not_mem_nil,
      cur_below := fun _ h => (Memory.mem_fill h).1, snt_below := fun _ h => (Memory.mem_fill h).1,
      cur_filled := fun _ i h => ⟨0, filled i h⟩, snt_filled := fun _ i h => ⟨0, filled i h⟩,
      writes_fit := fun _ h => absurd h List.not_mem_nil }, rfl, by decide⟩

/-- A slice of every length up to the whole of `PB`: 8 bytes, and none. -/
theorem witness_ByteSliceIsSent :
    ∀ len ∈ [(0 : Word), 8], ∃ (s : State) (bytes : List Byte), s.cfg.WellFormed ∧ AllOk s ∧
      len.toNat ≤ s.cfg.pbBytes ∧ Memory.readFrom s.pb 0 len.toNat = some bytes :=
  List.forall_mem_cons.mpr ⟨⟨smallBytes, [], small_config, noAnswers rfl, by decide, by decide +kernel⟩,
    List.forall_mem_singleton.mpr
      ⟨smallBytes, [1, 2, 3, 4, 5, 6, 7, 8], small_config, noAnswers rfl, by decide, by decide +kernel⟩⟩

theorem witness_NativeSliceIsSent :
    ∃ (s : State) (words : List HalfWord), s.cfg.WellFormed ∧ AllOk s ∧ 2 * (4 : Word).toNat ≤ s.cfg.pbBytes ∧
      Memory.readFrom s.pb 0 (2 * (4 : Word).toNat) = some (serAll s.cfg.nativeOrder words) :=
  ⟨smallBytes, [0x0201, 0x0403, 0x0605, 0x0807], small_config, noAnswers rfl, by decide, by decide +kernel⟩

theorem witness_ConvertingSliceIsSentAndConverted :
    ∃ (s : State) (words : List HalfWord), s.cfg.WellFormed ∧ AllOk s ∧ words.length = (3 : Word).toNat ∧
      2 * (3 : Word).toNat ≤ s.cfg.pbBytes ∧
      Memory.readFrom s.pb 0 (2 * (3 : Word).toNat) = some (serAll s.cfg.nativeOrder words) :=
  ⟨smallBytes, [0x0201, 0x0403, 0x0605], small_config, noAnswers rfl, by decide, by decide, by decide +kernel⟩

/-- The select line and the first chunk fail. -/
theorem witness_ConversionNeedsNoAnswer :
    (∀ s ∈ [{ smallBytes with answers := [.fail 0] }, { smallBytes with answers := [.ok, .fail 1] }],
      Memory.readFrom s.pb 0 (2 * (3 : Word).toNat) =
        some (serAll s.cfg.nativeOrder [0x0201, 0x0403, (0x0605 : HalfWord)]) ∧
      2 * (3 : Word).toNat ≤ s.cfg.pbBytes ∧ completes (.sendcU16le 3) s = true ∧ completes (.senddU16le 3) s = true ∧
      completes (.sendcU16be 3) s = true ∧ completes (.senddU16be 3) s = true) ∧
    (∀ i s, completes i s = true → exec i s = .next (after i s)) :=
  ⟨by decide +kernel, fun _ _ => next_after⟩

/-- The first and the last word of a slice that fills `PB`. -/
theorem witness_NativeReadBackAfterConversion :
    ∀ i ∈ [0, 3], ∃ (s : State) (v : HalfWord), 2 * (4 : Word).toNat ≤ s.cfg.pbBytes ∧ i < (4 : Word).toNat ∧
      Memory.word s.cfg.nativeOrder s.pb i = some v ∧ exec (.sendcU16le 4) s = .next (after (.sendcU16le 4) s) ∧
      exec (.senddU16be 4) s = .next (after (.senddU16be 4) s) :=
  fun i h => ⟨smallBytes, _, by decide, by revert i; decide,
    (Option.some_get (by revert i; decide +kernel)).symm, next_after (by decide +kernel),
    next_after (by decide +kernel)⟩

theorem witness_ByteProducerIsSent :
    ∃ s : State, s.cfg.WellFormed ∧ AllOk s ∧ (3 : Word).toNat ≤ s.prod8.length :=
  ⟨{ small with prod8 := [1, 2, 3] }, small_config, noAnswers rfl, by decide⟩

theorem witness_WordProducersAreSentInTheirOrder :
    ∃ s : State, s.cfg.WellFormed ∧ AllOk s ∧ (2 : Word).toNat ≤ s.prod16.length :=
  ⟨{ small with prod16 := [0x1234, 0xABCD, 7] }, small_config, noAnswers rfl, by decide⟩

theorem witness_ReservedShapesAreUnsupported :
    Instr.senddReserved15 0 ∈ [Instr.sendcReserved8 0, .senddReserved15 0] := by
  decide

theorem witness_FailedSelectLineSendsNothing :
    ∀ sh ∈ [Shape.u8, .u16, .u16le, .u16be, .u8i, .u16i, .u16lei, .u16bei], ∃ s : State,
      (sh.isSlice = true → (4 : Word).toNat * sh.itemSize ≤ s.cfg.pbBytes ∧
        ∃ bytes, Memory.readFrom s.pb 0 ((4 : Word).toNat * sh.itemSize) = some bytes) ∧
      s.answers = [.fail 1, .ok] :=
  have whole : ∀ sh ∈ [Shape.u8, .u16, .u16le, .u16be, .u8i, .u16i, .u16lei, .u16bei],
      (4 : Word).toNat * sh.itemSize ≤ smallConfig.pbBytes ∧
        (Memory.readFrom smallBytes.pb 0 ((4 : Word).toNat * sh.itemSize)).isSome = true := by decide +kernel
  fun sh h => ⟨{ smallBytes with answers := [.fail 1, .ok] },
    fun _ => ⟨(whole sh h).1, Option.isSome_iff_exists.mp (whole sh h).2⟩, rfl⟩

/-- Two words in `PB`, and two items at the producer port of either width, in chunks of two bytes. -/
def smallStream : State := { smallBytes with prod8 := [1, 2, 3, 4], prod16 := [0x1234, 0xABCD] }

/-- The first and the last chunk of two words, in every 16-bit shape, and of four bytes from `PB` and the port. -/
theorem witness_FailedChunkEndsTheCall :
    (∀ k ∈ [0, 1], ∀ draw ∈ [0, 1, 2], ∃ s : State, s.cfg.WellFormed ∧
      s.answers = List.replicate (k + 1) .ok ++ .fail draw :: [] ∧ s.prod8 = smallStream.prod8) ∧
    (∀ sh ∈ [Shape.u16, .u16le, .u16be, .u16i, .u16lei, .u16bei],
      (2 : Word).toNat * sh.itemSize ≤ smallStream.cfg.pbBytes ∧
        ((frameBytes smallStream sh 2).map fun l => ceilDiv l.length smallStream.cfg.chunkBytes) = some 2) ∧
    (∀ sh ∈ [Shape.u8, .u8i],
      (4 : Word).toNat * sh.itemSize ≤ smallStream.cfg.pbBytes ∧
        ((frameBytes smallStream sh 4).map fun l => ceilDiv l.length smallStream.cfg.chunkBytes) = some 2) :=
  ⟨fun k _ draw _ => ⟨{ smallStream with answers := List.replicate (k + 1) .ok ++ .fail draw :: [] },
      small_config, rfl, rfl⟩, by decide +kernel, by decide +kernel⟩

/-- A stream of four bytes in every shape, and an empty one. -/
theorem witness_CommandBytesBecomeTheCommand :
    smallStream.cfg.WellFormed ∧ AllOk smallStream ∧
    (∀ sh ∈ [Shape.u16, .u16le, .u16be, .u16i, .u16lei, .u16bei],
      (2 : Word).toNat * sh.itemSize ≤ smallStream.cfg.pbBytes ∧
        ((frameBytes smallStream sh 2).map List.length) = some 4) ∧
    (∀ sh ∈ [Shape.u8, .u8i], (4 : Word).toNat * sh.itemSize ≤ smallStream.cfg.pbBytes ∧
        ((frameBytes smallStream sh 4).map List.length) = some 4 ∧ frameBytes smallStream sh 0 = some []) :=
  ⟨small_config, noAnswers rfl, by decide +kernel, by decide +kernel⟩

theorem witness_UnwrittenPayloadIsRefused :
    ∀ sh ∈ [Shape.u8, .u16, .u16le, .u16be], sh.isSlice = true ∧
      (4 : Word).toNat * sh.itemSize ≤ small.cfg.pbBytes ∧ 3 < (4 : Word).toNat * sh.itemSize ∧
      Memory.read small.pb 3 = none := by
  decide +kernel

/-- Chunks of two: five bytes (with a full chunk before the last), four (all of them even), none. -/
theorem witness_ChunksCutTheStream :
    0 < 2 ∧ 0 + 1 < (chunksOf 2 [1, 2, 3, 4, 5]).length ∧ 1 + 1 < (chunksOf 2 [1, 2, 3, 4, 5]).length ∧
      [5] ∈ chunksOf 2 [1, 2, 3, 4, 5] ∧ [3, 4] ∈ chunksOf 2 [1, 2, 3, 4] ∧ chunksOf 2 [] = [] := by
  decide +kernel

/-- The last word and byte of `PB`, and the first beyond it. -/
theorem witness_HostWritesThePayloadBuffer :
    (∃ s : State, s.seqMode ≠ .hungInTransport ∧ s.inputs = [.payloadWords 3 [0xABCD]] ∧
      2 * 3 + (serAll s.cfg.nativeOrder [0xABCD]).length ≤ s.cfg.pbBytes) ∧
    (∃ s : State, s.seqMode ≠ .hungInTransport ∧ s.inputs = [.payloadWords 4 [0xABCD]] ∧
      s.cfg.pbBytes < 2 * 4 + (serAll s.cfg.nativeOrder [0xABCD]).length) ∧
    (∃ s : State, s.seqMode ≠ .hungInTransport ∧ s.inputs = [.payloadBytes 7 [0xAB]] ∧
      7 + [(0xAB : Byte)].length ≤ s.cfg.pbBytes) ∧
    (∃ s : State, s.seqMode ≠ .hungInTransport ∧ s.inputs = [.payloadBytes 8 [0xAB]] ∧
      s.cfg.pbBytes < 8 + [(0xAB : Byte)].length) :=
  ⟨⟨{ small with inputs := [.payloadWords 3 [0xABCD]] }, by decide, rfl, by decide⟩,
    ⟨{ small with inputs := [.payloadWords 4 [0xABCD]], seqMode := .hungInDriver }, by decide, rfl, by decide⟩,
    ⟨{ small with inputs := [.payloadBytes 7 [0xAB]] }, by decide, rfl, by decide⟩,
    ⟨{ small with inputs := [.payloadBytes 8 [0xAB]] }, by decide, rfl, by decide⟩⟩

/-- All of `PB`, its last byte and word, none of it; a byte HOST never wrote; the first byte and word beyond; and a read
that waits. -/
theorem witness_HostReadsThePayloadBuffer :
    ((∃ l, 0 + 8 ≤ smallBytes.cfg.pbBytes ∧ Memory.readFrom smallBytes.pb 0 8 = some l) ∧
      (∃ l, 8 + 0 ≤ smallBytes.cfg.pbBytes ∧ Memory.readFrom smallBytes.pb 8 0 = some l) ∧
      (7 + 1 ≤ small.cfg.pbBytes ∧ 7 ≤ 7 ∧ 7 < 7 + 1 ∧ Memory.read small.pb 7 = none) ∧ small.cfg.pbBytes < 8 + 1) ∧
    ((2 * 3 + 2 * 1 ≤ smallBytes.cfg.pbBytes ∧ [(0x0807 : HalfWord)].length = 1 ∧
        Memory.readFrom smallBytes.pb (2 * 3) 2 = some (ser16 0x0807 smallBytes.cfg.nativeOrder)) ∧
      (2 * 3 + 2 * 1 ≤ small.cfg.pbBytes ∧ 2 * 3 ≤ 7 ∧ 7 < 2 * 3 + 2 * 1 ∧ Memory.read small.pb 7 = none) ∧
      small.cfg.pbBytes < 2 * 4 + 2 * 1) ∧
    (smallBytes.seqMode ≠ .hungInTransport ∧
      (∃ s : State, s.seqMode = .hungInTransport ∧ s.inputs = [.readWords 0 1])) :=
  ⟨⟨⟨[1, 2, 3, 4, 5, 6, 7, 8], by decide +kernel⟩, ⟨[], by decide +kernel⟩, by decide +kernel, by decide⟩,
    by decide +kernel, by decide,
    ⟨{ small with seqMode := .hungInTransport, inputs := [.readWords 0 1] }, rfl, rfl⟩⟩

theorem witness_StateGateRefusesWithoutEffect :
    (∃ s : State, s.pd ≠ .uninitialized) ∧ (∃ s : State, s.pd ≠ .ready) :=
  ⟨⟨smallUp, by decide⟩, ⟨small, by decide⟩⟩

theorem witness_InitBringsThePanelUp :
    ∃ s : State, s.cfg.WellFormed ∧ AllOk s ∧ s.pd = .uninitialized :=
  ⟨small, small_config, noAnswers rfl, rfl⟩

/-- The first and the last fallible event of INIT, and those on either side of a change of state. -/
theorem witness_FailedInitStaysInItsState :
    ∀ n ∈ [0, 1, 2, 3, 4, 11, 12, 15], ∃ s : State, s.cfg.WellFormed ∧ s.pd = .uninitialized ∧ n < 16 ∧
      s.answers = List.replicate n .ok ++ .fail 0 :: [] :=
  fun n h => ⟨{ small with answers := List.replicate n .ok ++ .fail 0 :: [] }, small_config, rfl,
    by revert n; decide, rfl⟩

theorem witness_SetwinSendsBothRanges :
    ∃ s : State, s.cfg.WellFormed ∧ AllOk s ∧ s.pd = .ready :=
  ⟨smallUp, small_config, noAnswers rfl, rfl⟩

theorem witness_SetwinRecordsOnlySuccess :
    (completes (.setwin 1 0 2 1) smallUp = true ∧ (after (.setwin 1 0 2 1) smallUp).win = ⟨1, 0, 2, 1⟩) ∧
    (completes (.setwin 1 0 2 1) { smallUp with answers := [.ok, .fail 0] } = true ∧
      (after (.setwin 1 0 2 1) { smallUp with answers := [.ok, .fail 0] }).win = ⟨0, 0, 0, 0⟩) := by
  decide +kernel

/-- The last column and row, and the first beyond each. -/
theorem witness_WrpixWritesOneCell :
    small.pd ≠ .ready ∧ smallUp.pd = .ready ∧
      (smallUp.width.toNat ≤ (3 : HalfWord).toNat ∨ smallUp.height.toNat ≤ (0 : HalfWord).toNat) ∧
      (smallUp.width.toNat ≤ (0 : HalfWord).toNat ∨ smallUp.height.toNat ≤ (2 : HalfWord).toNat) ∧
      (2 : HalfWord).toNat < smallUp.width.toNat ∧ (1 : HalfWord).toNat < smallUp.height.toNat := by
  decide +kernel

theorem witness_ClearFillsCurrent : small.pd ≠ .ready ∧ smallUp.pd = .ready := by decide

theorem witness_FlushOfEqualFramesIsQuiet : ∃ s : State, s.pd = .ready ∧ ∀ x y, ¬ s.differs x y :=
  ⟨smallUp, rfl, fun _ _ h => h.2.2 rfl⟩

/-- Two differing cells at opposite corners. -/
theorem witness_DirtyBoxIsTheLeastRectangle :
    boundingBox (State.dirtyCells { smallDirty with snt := Memory.write (Memory.fill 6 0) 0 1 }) =
      some ⟨0, 0, 2, 1⟩ := by
  decide +kernel

theorem witness_FlushSendsTheDirtyBox :
    ∃ (s : State) (b : Box), s.cfg.WellFormed ∧ Filled s.cfg s.cur ∧ AllOk s ∧ s.pd = .ready ∧
      boundingBox s.dirtyCells = some b :=
  have filled : ∀ i, i < smallConfig.cells → (Memory.read smallDirty.cur i).isSome = true := by decide +kernel
  ⟨smallDirty, ⟨2, 1, 2, 1⟩, small_config, fun i h => Option.isSome_iff_exists.mp (filled i h), noAnswers rfl, rfl,
    by decide +kernel⟩

/-- A FLUSH that succeeds and one whose last chunk fails. -/
theorem witness_FlushCommitsOnlyOnSuccess :
    (completes .flush smallDirty = true ∧ (after .flush smallDirty).snt = smallDirty.cur) ∧
    (completes .flush { smallDirty with answers := failAfter 13 } = true ∧
      (after .flush { smallDirty with answers := failAfter 13 }).snt = smallDirty.snt) := by
  decide +kernel

theorem witness_SecondFlushIsQuiet :
    smallDirty.pd = .ready ∧ exec .flush smallDirty = .next (after .flush smallDirty) ∧
      Returns smallDirty (after .flush smallDirty) .ok 0 :=
  ⟨rfl, next_after (by decide +kernel), by unfold Returns; decide +kernel⟩

theorem witness_FailedFlushIsRepeatedWhole :
    ∃ s t : State, s.pd = .ready ∧ exec .flush s = .next t ∧ ¬ Returns s t .ok 0 :=
  ⟨{ smallDirty with answers := failAfter 13 }, _, rfl, next_after (by decide +kernel),
    by unfold Returns; decide +kernel⟩

theorem witness_CommandWritesSendTheirOpcode :
    ∃ s : State, s.cfg.WellFormed ∧ AllOk s ∧ s.pd = .ready :=
  ⟨smallUp, small_config, noAnswers rfl, rfl⟩

theorem witness_SetoriTakesEffect :
    ∃ s : State, s.cfg.WellFormed ∧ AllOk s ∧ s.pd = .ready :=
  ⟨smallUp, small_config, noAnswers rfl, rfl⟩

theorem witness_SetoriKeepsTheFrames :
    (completes (.setori .landscape) smallUp = true ∧ (after (.setori .landscape) smallUp).orient = .landscape) ∧
    (completes (.setori .landscape) { smallUp with answers := [.fail 0] } = true ∧
      (after (.setori .landscape) { smallUp with answers := [.fail 0] }).orient = .portrait) := by
  decide +kernel

theorem witness_DimensionsFollowTheOrientation :
    (∀ v ∈ [Orientation.portrait, .portraitFlipped], ∃ s : State,
      s.orient = v ∧ (s.orient = .portrait ∨ s.orient = .portraitFlipped)) ∧
    (∀ v ∈ [Orientation.landscape, .landscapeFlipped], ∃ s : State,
      s.orient = v ∧ (s.orient = .landscape ∨ s.orient = .landscapeFlipped)) :=
  ⟨fun v h => ⟨{ small with orient := v }, rfl, by revert v; decide⟩,
    fun v h => ⟨{ small with orient := v }, rfl, by revert v; decide⟩⟩

theorem witness_DirectionWinsOverTheButton :
    small.cfg.WellFormed ∧
    (∃ s t : State, s.cfg = smallConfig ∧ exec .poll s = .next t ∧ patternAfter s = s.cfg.patALeads) ∧
    (∃ s t : State, s.cfg = smallConfig ∧ exec .poll s = .next t ∧ patternAfter s = s.cfg.patBLeads) ∧
    (∃ s t : State, s.cfg = smallConfig ∧ exec .poll s = .next t ∧ patternAfter s ≠ s.cfg.patALeads ∧
      patternAfter s ≠ s.cfg.patBLeads) :=
  ⟨small_config, ⟨{ small with pins := ⟨1, 0, 1, 0⟩ }, _, rfl, rfl, by decide⟩,
    ⟨{ small with pins := ⟨0, 1, 1, 0⟩ }, _, rfl, rfl, by decide⟩, ⟨small, _, rfl, rfl, by decide, by decide⟩⟩

/-- A press accepted for the first time, at the very end of the interval, and refused one millisecond earlier. -/
theorem witness_SelectNeedsASustainedPress :
    (∀ s ∈ [{ small with qda := ⟨0, 0, 0x7F, 0, false⟩, pins := ⟨0, 0, 0, 5⟩ },
        { small with qda := ⟨0, 0, 0xFF, 0xFFFFFFFF, true⟩, pins := ⟨0, 0, 0, 199⟩ }],
      completes .poll s = true ∧ (after .poll s).qdaResults = s.qdaResults ++ [⟨.ok, 3⟩]) ∧
    (∀ s ∈ [{ small with qda := ⟨0, 0, 0x3F, 0, false⟩, pins := ⟨0, 0, 0, 5⟩ },
        { small with qda := ⟨0, 0, 0xFF, 0xFFFFFFFF, true⟩, pins := ⟨0, 0, 0, 198⟩ }],
      completes .poll s = true ∧ (after .poll s).qdaResults ≠ s.qdaResults ++ [⟨.ok, 3⟩]) := by
  decide +kernel

/-- Seven polls with the switch closed; an eighth would return `Select`. -/
theorem witness_FirstSelectNeedsEightPolls :
    small.qda.btn = 0 ∧ small.qdaResults = [] ∧ (List.replicate 7 (⟨0, 0, 0, 0⟩ : Pins)).length < 8 ∧
      ((pollAll small (List.replicate 8 ⟨0, 0, 0, 0⟩)).qdaResults.getLast?).map Result.res = some 3 := by
  decide +kernel

theorem witness_WireTransactionsComplete : ∃ s : State, s.cfg.WellFormed ∧ AllOk s :=
  ⟨small, small_config, noAnswers rfl⟩

theorem witness_RangeCommandsSetThePanelsWindow :
    ∃ s t u : State, s.cfg.WellFormed ∧ AllOk s ∧ exec (.wireColumnRange 0 2) s = .next t ∧
      exec (.wirePageRange 0 1) s = .next u ∧ s.panel.Settled :=
  ⟨smallUp, _, _, small_config, noAnswers rfl, next_after (by decide +kernel), next_after (by decide +kernel),
    fun _ => rfl⟩

/-- The window is the whole panel, and the pixels fill it; and no pixel at all. -/
theorem witness_MemoryWriteFillsTheWindow :
    ∀ pixels ∈ [List.replicate 6 (0xF800 : HalfWord), []], ∃ s t : State, s.cfg.WellFormed ∧ AllOk s ∧
      s.panel.Settled ∧ s.panel.columns = some (0, 2) ∧ s.panel.pages = some (0, 1) ∧
      (2 : HalfWord).toNat < s.width.toNat ∧ (1 : HalfWord).toNat < s.height.toNat ∧
      pixels.length ≤ ((2 : HalfWord).toNat - (0 : HalfWord).toNat + 1) * ((1 : HalfWord).toNat - (0 : HalfWord).toNat + 1) ∧
      exec (.wireMemoryWrite pixels) s = .next t :=
  fun pixels h => ⟨smallUp, _, small_config, noAnswers rfl, fun _ => rfl, rfl, rfl, by decide, by decide,
    by revert pixels; decide +kernel, next_after (by revert pixels; decide +kernel)⟩

/-- Each clause, with each assumption of a test bench, the panel asleep and not. -/
theorem witness_OtherOpcodesChangeNoPixel :
    ∀ keeps ∈ [true, false], ∀ asleep ∈ [some true, some false, none], ∃ s : State, s.cfg.WellFormed ∧ AllOk s ∧
      s.panel.Settled ∧ s.panel.bench.keepsReset = keeps ∧ s.panel.bench.keepsAsleep = keeps ∧
      s.panel.asleep = asleep ∧
      (∀ i ∈ [.wireDisplayOff, .wireDisplayOn, .wireInvertOff, .wireInvertOn, .wireMemoryAccessControl 0x48,
        .wirePixelFormat 0x55, .wireBrightness 0x80, .wireSoftwareReset, .wireSleepOn, Instr.wireSleepOff],
        exec i s = .next (after i s)) :=
  fun keeps _ asleep _ =>
    ⟨{ smallUp with panel := { smallUp.panel with asleep, bench := { keepsReset := keeps, keepsAsleep := keeps } } },
      small_config, noAnswers rfl, fun _ => rfl, rfl, rfl, rfl,
      fun i h => next_after (by revert i keeps asleep; decide +kernel)⟩

theorem witness_ClearThenFlushShowsTheColour :
    smallUp.cfg.WellFormed ∧ AllOk smallUp ∧ smallUp.pd = .ready ∧
      (∀ i, i < smallUp.cfg.cells → Memory.read smallUp.snt i ≠ some (smallUp.cfg.reduce 0x001F)) ∧
      (2 : Nat) < smallUp.width.toNat ∧ 1 < smallUp.height.toNat :=
  ⟨small_config, noAnswers rfl, rfl, by decide +kernel, by decide, by decide⟩

/-- The panel is assumed to start with `expand(FB_INIT)` in every pixel of the 3 by 2 panel. -/
theorem witness_RoundTripFromInit :
    ∃ s : State, s.cfg.WellFormed ∧ AllOk s ∧ s.pd = .uninitialized ∧
      (∀ x y, x < (s.cfg.width .portrait).toNat → y < (s.cfg.height .portrait).toNat →
        Memory.read s.panel.bench.pixels (pixelAddress x y) = some (s.cfg.expand s.cfg.fbInit)) :=
  ⟨{ small with panel := { Panel.unknown with bench :=
      { pixels := [(0, 0), (1, 0), (2, 0), (65536, 0), (65537, 0), (65538, 0)] } } },
    small_config, noAnswers rfl, rfl,
    fun x y hx hy =>
      have grid : ∀ x, x < 3 → ∀ y, y < 2 →
        Memory.read [(0, (0 : HalfWord)), (1, 0), (2, 0), (65536, 0), (65537, 0), (65538, 0)] (pixelAddress x y) =
          some (smallConfig.expand smallConfig.fbInit) := by decide +kernel
      grid x hx y hy⟩

/-- Block reset out of a state in which SEQ hangs in a failed INIT. -/
theorem witness_BlockResetSetsEveryElement :
    ∃ s : State, s.inputs = .blockReset :: [] ∧ s.seqMode = .hungInDriver ∧ s.pd = .resetting :=
  ⟨{ small with inputs := [.blockReset], seqMode := .hungInDriver, pd := .resetting }, rfl, rfl, rfl⟩

end Sys2Proof.Tests
end

