-- ==== Sys2Proof/Proofs/Forms.lean ====
section
/-! PROOFS. The shared forms of the operations' meanings: every operation is one of a few forms over the shared
operations of Machine/Ops.lean, so that a claim about every operation is proved once per form. -/

namespace Sys2Proof.Machine

/-! ### What an operation does once its checks are passed -/

/-- What a slice sends once its bytes are read: a converting shape writes them back swapped first (R122). -/
def sliceRun (ph : Phase) (sh : Shape) (bytes : List Byte) (s : State) : Run :=
  if sh.converts s.cfg.nativeOrder then
    sendBytes ph (swapPairs bytes) { s with pb := Memory.writeFrom s.pb 0 (swapPairs bytes) }
  else sendBytes ph bytes s

theorem sendSlice_of_long {ph : Phase} {sh : Shape} {len : Word} {s : State}
    (h : s.cfg.pbBytes < len.toNat * sh.itemSize) : sendSlice ph sh len s = returnStatus .illegalOp s := by
  simp [sendSlice, h]

theorem sendSlice_of_unwritten {ph : Phase} {sh : Shape} {len : Word} {s : State}
    (h : ¬ s.cfg.pbBytes < len.toNat * sh.itemSize)
    (hr : Memory.readFrom s.pb 0 (len.toNat * sh.itemSize) = none) :
    sendSlice ph sh len s = .refused .unwrittenPayload := by
  simp [sendSlice, h, hr]

theorem sendSlice_of_read {ph : Phase} {sh : Shape} {len : Word} {s : State} {bytes : List Byte}
    (h : ¬ s.cfg.pbBytes < len.toNat * sh.itemSize)
    (hr : Memory.readFrom s.pb 0 (len.toNat * sh.itemSize) = some bytes) :
    sendSlice ph sh len s = conclude .hungInTransport (sliceRun ph sh bytes s) := by
  unfold sendSlice sliceRun
  rw [if_neg h, hr]
  exact (apply_ite (conclude .hungInTransport) _ _ _).symm

/-- What FLUSH does once the gate is passed (R167). -/
def flushReady (s : State) : Outcome :=
  match boundingBox s.dirtyCells with
  | none => returnStatus .ok s
  | some b =>
    match s.boxPixels b with
    | none => .fault .unspecifiedCell
    | some pixels => conclude .hungInDriver (flushBox b pixels s)

theorem flushReady_of_equal {s : State} (h : boundingBox s.dirtyCells = none) :
    flushReady s = returnStatus .ok s := by
  simp [flushReady, h]

theorem flushReady_of_unspecified {s : State} {b : Box} (h : boundingBox s.dirtyCells = some b)
    (hp : s.boxPixels b = none) : flushReady s = .fault .unspecifiedCell := by
  simp [flushReady, h, hp]

theorem flushReady_of_pixels {s : State} {b : Box} {pixels : List HalfWord}
    (h : boundingBox s.dirtyCells = some b) (hp : s.boxPixels b = some pixels) :
    flushReady s = conclude .hungInDriver (flushBox b pixels s) := by
  simp [flushReady, h, hp]

/-- What WRPIX does once the gate is passed (R165). -/
def wrpixReady (x y color : HalfWord) (s : State) : Outcome :=
  if s.width.toNat ≤ x.toNat ∨ s.height.toNat ≤ y.toNat then returnStatus .outOfBoundsError s
  else returnStatus .ok { s with cur := Memory.write s.cur (s.cellIndex x.toNat y.toNat) (s.cfg.reduce color) }

theorem wrpixReady_of_outside {x y color : HalfWord} {s : State}
    (h : s.width.toNat ≤ x.toNat ∨ s.height.toNat ≤ y.toNat) :
    wrpixReady x y color s = returnStatus .outOfBoundsError s := if_pos h

theorem wrpixReady_of_inside {x y color : HalfWord} {s : State}
    (h : ¬ (s.width.toNat ≤ x.toNat ∨ s.height.toNat ≤ y.toNat)) :
    wrpixReady x y color s = returnStatus .ok
      { s with cur := Memory.write s.cur (s.cellIndex x.toNat y.toNat) (s.cfg.reduce color) } := if_neg h

/-- The run of SETORI (R175). -/
def setoriRun (v : Orientation) (s : State) : Run :=
  (pdCommand opcMemoryAccessControl [s.cfg.madctl v] s).andThen fun s1 => ({ s1 with orient := v }, .ok)

/-! ### The kind an operation hangs in -/

/-- The operation is a SENDC or SENDD of one of the shapes with codes 0 to 7 (R94, R103). -/
def isTransport : Instr → Bool
  | .sendcU8 _ | .sendcU16 _ | .sendcU16le _ | .sendcU16be _ | .sendcU8i _ | .sendcU16i _ | .sendcU16lei _
  | .sendcU16bei _ | .senddU8 _ | .senddU16 _ | .senddU16le _ | .senddU16be _ | .senddU8i _ | .senddU16i _
  | .senddU16lei _ | .senddU16bei _ => true
  | _ => false

theorem isTransport_transportOp (ph : Phase) (sh : Shape) (len : Word) : isTransport (transportOp ph sh len) = true := by
  cases ph <;> cases sh <;> rfl

/-- A SENDC or SENDD hangs in its own kind. -/
theorem hangsIn_transportOp (ph : Phase) (sh : Shape) (len : Word) :
    HangsIn (transportOp ph sh len) .hungInTransport :=
  ⟨fun _ => rfl, fun h => absurd rfl (h ph sh len)⟩

/-- Every other operation hangs in the driver's kind. -/
theorem hangsIn_of_not_transport {i : Instr} (h : isTransport i = false) : HangsIn i .hungInDriver := by
  refine ⟨fun ⟨ph, sh, len, hi⟩ => ?_, fun _ => rfl⟩
  rw [hi, isTransport_transportOp] at h
  cases h

/-! ### The forms -/

/-- The form an operation's meaning has. -/
inductive Form : Instr → (State → Outcome) → Prop
  | slice (ph : Phase) (sh : Shape) (len : Word) : Form (transportOp ph sh len) (sendSlice ph sh len)
  | producer8 (ph : Phase) (len : Word) : Form (transportOp ph .u8i len) (sendProducer8 ph len)
  | producer16 (ph : Phase) (sh : Shape) (len : Word) : Form (transportOp ph sh len) (sendProducer16 ph sh len)
  | reserved {i : Instr} (h : isTransport i = false) : Form i sendReserved
  | init (v : Orientation) : Form (.init v) (execInit v)
  | setwin (x0 y0 x1 y1 : HalfWord) : Form (.setwin x0 y0 x1 y1) (execSetwin x0 y0 x1 y1)
  | wrpix (x y color : HalfWord) : Form (.wrpix x y color) (gated .ready (wrpixReady x y color))
  | clear (color : HalfWord) : Form (.clear color) (execClear color)
  | flush : Form .flush (gated .ready flushReady)
  | command {i : Instr} (op : Byte) (args : List Byte) (h : isTransport i = false) : Form i (commandWrite op args)
  | setori (v : Orientation) : Form (.setori v) (gated .ready fun s => conclude .hungInDriver (setoriRun v s))
  | getw : Form .getw execGetw
  | geth : Form .geth execGeth
  | poll : Form .poll execPoll
  | wire {i : Instr} (op : Byte) (args : List Byte) (h : isTransport i = false) : Form i (transaction op args)

/-- The form of every operation. -/
theorem exec_form : ∀ i : Instr, Form i (exec i)
  | .sendcU8 len => .slice .command .u8 len
  | .sendcU16 len => .slice .command .u16 len
  | .sendcU16le len => .slice .command .u16le len
  | .sendcU16be len => .slice .command .u16be len
  | .sendcU8i len => .producer8 .command len
  | .sendcU16i len => .producer16 .command .u16i len
  | .sendcU16lei len => .producer16 .command .u16lei len
  | .sendcU16bei len => .producer16 .command .u16bei len
  | .senddU8 len => .slice .data .u8 len
  | .senddU16 len => .slice .data .u16 len
  | .senddU16le len => .slice .data .u16le len
  | .senddU16be len => .slice .data .u16be len
  | .senddU8i len => .producer8 .data len
  | .senddU16i len => .producer16 .data .u16i len
  | .senddU16lei len => .producer16 .data .u16lei len
  | .senddU16bei len => .producer16 .data .u16bei len
  | .sendcReserved8 _ | .sendcReserved9 _ | .sendcReserved10 _ | .sendcReserved11 _ | .sendcReserved12 _
  | .sendcReserved13 _ | .sendcReserved14 _ | .sendcReserved15 _ | .senddReserved8 _ | .senddReserved9 _
  | .senddReserved10 _ | .senddReserved11 _ | .senddReserved12 _ | .senddReserved13 _ | .senddReserved14 _
  | .senddReserved15 _ => .reserved rfl
  | .init v => .init v
  | .setwin x0 y0 x1 y1 => .setwin x0 y0 x1 y1
  | .wrpix x y color => .wrpix x y color
  | .clear color => .clear color
  | .flush => .flush
  | .bright value => .command opcBrightness [value] rfl
  | .sleep mode => .command (if mode = 1 then opcSleepOn else opcSleepOff) [] rfl
  | .display mode => .command (if mode = 1 then opcDisplayOn else opcDisplayOff) [] rfl
  | .invert mode => .command (if mode = 1 then opcInvertOn else opcInvertOff) [] rfl
  | .setori v => .setori v
  | .getw => .getw
  | .geth => .geth
  | .poll => .poll
  | .wireSoftwareReset => .wire opcSoftwareReset [] rfl
  | .wireSleepOn => .wire opcSleepOn [] rfl
  | .wireSleepOff => .wire opcSleepOff [] rfl
  | .wireInvertOff => .wire opcInvertOff [] rfl
  | .wireInvertOn => .wire opcInvertOn [] rfl
  | .wireDisplayOff => .wire opcDisplayOff [] rfl
  | .wireDisplayOn => .wire opcDisplayOn [] rfl
  | .wireColumnRange x0 x1 => .wire opcColumnRange (rangeBytes x0 x1) rfl
  | .wirePageRange y0 y1 => .wire opcPageRange (rangeBytes y0 y1) rfl
  | .wireMemoryWrite pixels => .wire opcMemoryWrite (serAll .be pixels) rfl
  | .wireMemoryAccessControl flags => .wire opcMemoryAccessControl [flags] rfl
  | .wirePixelFormat format => .wire opcPixelFormat [format] rfl
  | .wireBrightness value => .wire opcBrightness [value] rfl

end Sys2Proof.Machine
end

