-- ==== Sys2Proof/Proofs/Invariant.lean ====
section
/-! PROOFS. Every step keeps the invariant of a run (`State.Inv`): the runs of the operations keep it, hence every form
of an operation, and so does every other input. -/

namespace Sys2Proof.Machine

/-! ### The runs -/

/-- A write into the payload buffer's address space (R60, R64). -/
theorem writePayload_inv {s : State} (h : s.Inv) {a : Nat} {bytes : List Byte}
    (hb : a + bytes.length ≤ s.cfg.pbBytes) : State.Inv { s with pb := Memory.writeFrom s.pb a bytes } :=
  { h with pb_wf := Memory.writeFrom_wf h.pb_wf _ _, pb_below := Below.writeFrom h.pb_below hb }

theorem sliceRun_inv {s : State} (h : s.Inv) (ph : Phase) (sh : Shape) {bytes : List Byte}
    (hb : bytes.length ≤ s.cfg.pbBytes) : (sliceRun ph sh bytes s).1.Inv := by
  unfold sliceRun
  split
  · exact sendBytes_inv (writePayload_inv h (by rw [swapPairs_length]; omega)) _ _
  · exact sendBytes_inv h _ _

theorem setoriRun_inv {s : State} (h : s.Inv) (v : Orientation) : (setoriRun v s).1.Inv :=
  Run.andThen_keeps (P := State.Inv) (pdCommand_inv h _ _) fun _ hi => hi.of_eq rfl rfl rfl rfl rfl rfl rfl rfl

/-- The commit of FLUSH copies a framebuffer that meets the invariant (R170). -/
theorem commit_inv {s : State} (h : s.Inv) : State.Inv { s with snt := s.cur } :=
  { h with snt_wf := h.cur_wf, snt_below := h.cur_below, snt_filled := h.cur_filled }

theorem flushBox_inv {s : State} (h : s.Inv) (b : Box) (pixels : List HalfWord) : (flushBox b pixels s).1.Inv :=
  Run.andThen_keeps (P := State.Inv) (setWindow_inv h _) fun _ h1 =>
    Run.andThen_keeps (P := State.Inv) (sendBytes_inv h1 _ _) fun _ h2 =>
      Run.andThen_keeps (P := State.Inv) (sendBytes_inv h2 _ _) fun _ h3 => commit_inv h3

/-- What holds along INIT's walk: the invariant, and INIT was accepted, so both framebuffers hold values (R30). -/
structure State.Started (s : State) : Prop where
  inv : s.Inv
  accepted : s.pd ≠ .uninitialized

theorem initStart_started {s : State} (h : s.Inv) (v : Orientation) : (initStart v s).Started where
  inv := { h with
    cur_wf := Memory.fill_wf _ _, snt_wf := Memory.fill_wf _ _, cur_below := Below.fill _ _
    snt_below := Below.fill _ _, cur_filled := fun _ => Filled.fill _ _, snt_filled := fun _ => Filled.fill _ _ }
  accepted := by simp

theorem State.Started.setPd {s : State} (h : s.Started) {p : PdState} (hp : p ≠ .uninitialized) :
    State.Started { s with pd := p } where
  inv := { h.inv with
    cur_filled := fun _ => h.inv.cur_filled h.accepted, snt_filled := fun _ => h.inv.snt_filled h.accepted }
  accepted := hp

theorem State.Started.emitRst {s : State} (h : s.Started) (l : BitVec 1) : (emitRst l s).1.Started :=
  ⟨emitRst_inv h.inv l, h.accepted⟩

theorem State.Started.emitDly {s : State} (h : s.Started) (t : Nat) : (emitDly t s).Started :=
  ⟨emitDly_inv h.inv t, h.accepted⟩

theorem State.Started.pdCommand {s : State} (h : s.Started) (op : Byte) (args : List Byte) :
    (pdCommand op args s).1.Started :=
  ⟨pdCommand_inv h.inv op args, by rw [(pdCommand_frame op args s).bus.driver.pd]; exact h.accepted⟩

theorem initResetting_started {s : State} (h : s.Started) : (initResetting s).1.Started :=
  Run.andThen_keeps (P := State.Started) (h.emitRst _) fun _ h1 =>
    Run.andThen_keeps (P := State.Started) ((h1.emitDly _).emitRst _) fun _ h2 => (h2.emitDly _).setPd (by decide)

theorem initSoftwareReset_started {s : State} (h : s.Started) : (initSoftwareReset s).1.Started :=
  Run.andThen_keeps (P := State.Started) (h.pdCommand _ _) fun _ h1 => (h1.emitDly _).setPd (by decide)

theorem initConfiguring_started {s : State} (h : s.Started) (v : Orientation) : (initConfiguring v s).1.Started :=
  Run.andThen_keeps (P := State.Started) (h.pdCommand _ _) fun _ h1 =>
    Run.andThen_keeps (P := State.Started) (h1.pdCommand _ _) fun _ h2 => (h2.emitDly _).setPd (by decide)

theorem initWaking_started {s : State} (h : s.Started) : (initWaking s).1.Started :=
  Run.andThen_keeps (P := State.Started) (h.pdCommand _ _) fun _ h1 =>
    Run.andThen_keeps (P := State.Started) ((h1.emitDly _).pdCommand _ _) fun _ h2 => h2.setPd (by decide)

theorem initSequence_inv {s : State} (h : s.Inv) (v : Orientation) : (initSequence v s).1.Inv :=
  State.Started.inv <|
    Run.andThen_keeps (P := State.Started) (initResetting_started (initStart_started h v)) fun _ h1 =>
      Run.andThen_keeps (P := State.Started) (initSoftwareReset_started h1) fun _ h2 =>
        Run.andThen_keeps (P := State.Started) (initConfiguring_started h2 v) fun _ h3 => initWaking_started h3

/-! ### The operations -/

/-- Returning a status keeps the invariant. -/
theorem returnStatus_inv {s t : State} {st : Status} (h : s.Inv) (ht : returnStatus st s = .next t) : t.Inv := by
  cases ht
  exact finishSeq_inv h _ _

theorem sendSlice_inv {ph : Phase} {sh : Shape} {len : Word} {s t : State} (h : s.Inv)
    (ht : sendSlice ph sh len s = .next t) : t.Inv := by
  by_cases hlong : s.cfg.pbBytes < len.toNat * sh.itemSize
  · rw [sendSlice_of_long hlong] at ht
    exact returnStatus_inv h ht
  · cases hr : Memory.readFrom s.pb 0 (len.toNat * sh.itemSize) with
    | none => rw [sendSlice_of_unwritten hlong hr] at ht; cases ht
    | some bytes =>
      rw [sendSlice_of_read hlong hr] at ht
      have hlen := Memory.readFrom_length hr
      exact conclude_inv (sliceRun_inv h ph sh (by omega)) ht

/-- A write of one cell of `current` (R165). -/
theorem writeCell_inv {s : State} (h : s.Inv) {a : Nat} (ha : a < s.cfg.cells) (v : HalfWord) :
    State.Inv { s with cur := Memory.write s.cur a v } :=
  { h with
    cur_wf := Memory.write_wf h.cur_wf _ _, cur_below := Below.write h.cur_below ha _
    cur_filled := fun hp => Filled.write (h.cur_filled hp) _ _ }

theorem wrpixReady_inv {x y color : HalfWord} {s t : State} (h : s.Inv) (ht : wrpixReady x y color s = .next t) :
    t.Inv := by
  by_cases hout : s.width.toNat ≤ x.toNat ∨ s.height.toNat ≤ y.toNat
  · rw [wrpixReady_of_outside hout] at ht
    exact returnStatus_inv h ht
  · rw [wrpixReady_of_inside hout] at ht
    have hcell : s.cellIndex x.toNat y.toNat < s.cfg.cells := State.cellIndex_lt (by omega) (by omega)
    exact returnStatus_inv (writeCell_inv h hcell _) ht

/-- CLEAR's write (R166). -/
theorem clear_inv {s : State} (h : s.Inv) (v : HalfWord) : State.Inv { s with cur := Memory.fill s.cfg.cells v } :=
  { h with cur_wf := Memory.fill_wf _ _, cur_below := Below.fill _ _, cur_filled := fun _ => Filled.fill _ _ }

theorem flushReady_inv {s t : State} (h : s.Inv) (ht : flushReady s = .next t) : t.Inv := by
  cases hb : boundingBox s.dirtyCells with
  | none => rw [flushReady_of_equal hb] at ht; exact returnStatus_inv h ht
  | some b =>
    cases hp : s.boxPixels b with
    | none => rw [flushReady_of_unspecified hb hp] at ht; cases ht
    | some pixels => rw [flushReady_of_pixels hb hp] at ht; exact conclude_inv (flushBox_inv h b pixels) ht

theorem execPoll_inv {s t : State} (h : s.Inv) (ht : execPoll s = .next t) : t.Inv := by
  cases ht
  exact h.of_eq rfl rfl rfl rfl rfl rfl rfl rfl

/-- Every operation keeps the invariant. -/
theorem exec_inv {i : Instr} {s t : State} (h : s.Inv) (ht : exec i s = .next t) : t.Inv := by
  have form := exec_form i
  generalize exec i = k at form ht
  cases form with
  | slice ph sh len => exact sendSlice_inv h ht
  | producer8 ph len => exact conclude_inv (tcSend_inv h (src := .port8) trivial) ht
  | producer16 ph sh len =>
    exact conclude_inv (tcSend_inv h (src := .port16 (sh.order s.cfg.nativeOrder)) (Nat.mul_mod_right 2 _)) ht
  | reserved => exact returnStatus_inv h ht
  | init v => exact gated_inv h (fun _ hk => conclude_inv (initSequence_inv h v) hk) ht
  | setwin x0 y0 x1 y1 => exact gated_inv h (fun _ hk => conclude_inv (setWindow_inv h _) hk) ht
  | wrpix x y color => exact gated_inv h (fun _ hk => wrpixReady_inv h hk) ht
  | clear color => exact gated_inv h (fun _ hk => returnStatus_inv (clear_inv h _) hk) ht
  | flush => exact gated_inv h (fun _ hk => flushReady_inv h hk) ht
  | command op args => exact gated_inv h (fun _ hk => conclude_inv (pdCommand_inv h op args) hk) ht
  | setori v => exact gated_inv h (fun _ hk => conclude_inv (setoriRun_inv h v) hk) ht
  | getw => cases ht; exact finishSeq_inv h _ _
  | geth => cases ht; exact finishSeq_inv h _ _
  | poll => exact execPoll_inv h ht
  | wire op args => exact conclude_inv (pdCommand_inv h op args) ht

/-! ### The inputs -/

theorem hostWrite_inv {i : Nat} {bytes : List Byte} {s t : State} (h : s.Inv) (ht : hostWrite i bytes s = .next t) :
    t.Inv := by
  unfold hostWrite at ht
  split at ht
  · cases ht
  · cases ht
    exact writePayload_inv h (by omega)

theorem hostReadBytes_inv {i n : Nat} {s t : State} (h : s.Inv) (ht : hostReadBytes i n s = .next t) : t.Inv := by
  unfold hostReadBytes at ht
  split at ht
  · cases ht
  · split at ht
    · cases ht
    · cases ht; exact h.of_eq rfl rfl rfl rfl rfl rfl rfl rfl

theorem hostReadWords_inv {i n : Nat} {s t : State} (h : s.Inv) (ht : hostReadWords i n s = .next t) : t.Inv := by
  unfold hostReadWords at ht
  split at ht
  · cases ht
  · split at ht
    · cases ht
    · cases ht; exact h.of_eq rfl rfl rfl rfl rfl rfl rfl rfl

theorem assume_inv {s : State} (h : s.Inv) (b : Bench) : (assume b s).Inv :=
  { h with bench_wf := Memory.ofList_wf _ }

/-- Block reset empties every memory of the block; the panel's is kept or forgotten (R280). -/
theorem blockReset_inv {s : State} (h : s.Inv) : (blockReset s).Inv where
  config := h.config
  pb_wf := .nil
  cb_wf := .nil
  cur_wf := .nil
  snt_wf := .nil
  pixels_wf := by
    unfold blockReset
    split
    · exact h.pixels_wf
    · exact .nil
  bench_wf := by
    unfold blockReset
    split <;> exact h.bench_wf
  pb_below := Below.nil _
  cb_below := Below.nil _
  cur_below := Below.nil _
  snt_below := Below.nil _
  cur_filled := fun hp => absurd rfl hp
  snt_filled := fun hp => absurd rfl hp
  writes_fit := nofun

/-- A port that rejects a command word returns `IllegalOp` and nothing else (R258). -/
theorem fetchSeq_cases (cw : CommandWord) (s : State) :
    (∃ i, fetchSeq cw s = .run i s) ∨ fetchSeq cw s = .done (.next (s.finishSeq .illegalOp 0)) := by
  unfold fetchSeq
  split
  · split
    · exact .inl ⟨_, rfl⟩
    · exact .inr rfl
  · exact .inr rfl

theorem fetchQda_cases (cw : CommandWord) (s : State) :
    (∃ i, fetchQda cw s = .run i s) ∨ fetchQda cw s = .done (.next (s.finishQda .illegalOp 0)) := by
  unfold fetchQda
  split
  · split
    · exact .inl ⟨_, rfl⟩
    · exact .inr rfl
  · exact .inr rfl

theorem fetchWire_cases (bytes : List Byte) (s : State) :
    (∃ i, fetchWire bytes s = .run i s) ∨ fetchWire bytes s = .done (.refused .noTransaction) := by
  unfold fetchWire
  split
  · exact .inl ⟨_, rfl⟩
  · exact .inr rfl

/-- What a step makes of what it fetched. -/
def Fetched.outcome : Fetched → Outcome
  | .run i s => exec i s
  | .done o => o

theorem step_eq (s : State) : step s = (fetch s).outcome := by
  unfold step
  cases fetch s <;> rfl

/-- Whatever input is taken, the outcome keeps the invariant. -/
theorem take_inv {input : Input} {s t : State} (h : s.Inv) (ht : (take input s).outcome = .next t) : t.Inv := by
  cases input with
  | seqCmd cw =>
    rcases fetchSeq_cases cw s with ⟨i, e⟩ | e <;> simp only [take, e, Fetched.outcome] at ht
    · exact exec_inv h ht
    · cases ht; exact finishSeq_inv h _ _
  | qdaCmd cw =>
    rcases fetchQda_cases cw s with ⟨i, e⟩ | e <;> simp only [take, e, Fetched.outcome] at ht
    · exact exec_inv h ht
    · cases ht; exact h.of_eq rfl rfl rfl rfl rfl rfl rfl rfl
  | wire bytes =>
    rcases fetchWire_cases bytes s with ⟨i, e⟩ | e <;> simp only [take, e, Fetched.outcome] at ht
    · exact exec_inv h ht
    · cases ht
  | payloadBytes i bytes => exact hostWrite_inv h ht
  | payloadWords i words => exact hostWrite_inv h ht
  | readBytes i n => exact hostReadBytes_inv h ht
  | readWords i n => exact hostReadWords_inv h ht
  | produceBytes items => cases ht; exact h.of_eq rfl rfl rfl rfl rfl rfl rfl rfl
  | produceWords items => cases ht; exact h.of_eq rfl rfl rfl rfl rfl rfl rfl rfl
  | answers list => cases ht; exact h.of_eq rfl rfl rfl rfl rfl rfl rfl rfl
  | pins levels => cases ht; exact h.of_eq rfl rfl rfl rfl rfl rfl rfl rfl
  | bench assumed => cases ht; exact assume_inv h assumed
  | blockReset => cases ht; exact blockReset_inv h

theorem step_inv {s t : State} (h : s.Inv) (ht : step s = .next t) : t.Inv := by
  rw [step_eq] at ht
  unfold fetch at ht
  split at ht
  · cases ht; exact h
  · rename_i rest _
    have hrest : State.Inv { s with inputs := rest } := h.of_eq rfl rfl rfl rfl rfl rfl rfl rfl
    exact take_inv hrest ht

/-- Settles O14: the shared operations keep the invariant, hence every form of an operation and every input. -/
theorem stepKeepsTheInvariant : Obligations.StepKeepsTheInvariant :=
  fun _ _ h ht => step_inv h ht

end Sys2Proof.Machine
end

