-- ==== Sys2Proof/Proofs/Independence.lean ====
section
/-! PROOFS. POLL commutes with every operation of SEQ (00_scope.md R8, 10_state.md R21, 20_memory.md R75): an operation
of SEQ neither reads QDA's part nor writes what POLL reads, and POLL replaces QDA's part only. -/

namespace Sys2Proof.Machine

/-! ### What an operation of SEQ leaves of the outside -/

theorem KeepsOutside.refl (s : State) : KeepsOutside s s := ⟨rfl, rfl, rfl, rfl, rfl, rfl⟩

theorem finishSeq_keepsOutside (st : Status) (res : HalfWord) (s : State) : KeepsOutside s (s.finishSeq st res) :=
  ⟨rfl, rfl, rfl, rfl, rfl, rfl⟩

theorem setCur_keepsOutside (m : Memory HalfWord) (s : State) : KeepsOutside s { s with cur := m } :=
  ⟨rfl, rfl, rfl, rfl, rfl, rfl⟩

theorem returnStatus_keepsOutside {st : Status} {s u t : State} (h : KeepsOutside s u)
    (ht : returnStatus st u = .next t) : KeepsOutside s t := by
  cases ht
  exact h.trans (finishSeq_keepsOutside _ _ _)

theorem conclude_keepsOutside {m : SeqMode} {r : Run} {s t : State} (h : KeepsOutside s r.1)
    (ht : conclude m r = .next t) : KeepsOutside s t := by
  rw [conclude_keeps ht]
  exact h.trans ⟨rfl, rfl, rfl, rfl, rfl, rfl⟩

theorem gated_keepsOutside {need : PdState} {k : State → Outcome} {s t : State}
    (hk : k s = .next t → KeepsOutside s t) (ht : gated need k s = .next t) : KeepsOutside s t := by
  by_cases hp : s.pd = need
  · rw [gated_of_eq hp] at ht; exact hk ht
  · rw [gated_of_ne hp] at ht; cases ht; exact finishSeq_keepsOutside _ _ _

theorem pdCommand_keepsOutside (op : Byte) (args : List Byte) (s : State) : KeepsOutside s (pdCommand op args s).1 :=
  (pdCommand_frame op args s).bus.outside

theorem sliceRun_keepsOutside (ph : Phase) (sh : Shape) (bytes : List Byte) (s : State) :
    KeepsOutside s (sliceRun ph sh bytes s).1 := by
  unfold sliceRun
  split
  · have hpb : KeepsOutside s { s with pb := Memory.writeFrom s.pb 0 (swapPairs bytes) } :=
      ⟨rfl, rfl, rfl, rfl, rfl, rfl⟩
    exact hpb.trans (sendBytes_frame _ _ _).bus.outside
  · exact (sendBytes_frame _ _ _).bus.outside

theorem setoriRun_keepsOutside (v : Orientation) (s : State) : KeepsOutside s (setoriRun v s).1 :=
  Run.andThen_rel KeepsOutside KeepsOutside.trans (pdCommand_keepsOutside _ _ _) fun _ => ⟨rfl, rfl, rfl, rfl, rfl, rfl⟩

theorem initSequence_keepsOutside (v : Orientation) (s : State) : KeepsOutside s (initSequence v s).1 := by
  have hstart : KeepsOutside s (initStart v s) := ⟨rfl, rfl, rfl, rfl, rfl, rfl⟩
  exact hstart.trans (initSequence_frame v s).1.outside

theorem flushBox_keepsOutside (b : Box) (pixels : List HalfWord) (s : State) :
    KeepsOutside s (flushBox b pixels s).1 := by
  obtain ⟨_, _, _, _, houtside, _⟩ := flushBox_frame b pixels s
  exact houtside

theorem sendSlice_keepsOutside {ph : Phase} {sh : Shape} {len : Word} {s t : State}
    (ht : sendSlice ph sh len s = .next t) : KeepsOutside s t := by
  by_cases hlong : s.cfg.pbBytes < len.toNat * sh.itemSize
  · rw [sendSlice_of_long hlong] at ht
    exact returnStatus_keepsOutside (.refl s) ht
  · cases hr : Memory.readFrom s.pb 0 (len.toNat * sh.itemSize) with
    | none => rw [sendSlice_of_unwritten hlong hr] at ht; cases ht
    | some bytes =>
      rw [sendSlice_of_read hlong hr] at ht
      exact conclude_keepsOutside (sliceRun_keepsOutside ph sh bytes s) ht

theorem wrpixReady_keepsOutside {x y color : HalfWord} {s t : State} (ht : wrpixReady x y color s = .next t) :
    KeepsOutside s t := by
  by_cases hout : s.width.toNat ≤ x.toNat ∨ s.height.toNat ≤ y.toNat
  · rw [wrpixReady_of_outside hout] at ht
    exact returnStatus_keepsOutside (.refl s) ht
  · rw [wrpixReady_of_inside hout] at ht
    exact returnStatus_keepsOutside (setCur_keepsOutside _ s) ht

theorem flushReady_keepsOutside {s t : State} (ht : flushReady s = .next t) : KeepsOutside s t := by
  cases hb : boundingBox s.dirtyCells with
  | none => rw [flushReady_of_equal hb] at ht; exact returnStatus_keepsOutside (.refl s) ht
  | some b =>
    cases hp : s.boxPixels b with
    | none => rw [flushReady_of_unspecified hb hp] at ht; cases ht
    | some pixels =>
      rw [flushReady_of_pixels hb hp] at ht
      exact conclude_keepsOutside (flushBox_keepsOutside b pixels s) ht

/-- No operation of SEQ writes QDA's part, the pins or the parameters (R21). -/
theorem exec_keepsOutside {i : Instr} (hi : i ≠ .poll) {s t : State} (ht : exec i s = .next t) : KeepsOutside s t := by
  have form := exec_form i
  generalize exec i = k at form ht
  cases form with
  | slice ph sh len => exact sendSlice_keepsOutside ht
  | producer8 ph len => exact conclude_keepsOutside (tcSend_frame _ _ _ s).outside ht
  | producer16 ph sh len => exact conclude_keepsOutside (tcSend_frame _ _ _ s).outside ht
  | reserved => exact returnStatus_keepsOutside (.refl s) ht
  | init v => exact gated_keepsOutside (conclude_keepsOutside (initSequence_keepsOutside v s)) ht
  | setwin x0 y0 x1 y1 => exact gated_keepsOutside (conclude_keepsOutside (setWindow_frame _ s).1.outside) ht
  | wrpix x y color => exact gated_keepsOutside wrpixReady_keepsOutside ht
  | clear color =>
    refine gated_keepsOutside (fun hk => ?_) ht
    exact returnStatus_keepsOutside (setCur_keepsOutside _ s) hk
  | flush => exact gated_keepsOutside flushReady_keepsOutside ht
  | command op args => exact gated_keepsOutside (conclude_keepsOutside (pdCommand_keepsOutside op args s)) ht
  | setori v => exact gated_keepsOutside (conclude_keepsOutside (setoriRun_keepsOutside v s)) ht
  | getw => cases ht; exact finishSeq_keepsOutside _ _ _
  | geth => cases ht; exact finishSeq_keepsOutside _ _ _
  | poll => exact absurd rfl hi
  | wire op args => exact conclude_keepsOutside (pdCommand_keepsOutside op args s) ht

/-! ### No operation of SEQ reads QDA's part -/

section
variable (q : Qda) (rs : List Result)

theorem sliceRun_setQda (ph : Phase) (sh : Shape) (bytes : List Byte) (s : State) :
    sliceRun ph sh bytes (s.setQda q rs) = (sliceRun ph sh bytes s).setQda q rs := by
  unfold sliceRun
  rw [show (s.setQda q rs).cfg = s.cfg from rfl]
  split
  · exact sendBytes_setQda q rs ph (swapPairs bytes) { s with pb := Memory.writeFrom s.pb 0 (swapPairs bytes) }
  · exact sendBytes_setQda q rs _ _ _

theorem setoriRun_setQda (v : Orientation) (s : State) :
    setoriRun v (s.setQda q rs) = (setoriRun v s).setQda q rs := by
  unfold setoriRun
  rw [show (s.setQda q rs).cfg = s.cfg from rfl, pdCommand_setQda]
  exact Run.setQda_andThen q rs fun _ => rfl

theorem sendSlice_setQda (ph : Phase) (sh : Shape) (len : Word) (s : State) :
    sendSlice ph sh len (s.setQda q rs) = setQdaOutcome q rs (sendSlice ph sh len s) := by
  by_cases hlong : s.cfg.pbBytes < len.toNat * sh.itemSize
  · rw [sendSlice_of_long hlong, sendSlice_of_long (s := s.setQda q rs) hlong]; rfl
  · cases hr : Memory.readFrom s.pb 0 (len.toNat * sh.itemSize) with
    | none => rw [sendSlice_of_unwritten hlong hr, sendSlice_of_unwritten (s := s.setQda q rs) hlong hr]; rfl
    | some bytes =>
      rw [sendSlice_of_read hlong hr, sendSlice_of_read (s := s.setQda q rs) hlong hr, sliceRun_setQda,
        conclude_setQda]

theorem wrpixReady_setQda (x y color : HalfWord) (s : State) :
    wrpixReady x y color (s.setQda q rs) = setQdaOutcome q rs (wrpixReady x y color s) := by
  by_cases hout : s.width.toNat ≤ x.toNat ∨ s.height.toNat ≤ y.toNat
  · rw [wrpixReady_of_outside hout, wrpixReady_of_outside (s := s.setQda q rs) hout]; rfl
  · rw [wrpixReady_of_inside hout, wrpixReady_of_inside (s := s.setQda q rs) hout]; rfl

theorem flushReady_setQda (s : State) : flushReady (s.setQda q rs) = setQdaOutcome q rs (flushReady s) := by
  cases hb : boundingBox s.dirtyCells with
  | none => rw [flushReady_of_equal hb, flushReady_of_equal (s := s.setQda q rs) hb]; rfl
  | some b =>
    cases hp : s.boxPixels b with
    | none => rw [flushReady_of_unspecified hb hp, flushReady_of_unspecified (s := s.setQda q rs) hb hp]; rfl
    | some pixels =>
      rw [flushReady_of_pixels hb hp, flushReady_of_pixels (s := s.setQda q rs) hb hp, flushBox_setQda,
        conclude_setQda]

/-- A run that commutes with replacing QDA's part concludes so. -/
theorem conclude_setQda_of {m : SeqMode} {f : State → Run} {s : State}
    (h : f (s.setQda q rs) = (f s).setQda q rs) :
    conclude m (f (s.setQda q rs)) = setQdaOutcome q rs (conclude m (f s)) := by
  rw [h, conclude_setQda]

/-- Every operation of SEQ commutes with replacing QDA's part (R21). -/
theorem exec_setQda {i : Instr} (hi : i ≠ .poll) (s : State) :
    exec i (s.setQda q rs) = setQdaOutcome q rs (exec i s) := by
  have form := exec_form i
  generalize exec i = k at form ⊢
  cases form with
  | slice ph sh len => exact sendSlice_setQda q rs ph sh len s
  | producer8 ph len => exact conclude_setQda_of q rs (tcSend_setQda q rs _ _ _ s)
  | producer16 ph sh len =>
    exact conclude_setQda_of q rs (tcSend_setQda q rs ph (.port16 (sh.order s.cfg.nativeOrder)) (2 * len.toNat) s)
  | reserved => rfl
  | init v => exact gated_setQda q rs _ _ s (conclude_setQda_of q rs (initSequence_setQda q rs v s))
  | setwin x0 y0 x1 y1 => exact gated_setQda q rs _ _ s (conclude_setQda_of q rs (setWindow_setQda q rs _ s))
  | wrpix x y color => exact gated_setQda q rs _ _ s (wrpixReady_setQda q rs x y color s)
  | clear color => exact gated_setQda q rs _ _ s rfl
  | flush => exact gated_setQda q rs _ _ s (flushReady_setQda q rs s)
  | command op args => exact gated_setQda q rs _ _ s (conclude_setQda_of q rs (pdCommand_setQda q rs op args s))
  | setori v => exact gated_setQda q rs _ _ s (conclude_setQda_of q rs (setoriRun_setQda q rs v s))
  | getw => rfl
  | geth => rfl
  | poll => exact absurd rfl hi
  | wire op args => exact conclude_setQda_of q rs (pdCommand_setQda q rs op args s)

end

/-! ### POLL -/

/-- The registers after a POLL (R225). -/
def polledQda (s : State) : Qda := (classify s.cfg s.pins (sample s.pins s.qda)).1

/-- The results of `QDA_CMD` after a POLL (R226). -/
def polledResults (s : State) : List Result :=
  s.qdaResults ++ [⟨.ok, (classify s.cfg s.pins (sample s.pins s.qda)).2⟩]

/-- POLL replaces QDA's part and nothing else (R21). -/
theorem exec_poll (s : State) : exec .poll s = .next (s.setQda (polledQda s) (polledResults s)) := rfl

/-- What POLL makes of QDA's part depends on what no operation of SEQ changes. -/
theorem polled_of_keepsOutside {s t : State} (h : KeepsOutside s t) :
    polledQda t = polledQda s ∧ polledResults t = polledResults s := by
  simp [polledQda, polledResults, h.cfg, h.pins, h.qda, h.qdaResults]

/-- Settles O8: an operation of SEQ commutes with replacing QDA's part, and leaves what POLL reads. -/
theorem pollCommutesWithEveryOperation : Obligations.PollCommutesWithEveryOperation := by
  intro i s u hi hu
  rw [exec_poll] at hu
  cases hu
  rw [exec_setQda _ _ hi s]
  cases he : exec i s with
  | next t =>
    obtain ⟨hq, hr⟩ := polled_of_keepsOutside (exec_keepsOutside hi he)
    exact ⟨_, exec_poll t, by rw [hq, hr]; rfl⟩
  | fault f => rfl
  | refused r => rfl

end Sys2Proof.Machine
end

