-- ==== Sys2Proof/Proofs/Hangs.lean ====
section
/-! PROOFS. Where an operation ends at its first event not answered `ok` (20_memory.md R62), and with it where SEQ hangs:
at an event ENV never answers, and at a producer that stops early (00_scope.md R9, 70_reset_and_hazards.md R293, R298). -/

namespace Sys2Proof.Machine

/-! ### The results while an operation runs -/

/-- SEQ has returned nothing and has not hung since. -/
structure KeepsResults (s t : State) : Prop where
  seqMode : t.seqMode = s.seqMode
  seqResults : t.seqResults = s.seqResults

theorem BusOnly.keepsResults {s t : State} (h : BusOnly s t) : KeepsResults s t := ⟨h.seqMode, h.seqResults⟩

theorem sliceRun_keepsResults (ph : Phase) (sh : Shape) (bytes : List Byte) (s : State) :
    KeepsResults s (sliceRun ph sh bytes s).1 := by
  unfold sliceRun
  split
  · have h := sendBytes_frame ph (swapPairs bytes) { s with pb := Memory.writeFrom s.pb 0 (swapPairs bytes) }
    exact ⟨h.bus.seqMode, h.bus.seqResults⟩
  · exact (sendBytes_frame _ _ _).bus.keepsResults

theorem pdCommand_keepsResults (op : Byte) (args : List Byte) (s : State) : KeepsResults s (pdCommand op args s).1 :=
  (pdCommand_frame op args s).bus.keepsResults

theorem setoriRun_keepsResults (v : Orientation) (s : State) : KeepsResults s (setoriRun v s).1 :=
  Run.andThen_keeps (P := KeepsResults s) (pdCommand_keepsResults _ _ _) fun _ h => ⟨h.seqMode, h.seqResults⟩

theorem setWindow_keepsResults (w : Window) (s : State) : KeepsResults s (setWindow w s).1 :=
  ⟨(setWindow_frame w s).1.seqMode, (setWindow_frame w s).1.seqResults⟩

theorem flushBox_keepsResults (b : Box) (pixels : List HalfWord) (s : State) :
    KeepsResults s (flushBox b pixels s).1 := by
  obtain ⟨_, _, _, _, _, _, hmode, hresults, _⟩ := flushBox_frame b pixels s
  exact ⟨hmode, hresults⟩

theorem initSequence_keepsResults (v : Orientation) (s : State) : KeepsResults s (initSequence v s).1 :=
  ⟨(initSequence_frame v s).1.seqMode, (initSequence_frame v s).1.seqResults⟩

/-! ### The first event not answered `ok` ends the operation -/

theorem sliceRun_cuts (ph : Phase) (sh : Shape) (bytes : List Byte) (s : State) :
    Cuts s fun l => sliceRun ph sh bytes (s.answered l) := by
  unfold sliceRun
  by_cases h : sh.converts s.cfg.nativeOrder = true
  · simp only [show ∀ l, (s.answered l).cfg = s.cfg from fun _ => rfl, if_pos h]
    exact Cuts.of_history (u := { s with pb := Memory.writeFrom s.pb 0 (swapPairs bytes) }) rfl (tcSend_cuts _ _ _ _)
  · simp only [show ∀ l, (s.answered l).cfg = s.cfg from fun _ => rfl, if_neg h]
    exact tcSend_cuts _ _ _ _

theorem setoriRun_cuts (v : Orientation) (s : State) : Cuts s fun l => setoriRun v (s.answered l) :=
  Cuts.andThen (pdCommand_cuts opcMemoryAccessControl [s.cfg.madctl v] s) fun u =>
    Cuts.silent (u := { u with orient := v }) rfl _ fun _ => rfl

/-- Whichever event of the operation `k` is the first not answered `ok`: `k` concludes a run that emitted the events up
to it, drew no further answer, and ended as the answer says. -/
def EndsAtFirstBad (m : SeqMode) (k : State → Outcome) (s : State) : Prop :=
  ∀ (u : State) (es : List Event) (n : Nat) (a : Answer) (rest : List Answer) (st : Status), a ≠ .ok →
    k (s.answered []) = .next u → u.history = s.history ++ es → (es.filterMap failureOf)[n]? = some st →
      ∃ r : Run, k (s.answered (firstBad n a rest)) = conclude m r ∧ r.2 = a.reply st ∧
        r.1.history = s.history ++ cutAt a n es ∧ r.1.answers = rest ∧ KeepsResults s r.1

/-- The state an operation concludes in has its run's history. -/
theorem conclude_history {m : SeqMode} {r : Run} {t : State} (h : conclude m r = .next t) :
    t.history = r.1.history := by
  rw [conclude_keeps h]

/-- An operation that concludes a run whose events are cut. -/
theorem EndsAtFirstBad.of_conclude {m : SeqMode} {k : State → Outcome} {f : State → Run} {s : State}
    (hk : ∀ l, k (s.answered l) = conclude m (f (s.answered l))) (hc : Cuts s fun l => f (s.answered l))
    (hf : ∀ t, KeepsResults t (f t).1) : EndsAtFirstBad m k s := by
  intro u es n a rest st ha hu hes hn
  obtain ⟨fs, hhist, _, hcut⟩ := hc
  rw [hk] at hu
  have hsame : es = fs := List.append_cancel_left (hes.symm.trans ((conclude_history hu).trans hhist))
  subst hsame
  obtain ⟨h1, h2, h3⟩ := (hcut n a rest ha).1 st hn
  have hkeep := hf (s.answered (firstBad n a rest))
  exact ⟨_, hk _, h3, h1, h2, hkeep.seqMode, hkeep.seqResults⟩

/-- An operation that emits nothing has no event to end at. -/
theorem EndsAtFirstBad.of_silent {m : SeqMode} {k : State → Outcome} {s : State}
    (h : ∀ u, k (s.answered []) = .next u → u.history = s.history) : EndsAtFirstBad m k s := by
  intro u es n a rest st _ hu hes hn
  have hnil : es = [] := List.append_cancel_left (as := s.history) (by rw [← hes, h u hu, List.append_nil])
  rw [hnil] at hn
  cases hn

theorem returnStatus_history {st : Status} {s u t : State} (h : returnStatus st u = .next t)
    (hu : u.history = s.history) : t.history = s.history := by
  cases h
  exact hu

theorem EndsAtFirstBad.gated {m : SeqMode} {need : PdState} {k : State → Outcome} {s : State}
    (h : EndsAtFirstBad m k s) : EndsAtFirstBad m (gated need k) s := by
  by_cases hp : s.pd = need
  · have hk : ∀ l, Machine.gated need k (s.answered l) = k (s.answered l) := fun l =>
      gated_of_eq (s := s.answered l) hp k
    intro u es n a rest st ha hu hes hn
    rw [hk] at hu ⊢
    exact h u es n a rest st ha hu hes hn
  · refine .of_silent fun u hu => ?_
    rw [gated_of_ne (s := s.answered []) hp] at hu
    cases hu
    rfl

theorem sendSlice_endsAtFirstBad (ph : Phase) (sh : Shape) (len : Word) (s : State) :
    EndsAtFirstBad .hungInTransport (sendSlice ph sh len) s := by
  by_cases hlong : s.cfg.pbBytes < len.toNat * sh.itemSize
  · refine .of_silent fun u hu => ?_
    rw [sendSlice_of_long (s := s.answered []) hlong] at hu
    exact returnStatus_history hu rfl
  · cases hr : Memory.readFrom s.pb 0 (len.toNat * sh.itemSize) with
    | none =>
      refine .of_silent fun u hu => ?_
      rw [sendSlice_of_unwritten (s := s.answered []) hlong hr] at hu
      cases hu
    | some bytes =>
      exact .of_conclude (fun l => sendSlice_of_read (s := s.answered l) hlong hr) (sliceRun_cuts ph sh bytes s)
        (sliceRun_keepsResults ph sh bytes)

theorem tcSend_endsAtFirstBad (ph : Phase) (src : Source) (total : Nat) (s : State) :
    EndsAtFirstBad .hungInTransport (fun s => conclude .hungInTransport (tcSend ph src total s)) s :=
  .of_conclude (fun _ => rfl) (tcSend_cuts ph src total s) fun t => (tcSend_frame ph src total t).keepsResults

theorem flushReady_endsAtFirstBad (s : State) : EndsAtFirstBad .hungInDriver flushReady s := by
  cases hb : boundingBox s.dirtyCells with
  | none =>
    refine .of_silent fun u hu => ?_
    rw [flushReady_of_equal (s := s.answered []) hb] at hu
    exact returnStatus_history hu rfl
  | some b =>
    cases hp : s.boxPixels b with
    | none =>
      refine .of_silent fun u hu => ?_
      rw [flushReady_of_unspecified (s := s.answered []) hb hp] at hu
      cases hu
    | some pixels =>
      exact .of_conclude (fun l => flushReady_of_pixels (s := s.answered l) hb hp) (flushBox_cuts b pixels s)
        (flushBox_keepsResults b pixels)

theorem wrpixReady_endsAtFirstBad (x y color : HalfWord) (s : State) :
    EndsAtFirstBad .hungInDriver (wrpixReady x y color) s := by
  refine .of_silent fun u hu => ?_
  by_cases hout : s.width.toNat ≤ x.toNat ∨ s.height.toNat ≤ y.toNat
  · rw [wrpixReady_of_outside (s := s.answered []) hout] at hu
    exact returnStatus_history hu rfl
  · rw [wrpixReady_of_inside (s := s.answered []) hout] at hu
    exact returnStatus_history hu rfl

theorem transaction_endsAtFirstBad (op : Byte) (args : List Byte) (s : State) :
    EndsAtFirstBad .hungInDriver (transaction op args) s :=
  .of_conclude (fun _ => rfl) (pdCommand_cuts op args s) (pdCommand_keepsResults op args)

/-- Every operation ends at its first event not answered `ok`, and hangs in its own kind when that one is never answered
(R62, R126, R160, R262). -/
theorem exec_endsAtFirstBad (i : Instr) (s : State) : ∃ m, HangsIn i m ∧ EndsAtFirstBad m (exec i) s := by
  have form := exec_form i
  generalize exec i = k at form ⊢
  cases form with
  | slice ph sh len => exact ⟨_, hangsIn_transportOp _ _ _, sendSlice_endsAtFirstBad ph sh len s⟩
  | producer8 ph len => exact ⟨_, hangsIn_transportOp _ _ _, tcSend_endsAtFirstBad ph .port8 len.toNat s⟩
  | producer16 ph sh len =>
    exact ⟨_, hangsIn_transportOp _ _ _,
      tcSend_endsAtFirstBad ph (.port16 (sh.order s.cfg.nativeOrder)) (2 * len.toNat) s⟩
  | reserved h => exact ⟨_, hangsIn_of_not_transport h, .of_silent fun _ hu => returnStatus_history hu rfl⟩
  | init v =>
    exact ⟨_, hangsIn_of_not_transport rfl,
      .gated (.of_conclude (fun _ => rfl) (initSequence_cuts v s) (initSequence_keepsResults v))⟩
  | setwin x0 y0 x1 y1 =>
    exact ⟨_, hangsIn_of_not_transport rfl,
      .gated (.of_conclude (fun _ => rfl) (setWindow_cuts _ s) (setWindow_keepsResults _))⟩
  | wrpix x y color => exact ⟨_, hangsIn_of_not_transport rfl, .gated (wrpixReady_endsAtFirstBad x y color s)⟩
  | clear color =>
    exact ⟨_, hangsIn_of_not_transport rfl, .gated (.of_silent fun _ hu => returnStatus_history hu rfl)⟩
  | flush => exact ⟨_, hangsIn_of_not_transport rfl, .gated (flushReady_endsAtFirstBad s)⟩
  | command op args h => exact ⟨_, hangsIn_of_not_transport h, .gated (transaction_endsAtFirstBad op args s)⟩
  | setori v =>
    exact ⟨_, hangsIn_of_not_transport rfl,
      .gated (.of_conclude (fun _ => rfl) (setoriRun_cuts v s) (setoriRun_keepsResults v))⟩
  | getw => exact ⟨_, hangsIn_of_not_transport rfl, .of_silent fun _ hu => by cases hu; rfl⟩
  | geth => exact ⟨_, hangsIn_of_not_transport rfl, .of_silent fun _ hu => by cases hu; rfl⟩
  | poll => exact ⟨_, hangsIn_of_not_transport rfl, .of_silent fun _ hu => by cases hu; rfl⟩
  | wire op args h => exact ⟨_, hangsIn_of_not_transport h, transaction_endsAtFirstBad op args s⟩

/-- The same of a state with its own answers. -/
theorem exec_endsAt {i : Instr} {s u : State} {es : List Event} {n : Nat} {a : Answer} {rest : List Answer}
    {st : Status} (ha : a ≠ .ok) (hs : s.answers = firstBad n a rest) (hu : exec i { s with answers := [] } = .next u)
    (hes : u.history = s.history ++ es) (hn : (es.filterMap failureOf)[n]? = some st) :
    ∃ (m : SeqMode) (r : Run), HangsIn i m ∧ exec i s = conclude m r ∧ r.2 = a.reply st ∧
      r.1.history = s.history ++ cutAt a n es ∧ r.1.answers = rest ∧ KeepsResults s r.1 := by
  obtain ⟨m, hm, hends⟩ := exec_endsAtFirstBad i s
  obtain ⟨r, hr⟩ := hends u es n a rest st ha hu hes hn
  rw [answered_self hs] at hr
  exact ⟨m, r, hm, hr⟩

/-! ### A producer that stops early -/

/-- A transport call whose producer runs out: the select line, every whole chunk, then it hangs with all items consumed
(R65, R127, R298). -/
theorem tcSend_starves {s : State} (hs : s.cfg.WellFormed) (hok : AllOk s) (ph : Phase) {total : Nat} {src : Source}
    (hsrc : ∀ l, src ≠ .bytes l) (hw : src.Whole total) (hup : (src.upcoming s).length < total) :
    ∃ t, tcSend ph src total s = (t, .hung) ∧
      t.history = s.history ++ .dc (s.cfg.level ph) .ok ::
        (wholeChunks s.cfg.chunkBytes (src.upcoming s)).map (fun chunk => .wr chunk .ok) ∧
      t.prod8 = (src.pull (src.upcoming s).length s).prod8 ∧
      t.prod16 = (src.pull (src.upcoming s).length s).prod16 ∧ BusOnly s t := by
  have hc := hs.chunk_two
  have hna := nextAnswer_of_allOk hok
  have hline : src.upcoming (emitDc (s.cfg.level ph) s).1 = src.upcoming s := by cases src <;> rfl
  obtain ⟨t, hrun, hhist, h8, h16, _, hframe⟩ :=
    writeStream_starves (s := (emitDc (s.cfg.level ph) s).1) (AllOk.tail hok rfl) (show 0 < s.cfg.chunkBytes by omega)
      hs.chunk_even hsrc (Nat.le_refl total) hw (by rw [hline]; exact hup)
  rw [hline] at hhist h8 h16
  refine ⟨t, ?_, ?_, ?_, ?_, (emitDc_frame _ s).bus.trans hframe⟩
  · unfold tcSend
    rw [Run.andThen_of_ok (by rw [emitDc_reply, hna]; rfl)]
    exact hrun
  · rw [hhist, emitDc_history, hna, emitDc_cfg, List.append_assoc, List.singleton_append]
  · rw [h8]; cases src <;> rfl
  · rw [h16]; cases src <;> rfl

/-- SEQ hangs in SENDC or SENDD without a result, and the block is otherwise as the transport call left it. -/
theorem conclude_starved {s t : State} (h : BusOnly s t) :
    ∃ u, conclude .hungInTransport (t, .hung) = .next u ∧ u.seqMode = .hungInTransport ∧
      u.seqResults = s.seqResults ∧ u.history = t.history ∧ u.prod8 = t.prod8 ∧ u.prod16 = t.prod16 ∧ u.pb = s.pb ∧
      KeepsOutside s u ∧ KeepsDriver s u :=
  ⟨{ t with seqMode := .hungInTransport }, rfl, rfl, h.seqResults, rfl, rfl, rfl, h.pb,
    h.outside.trans ⟨rfl, rfl, rfl, rfl, rfl, rfl⟩, { h.driver with }⟩

theorem exec_producer8 (ph : Phase) (len : Word) (s : State) :
    exec (transportOp ph .u8i len) s = conclude .hungInTransport (tcSend ph .port8 len.toNat s) := by
  cases ph <;> rfl

theorem exec_producer16 (ph : Phase) {sh : Shape} (h : sh ∈ [Shape.u16i, .u16lei, .u16bei]) (len : Word) (s : State) :
    exec (transportOp ph sh len) s =
      conclude .hungInTransport (tcSend ph (.port16 (sh.order s.cfg.nativeOrder)) (2 * len.toNat) s) := by
  simp only [List.mem_cons, List.not_mem_nil, or_false] at h
  rcases h with rfl | rfl | rfl <;> cases ph <;> rfl

/-- Settles O7: an unanswered event ends the operation's run as a hang, and a transport call starves when its producer
stops early. -/
theorem unansweredEventsAndShortProducersHang : Obligations.UnansweredEventsAndShortProducersHang := by
  refine ⟨fun i s u es n draw rest st hs hu hes hn => ?_, fun s ph len hcfg hok hshort => ?_,
    fun s ph sh len hsh hcfg hok hshort => ?_⟩
  · obtain ⟨m, r, hm, hexec, hreply, hhist, hans, hkeep⟩ := exec_endsAt (a := .never draw) nofun hs hu hes hn
    exact ⟨_, hexec.trans (conclude_of_hung hreply), hm, hkeep.seqResults, hhist, hans⟩
  · obtain ⟨t, hrun, hhist, h8, h16, hframe⟩ :=
      tcSend_starves hcfg hok ph (src := .port8) nofun trivial (show s.prod8.length < len.toNat from hshort)
    obtain ⟨u, hu, hmode, hres, uhist, u8, u16, hpb, hout, hdriver⟩ := conclude_starved hframe
    refine ⟨u, by rw [exec_producer8, hrun, hu], hmode, hres, uhist.trans hhist, ?_, u16.trans h16, hpb, hout, hdriver⟩
    rw [u8, h8]
    exact List.drop_length
  · have hup : ((Source.port16 (sh.order s.cfg.nativeOrder)).upcoming s).length = 2 * s.prod16.length :=
      serAll_length _ _
    obtain ⟨t, hrun, hhist, h8, h16, hframe⟩ :=
      tcSend_starves (total := 2 * len.toNat) hcfg hok ph (src := .port16 (sh.order s.cfg.nativeOrder)) nofun
        (Nat.mul_mod_right 2 _) (by omega)
    obtain ⟨u, hu, hmode, hres, uhist, u8, u16, hpb, hout, hdriver⟩ := conclude_starved hframe
    refine ⟨u, by rw [exec_producer16 ph hsh, hrun, hu], hmode, hres, uhist.trans hhist, ?_, u8.trans h8, hpb, hout,
      hdriver⟩
    rw [u16, h16, hup]
    simp [Source.pull]

end Sys2Proof.Machine
end

