-- ==== Sys2Proof/Proofs/Endings.lean ====
section
/-! PROOFS. The ways an operation can give a next state: it returns a result at once, writes `cur` and returns, polls,
or concludes a run on the bus. A claim about what an operation leaves is proved once per way. -/

namespace Sys2Proof.Machine

/-- The run of an operation that passed its checks and goes on to the bus. -/
inductive BusRun : Instr → State → Run → Prop
  | slice (ph : Phase) (sh : Shape) (len : Word) (bytes : List Byte) (s : State) :
      BusRun (transportOp ph sh len) s (sliceRun ph sh bytes s)
  | producer (ph : Phase) (sh : Shape) (len : Word) (src : Source) (total : Nat) (s : State) :
      BusRun (transportOp ph sh len) s (tcSend ph src total s)
  | init (v : Orientation) (s : State) : BusRun (.init v) s (initSequence v s)
  | setwin (x0 y0 x1 y1 : HalfWord) (s : State) : BusRun (.setwin x0 y0 x1 y1) s (setWindow ⟨x0, y0, x1, y1⟩ s)
  | flush (b : Box) (pixels : List HalfWord) (s : State) : BusRun .flush s (flushBox b pixels s)
  | setori (v : Orientation) (s : State) : BusRun (.setori v) s (setoriRun v s)
  /-- A command write, or a wire transaction by itself. -/
  | transaction (i : Instr) (op : Byte) (args : List Byte) (s : State) : BusRun i s (pdCommand op args s)

/-- How an operation came to its next state. -/
inductive Ending : Instr → State → State → Prop
  /-- A failed check, nothing to send, or a plain answer. -/
  | returned (i : Instr) (st : Status) (res : HalfWord) (s : State) : Ending i s (s.finishSeq st res)
  | wrpix (x y color : HalfWord) (s : State) :
      Ending (.wrpix x y color) s (State.finishSeq .ok 0
        { s with cur := Memory.write s.cur (s.cellIndex x.toNat y.toNat) (s.cfg.reduce color) })
  | clear (color : HalfWord) (s : State) :
      Ending (.clear color) s (State.finishSeq .ok 0 { s with cur := Memory.fill s.cfg.cells (s.cfg.reduce color) })
  | polled (s : State) : Ending .poll s (s.setQda (polledQda s) (polledResults s))
  | concluded {i : Instr} {m : SeqMode} {r : Run} {s t : State} (run : BusRun i s r)
      (hend : conclude m r = .next t) : Ending i s t

theorem Ending.of_returnStatus {i : Instr} {st : Status} {s t : State} (ht : returnStatus st s = .next t) :
    Ending i s t := by
  cases ht
  exact .returned i st 0 s

/-- A gated operation returns `BadState`, or its gate was passed (R161). -/
theorem Ending.of_gated {i : Instr} {need : PdState} {k : State → Outcome} {s t : State}
    (hk : k s = .next t → Ending i s t) (ht : gated need k s = .next t) : Ending i s t := by
  by_cases hp : s.pd = need
  · rw [gated_of_eq hp] at ht; exact hk ht
  · rw [gated_of_ne hp] at ht; cases ht; exact .returned _ _ _ _

theorem sendSlice_ending {ph : Phase} {sh : Shape} {len : Word} {s t : State}
    (ht : sendSlice ph sh len s = .next t) : Ending (transportOp ph sh len) s t := by
  by_cases hlong : s.cfg.pbBytes < len.toNat * sh.itemSize
  · rw [sendSlice_of_long hlong] at ht
    exact .of_returnStatus ht
  · cases hr : Memory.readFrom s.pb 0 (len.toNat * sh.itemSize) with
    | none => rw [sendSlice_of_unwritten hlong hr] at ht; cases ht
    | some bytes =>
      rw [sendSlice_of_read hlong hr] at ht
      exact .concluded (.slice ph sh len bytes s) ht

theorem wrpixReady_ending {x y color : HalfWord} {s t : State} (ht : wrpixReady x y color s = .next t) :
    Ending (.wrpix x y color) s t := by
  by_cases hout : s.width.toNat ≤ x.toNat ∨ s.height.toNat ≤ y.toNat
  · rw [wrpixReady_of_outside hout] at ht
    exact .of_returnStatus ht
  · rw [wrpixReady_of_inside hout] at ht
    cases ht
    exact .wrpix x y color s

theorem flushReady_ending {s t : State} (ht : flushReady s = .next t) : Ending .flush s t := by
  cases hb : boundingBox s.dirtyCells with
  | none => rw [flushReady_of_equal hb] at ht; exact .of_returnStatus ht
  | some b =>
    cases hp : s.boxPixels b with
    | none => rw [flushReady_of_unspecified hb hp] at ht; cases ht
    | some pixels => rw [flushReady_of_pixels hb hp] at ht; exact .concluded (.flush b pixels s) ht

/-- Every operation that gives a next state ends in one of the ways. -/
theorem exec_ending {i : Instr} {s t : State} (ht : exec i s = .next t) : Ending i s t := by
  have form := exec_form i
  generalize exec i = k at form ht
  cases form with
  | slice ph sh len => exact sendSlice_ending ht
  | producer8 ph len => exact .concluded (.producer ph .u8i len _ _ s) ht
  | producer16 ph sh len => exact .concluded (.producer ph sh len _ _ s) ht
  | reserved => exact .of_returnStatus ht
  | init v => exact .of_gated (.concluded (.init v s)) ht
  | setwin x0 y0 x1 y1 => exact .of_gated (.concluded (.setwin x0 y0 x1 y1 s)) ht
  | wrpix x y color => exact .of_gated wrpixReady_ending ht
  | clear color => exact .of_gated (fun hk => by cases hk; exact .clear color s) ht
  | flush => exact .of_gated flushReady_ending ht
  | command op args => exact .of_gated (.concluded (.transaction i op args s)) ht
  | setori v => exact .of_gated (.concluded (.setori v s)) ht
  | getw => cases ht; exact .returned _ _ _ s
  | geth => cases ht; exact .returned _ _ _ s
  | poll => cases ht; exact .polled s
  | wire op args => exact .concluded (.transaction i op args s) ht

/-- INIT returns `BadState` and nothing else, or concludes its walk (R161, R162). -/
theorem exec_init_cases {v : Orientation} {s t : State} (ht : exec (.init v) s = .next t) :
    (s.pd ≠ .uninitialized ∧ t = s.finishSeq .badState 0) ∨
      (s.pd = .uninitialized ∧ conclude .hungInDriver (initSequence v s) = .next t) := by
  have hexec : exec (.init v) s = gated .uninitialized (fun s => conclude .hungInDriver (initSequence v s)) s := rfl
  rw [hexec] at ht
  by_cases hp : s.pd = .uninitialized
  · rw [gated_of_eq hp] at ht
    exact .inr ⟨hp, ht⟩
  · rw [gated_of_ne hp] at ht
    cases ht
    exact .inl ⟨hp, rfl⟩

end Sys2Proof.Machine
end

