-- ==== Sys2Proof/Proofs/Writers.lean ====
section
/-! PROOFS. Who writes which element of the state (10_state.md R20, R21, R25): an operation of SEQ keeps QDA's part and
POLL everything else, and every element is written by the operations the state table names. -/

namespace Sys2Proof.Machine

/-! ### The two agents -/

/-- Settles O9: the frame of every operation of SEQ, and POLL as a replacement of QDA's part. -/
theorem agentsShareNoState : Obligations.AgentsShareNoState := by
  intro i s t ht
  refine ⟨fun hi => exec_keepsOutside hi ht, fun hi => ?_⟩
  subst hi
  rw [exec_poll] at ht
  cases ht
  rfl

/-! ### The writers of each element -/

/-- The four operations whose shape may convert the slice in `PB` (R103, R122). -/
def ConvertsInPlace (i : Instr) : Prop :=
  ∃ len, i = .sendcU16le len ∨ i = .sendcU16be len ∨ i = .senddU16le len ∨ i = .senddU16be len

/-- Every element of R20's table that changed from `s` to `t` has the operation among its writers. -/
structure WrittenByTable (i : Instr) (s t : State) : Prop where
  pd : t.pd = s.pd ∨ ∃ v, i = .init v
  orient : t.orient = s.orient ∨ ∃ v, i = .init v ∨ i = .setori v
  win : t.win = s.win ∨ i = .flush ∨ ∃ x0 y0 x1 y1, i = .setwin x0 y0 x1 y1
  cur : t.cur = s.cur ∨ (∃ v, i = .init v) ∨ (∃ x y c, i = .wrpix x y c) ∨ ∃ c, i = .clear c
  snt : t.snt = s.snt ∨ i = .flush ∨ ∃ v, i = .init v
  pb : t.pb = s.pb ∨ ConvertsInPlace i
  rstN : t.rstN = s.rstN ∨ ∃ v, i = .init v
  qda : t.qda = s.qda ∨ i = .poll

/-- An operation that changes at most `PB`, as one of its writers. -/
theorem WrittenByTable.of_keeps {i : Instr} {s t : State} (hdriver : KeepsDriver s t) (hqda : t.qda = s.qda)
    (hpb : t.pb = s.pb ∨ ConvertsInPlace i) : WrittenByTable i s t where
  pd := .inl hdriver.pd
  orient := .inl hdriver.orient
  win := .inl hdriver.win
  cur := .inl hdriver.cur
  snt := .inl hdriver.snt
  pb := hpb
  rstN := .inl hdriver.rstN
  qda := .inl hqda

theorem BusOnly.writtenByTable {i : Instr} {s t : State} (h : BusOnly s t) : WrittenByTable i s t :=
  .of_keeps h.driver h.outside.qda (.inl h.pb)

/-- Returning a result, or hanging, writes no element of the table. -/
theorem WrittenByTable.conclude {i : Instr} {m : SeqMode} {r : Run} {s t : State} (h : WrittenByTable i s r.1)
    (ht : conclude m r = .next t) : WrittenByTable i s t := by
  rw [conclude_keeps ht]
  exact { h with }

/-- A SENDC or SENDD whose shape converts is one of the four. -/
theorem transportOp_convertsInPlace {ph : Phase} {sh : Shape} {native : ByteOrder} (h : sh.converts native = true)
    (len : Word) : ConvertsInPlace (transportOp ph sh len) := by
  refine ⟨len, ?_⟩
  cases sh with
  | u16le => cases ph <;> simp [transportOp]
  | u16be => cases ph <;> simp [transportOp]
  | u8 | u16 | u8i | u16i | u16lei | u16bei => cases h

theorem sliceRun_writtenByTable (ph : Phase) (sh : Shape) (len : Word) (bytes : List Byte) (s : State) :
    WrittenByTable (transportOp ph sh len) s (sliceRun ph sh bytes s).1 := by
  unfold sliceRun
  by_cases hconv : sh.converts s.cfg.nativeOrder = true
  · rw [if_pos hconv]
    have hsent := (sendBytes_frame ph (swapPairs bytes)
      { s with pb := Memory.writeFrom s.pb 0 (swapPairs bytes) }).bus
    exact .of_keeps { hsent.driver with } hsent.outside.qda (.inr (transportOp_convertsInPlace hconv len))
  · rw [if_neg hconv]
    exact (sendBytes_frame ph bytes s).bus.writtenByTable

/-- The runs on the bus write what the table gives their operations. -/
theorem BusRun.writtenByTable {i : Instr} {s : State} {r : Run} (h : BusRun i s r) : WrittenByTable i s r.1 := by
  cases h with
  | slice ph sh len bytes => exact sliceRun_writtenByTable ph sh len bytes s
  | producer ph sh len src total => exact (tcSend_frame ph src total s).writtenByTable
  | init v =>
    obtain ⟨hwalk, _⟩ := initSequence_frame v s
    exact {
      pd := .inr ⟨v, rfl⟩, orient := .inr ⟨v, .inl rfl⟩, win := .inl hwalk.win
      cur := .inr (.inl ⟨v, rfl⟩), snt := .inr (.inr ⟨v, rfl⟩), pb := .inl hwalk.payload.pb
      rstN := .inr ⟨v, rfl⟩, qda := .inl hwalk.outside.qda }
  | setwin x0 y0 x1 y1 =>
    obtain ⟨hwin, _⟩ := setWindow_frame ⟨x0, y0, x1, y1⟩ s
    exact {
      pd := .inl hwin.pd, orient := .inl hwin.orient, win := .inr (.inr ⟨x0, y0, x1, y1, rfl⟩), cur := .inl hwin.cur
      snt := .inl hwin.snt, pb := .inl hwin.payload.pb, rstN := .inl hwin.rstN, qda := .inl hwin.outside.qda }
  | flush b pixels =>
    obtain ⟨hcur, horient, hpd, hrst, houtside, hpayload, _⟩ := flushBox_frame b pixels s
    exact {
      pd := .inl hpd, orient := .inl horient, win := .inr (.inl rfl), cur := .inl hcur, snt := .inr (.inl rfl)
      pb := .inl hpayload.pb, rstN := .inl hrst, qda := .inl houtside.qda }
  | setori v =>
    exact Run.andThen_keeps (P := WrittenByTable (.setori v) s) (pdCommand_frame _ _ s).bus.writtenByTable
      fun _ h => { h with orient := .inr ⟨v, .inr rfl⟩ }
  | transaction _ op args => exact (pdCommand_frame op args s).bus.writtenByTable

/-- Whichever way an operation ends, it wrote what the table gives it. -/
theorem Ending.writtenByTable {i : Instr} {s t : State} (h : Ending i s t) : WrittenByTable i s t := by
  have unchanged : ∀ j, WrittenByTable j s s := fun j => (BusOnly.refl s).writtenByTable
  cases h with
  | returned _ st res => exact { unchanged i with }
  | wrpix x y color => exact { unchanged _ with cur := .inr (.inr (.inl ⟨x, y, color, rfl⟩)) }
  | clear color => exact { unchanged _ with cur := .inr (.inr (.inr ⟨color, rfl⟩)) }
  | polled => exact { unchanged _ with qda := .inr rfl }
  | concluded run hend => exact run.writtenByTable.conclude hend

/-- Settles O10: whichever way an operation ends, the elements it changed are its own by R20's table. -/
theorem onlyTheNamedOperationsWrite : Obligations.OnlyTheNamedOperationsWrite := by
  intro i s t ht
  have h := (exec_ending ht).writtenByTable
  exact ⟨h.pd.resolve_left, h.orient.resolve_left, h.win.resolve_left, h.cur.resolve_left, h.snt.resolve_left,
    h.pb.resolve_left, h.rstN.resolve_left, h.qda.resolve_left⟩

/-! ### `PD_STATE` -/

/-- What an INIT out of `Uninitialized` leaves in `PD_STATE`: never that state again, and `Ready` exactly when it
returned `(OK, 0)` (R25, R163). -/
theorem initSequence_pd {m : SeqMode} {v : Orientation} {s t : State}
    (ht : conclude m (initSequence v s) = .next t) :
    t.pd ≠ .uninitialized ∧ (t.pd = .ready ↔ Returns s t .ok 0) := by
  obtain ⟨_, hready, hstarted⟩ := initSequence_frame v s
  have hpd : t.pd = (initSequence v s).1.pd := by rw [conclude_keeps ht]
  have hreturns := conclude_returns_ok (initSequence_honest v s) ht
  rw [(initSequence_keepsResults v s).seqResults] at hreturns
  rw [hpd]
  exact ⟨hstarted, hready.symm.trans hreturns.symm⟩

/-- Settles O11: any other operation keeps `PD_STATE`, and INIT's walk only goes forward. -/
theorem pdStateMovesForwardOnly : Obligations.PdStateMovesForwardOnly := by
  intro i s t ht
  rcases (exec_ending ht).writtenByTable.pd with hkept | ⟨v, rfl⟩
  · refine ⟨.inl hkept, ?_⟩
    rintro v rfl hun
    rcases exec_init_cases ht with ⟨hp, _⟩ | ⟨_, hwalk⟩
    · exact absurd hun hp
    · exact (initSequence_pd hwalk).2
  · rcases exec_init_cases ht with ⟨hp, rfl⟩ | ⟨hp, hwalk⟩
    · exact ⟨.inl rfl, fun _ _ hun => absurd hun hp⟩
    · obtain ⟨hstarted, hready⟩ := initSequence_pd hwalk
      exact ⟨.inr ⟨hp, hstarted, v, rfl⟩, fun _ _ _ => hready⟩

end Sys2Proof.Machine
end

