-- ==== Sys2Proof/Proofs/Lines.lean ====
section
/-! PROOFS. The event history, the lines and the panel over a whole operation (10_state.md R28, R29, R36, 20_memory.md
R63, R67, R80): they are what the events it appended make of them. -/

namespace Sys2Proof.Machine

/-- `t` comes after `s` by further events, and its lines and its panel are what these make of `s`'s, the panel being
written in the orientation `v`; the orientation may have changed since (R175). -/
def Plays (v : Orientation) (s t : State) : Prop :=
  ∃ es, t.history = s.history ++ es ∧
    (t.panel, t.dc, t.rstN) = es.foldl (playEvent s.cfg (s.cfg.width v) (s.cfg.height v)) (s.panel, s.dc, s.rstN)

theorem Follows.plays {s t : State} (h : Follows s t) : Plays s.orient s t := by
  obtain ⟨_, _, _, hplayed⟩ := h
  exact hplayed

theorem Plays.refl (v : Orientation) (s : State) : Plays v s s := ⟨[], (List.append_nil _).symm, rfl⟩

/-- Returning a result, or hanging, emits nothing. -/
theorem Plays.conclude {v : Orientation} {m : SeqMode} {r : Run} {s t : State} (h : Plays v s r.1)
    (ht : conclude m r = .next t) : Plays v s t := by
  rw [conclude_keeps ht]
  exact h

/-- The conversion in `PB` comes before the first event and touches no line (R122). -/
theorem sliceRun_follows (ph : Phase) (sh : Shape) (bytes : List Byte) (s : State) :
    Follows s (sliceRun ph sh bytes s).1 := by
  unfold sliceRun
  split
  · have hconv : Follows s { s with pb := Memory.writeFrom s.pb 0 (swapPairs bytes) } := Follows.refl s
    exact hconv.trans (tcSend_follows _ _ _ _)
  · exact tcSend_follows _ _ _ _

/-- SETORI takes its orientation only after its last event (R175). -/
theorem setoriRun_plays (v : Orientation) (s : State) : Plays s.orient s (setoriRun v s).1 :=
  Run.andThen_keeps (P := Plays s.orient s) (pdCommand_follows _ _ s).plays fun _ h => h

/-- INIT sends in the orientation it was given (R162). -/
theorem initSequence_plays (v : Orientation) (s : State) : Plays v s (initSequence v s).1 :=
  (initSequence_follows v s).plays

theorem orientDuring_init {v : Orientation} {s : State} (h : s.pd = .uninitialized) : orientDuring (.init v) s = v :=
  if_pos h

theorem orientDuring_of_not_init {i : Instr} (hi : ∀ v, i ≠ .init v) (s : State) : orientDuring i s = s.orient := by
  unfold orientDuring
  split
  · exact absurd rfl (hi _)
  · rfl

/-- The runs of the operations other than INIT send in the orientation they find. -/
theorem BusRun.plays {i : Instr} {s : State} {r : Run} (h : BusRun i s r) (hi : ∀ v, i ≠ .init v) :
    Plays s.orient s r.1 := by
  cases h with
  | slice ph sh len bytes => exact (sliceRun_follows ph sh bytes s).plays
  | producer ph sh len src total => exact (tcSend_follows ph src total s).plays
  | init v => exact absurd rfl (hi v)
  | setwin x0 y0 x1 y1 => exact (setWindow_follows _ s).plays
  | flush b pixels => exact (flushBox_follows b pixels s).plays
  | setori v => exact setoriRun_plays v s
  | transaction _ op args => exact (pdCommand_follows op args s).plays

/-- An operation that never reaches the bus emits nothing. -/
theorem Ending.plays {i : Instr} {s t : State} (h : Ending i s t) (hi : ∀ v, i ≠ .init v) : Plays s.orient s t := by
  cases h with
  | returned _ st res => exact .refl _ s
  | wrpix x y color => exact .refl _ s
  | clear color => exact .refl _ s
  | polled => exact .refl _ s
  | concluded run hend => exact (run.plays hi).conclude hend

theorem exec_init_plays {v : Orientation} {s t : State} (ht : exec (.init v) s = .next t) :
    Plays (orientDuring (.init v) s) s t := by
  rcases exec_init_cases ht with ⟨_, rfl⟩ | ⟨hp, hwalk⟩
  · exact .refl _ s
  · rw [orientDuring_init hp]
    exact (initSequence_plays v s).conclude hwalk

/-- Settles O56: the parts of every operation's run play their events, in the orientation the operation sends in. -/
theorem linesAndPanelFollowTheEvents : Obligations.LinesAndPanelFollowTheEvents := by
  intro i s t ht
  by_cases hinit : ∃ v, i = .init v
  · obtain ⟨v, rfl⟩ := hinit
    exact exec_init_plays ht
  · have hi : ∀ v, i ≠ .init v := not_exists.mp hinit
    rw [orientDuring_of_not_init hi]
    exact (exec_ending ht).plays hi

/-- Settles O12: the events whose play O56 gives are appended to the history. -/
theorem historyOnlyGrows : Obligations.HistoryOnlyGrows := by
  intro i s t ht
  obtain ⟨es, hhistory, _⟩ := linesAndPanelFollowTheEvents i s t ht
  exact ⟨es, hhistory⟩

end Sys2Proof.Machine
end

