-- ==== Sys2Proof/Proofs/Slices.lean ====
section
/-! PROOFS. A slice over a byte of `PB` that holds no value is refused (10_state.md R38; 93 U9). -/

namespace Sys2Proof.Machine

/-- The meaning of a SENDC or SENDD with a slice shape (R129 to R133). -/
theorem exec_slice (ph : Phase) {sh : Shape} (h : sh.isSlice = true) (len : Word) (s : State) :
    exec (transportOp ph sh len) s = sendSlice ph sh len s := by
  cases sh with
  | u8 | u16 | u16le | u16be => cases ph <;> rfl
  | u8i | u16i | u16lei | u16bei => cases h

/-- Settles O25: a slice with an unwritten byte cannot be read whole. -/
theorem unwrittenPayloadIsRefused : Obligations.UnwrittenPayloadIsRefused := by
  intro s ph sh len a hsh hfits ha hnone
  have hread : Memory.readFrom s.pb 0 (len.toNat * sh.itemSize) = none :=
    Memory.readFrom_none (Nat.zero_le a) (by omega) hnone
  rw [exec_slice ph hsh, sendSlice_of_unwritten (Nat.not_lt.mpr hfits) hread]

end Sys2Proof.Machine
end

