-- ==== Sys2Proof/Proofs/Frames.lean ====
section
/-! PROOFS. The transport call that a SENDC or SENDD makes when its byte stream is there, the same for every phase and
shape (40_transport_codec.md R120 to R137), and with it what the bytes do to the panel's current command (20_memory.md
R80). -/

namespace Sys2Proof.Machine

/-- The state once the in-place conversion left `pb` in the payload buffer (R122). -/
def State.setPb (pb : Memory Byte) (s : State) : State := { s with pb := pb }

/-! ### The stream of a slice -/

/-- The payload buffer a slice shape sends from: the bytes to send written back when it converts (R122). -/
def slicePb (sh : Shape) (stream : List Byte) (s : State) : Memory Byte :=
  if sh.converts s.cfg.nativeOrder then Memory.writeFrom s.pb 0 stream else s.pb

/-- The bytes a slice shape makes of the bytes in `PB` (R122, R124). -/
def sliceStream (sh : Shape) (native : ByteOrder) (bytes : List Byte) : List Byte :=
  if sh.converts native then swapPairs bytes else bytes

theorem sliceRun_eq (ph : Phase) (sh : Shape) (bytes : List Byte) (s : State) :
    sliceRun ph sh bytes s = sendBytes ph (sliceStream sh s.cfg.nativeOrder bytes)
      (s.setPb (slicePb sh (sliceStream sh s.cfg.nativeOrder bytes) s)) := by
  unfold sliceRun slicePb sliceStream
  by_cases h : sh.converts s.cfg.nativeOrder = true
  · simp only [if_pos h]; rfl
  · simp only [if_neg h]; rfl

theorem sliceStream_length (sh : Shape) (native : ByteOrder) (bytes : List Byte) :
    (sliceStream sh native bytes).length = bytes.length := by
  unfold sliceStream
  split
  · exact swapPairs_length bytes
  · rfl

/-- The words of a slice go out in the order its shape asks for (R103, R122). -/
theorem sliceStream_serAll {sh : Shape} (h : sh.isSlice = true) (native : ByteOrder) (ws : List HalfWord) :
    sliceStream sh native (serAll native ws) = serAll (sh.order native) ws := by
  unfold sliceStream
  cases sh with
  | u8 | u16 => rfl
  | u16le =>
    cases native with
    | le => rfl
    | be => exact swapPairs_serAll .be ws
  | u16be =>
    cases native with
    | le => exact swapPairs_serAll .le ws
    | be => rfl
  | u8i | u16i | u16lei | u16bei => cases h

/-- The slice of a frame lies in `PB`, and what is made of it is the frame's stream (R124). -/
theorem readFrom_of_frameBytes {s : State} {sh : Shape} (h : sh.isSlice = true) {len : Word} {stream : List Byte}
    (hf : frameBytes s sh len = some stream) :
    ∃ bytes, Memory.readFrom s.pb 0 (len.toNat * sh.itemSize) = some bytes ∧
      sliceStream sh s.cfg.nativeOrder bytes = stream := by
  have words : ∀ {sh : Shape}, sh.isSlice = true →
      (Memory.words s.cfg.nativeOrder s.pb 0 len.toNat).map (serAll (sh.order s.cfg.nativeOrder)) = some stream →
      ∃ bytes, Memory.readFrom s.pb 0 (len.toNat * 2) = some bytes ∧
        sliceStream sh s.cfg.nativeOrder bytes = stream := by
    intro sh hsh hw
    obtain ⟨ws, hws, rfl⟩ := Option.map_eq_some_iff.1 hw
    refine ⟨serAll s.cfg.nativeOrder ws, ?_, sliceStream_serAll hsh _ ws⟩
    rw [Nat.mul_comm]
    exact Memory.readFrom_of_words hws
  cases sh with
  | u8 => exact ⟨stream, by rw [← hf, Shape.itemSize, Nat.mul_one]; rfl, rfl⟩
  | u16 => exact words h hf
  | u16le => exact words h hf
  | u16be => exact words h hf
  | u8i | u16i | u16lei | u16bei => cases h

/-! ### The transport call of a frame -/

/-- The transport call that sends the frame `stream` of `len` items of shape `sh`: it takes its bytes from `src`, over
the payload buffer `pb`. -/
structure SendsFrame (s : State) (sh : Shape) (len : Word) (stream : List Byte) (src : Source) (pb : Memory Byte) :
    Prop where
  /-- Only the converting shapes write `PB` (R122). -/
  pb_kept : sh ≠ .u16le → sh ≠ .u16be → pb = s.pb
  length : stream.length = len.toNat * sh.itemSize
  upcoming : (src.upcoming (s.setPb pb)).take stream.length = stream
  whole : src.Whole stream.length
  /-- Only the byte producer pulls items of 8 bits (R127). -/
  prod8 : ∀ m, (src.pull m (s.setPb pb)).prod8 = if sh = .u8i then s.prod8.drop m else s.prod8
  /-- Only the 16-bit producers pull items of 16 bits (R127). -/
  prod16 : ∀ m, (src.pull m (s.setPb pb)).prod16 =
    if sh ∈ [Shape.u16i, .u16lei, .u16bei] then s.prod16.drop (m / 2) else s.prod16

theorem SendsFrame.enough {s : State} {sh : Shape} {len : Word} {stream : List Byte} {src : Source} {pb : Memory Byte}
    (h : SendsFrame s sh len stream src pb) : stream.length ≤ (src.upcoming (s.setPb pb)).length := by
  have := congrArg List.length h.upcoming
  rw [List.length_take] at this
  omega

/-- The 16-bit producers have items of two bytes and take none of them from `PB` (R103). -/
theorem wordProducer_items {sh : Shape} (h : sh ∈ [Shape.u16i, .u16lei, .u16bei]) :
    sh.itemSize = 2 ∧ sh.isSlice = false ∧ sh ≠ .u8i := by
  simp only [List.mem_cons, List.not_mem_nil, or_false] at h
  rcases h with rfl | rfl | rfl <;> exact ⟨rfl, rfl, nofun⟩

theorem SendsFrame.of_slice {s : State} {sh : Shape} (h : sh.isSlice = true) {len : Word} {stream : List Byte}
    (hlen : stream.length = len.toNat * sh.itemSize) :
    SendsFrame s sh len stream (.bytes stream) (slicePb sh stream s) where
  pb_kept hle hbe := by
    cases sh with
    | u16le => exact absurd rfl hle
    | u16be => exact absurd rfl hbe
    | u8 | u16 | u8i | u16i | u16lei | u16bei => rfl
  length := hlen
  upcoming := List.take_length
  whole := trivial
  prod8 m := by
    have hnot : sh ≠ .u8i := by rintro rfl; cases h
    rw [if_neg hnot]
    rfl
  prod16 m := by
    have hnot : sh ∉ [Shape.u16i, .u16lei, .u16bei] := fun hmem => by
      obtain ⟨_, hslice, _⟩ := wordProducer_items hmem
      rw [hslice] at h
      cases h
    rw [if_neg hnot]
    rfl

theorem SendsFrame.of_producer8 {s : State} {len : Word} (h : len.toNat ≤ s.prod8.length) :
    SendsFrame s .u8i len (s.prod8.take len.toNat) .port8 s.pb where
  pb_kept _ _ := rfl
  length := by simp [Shape.itemSize, h]
  upcoming := by rw [List.length_take, Nat.min_eq_left h]; rfl
  whole := trivial
  prod8 _ := rfl
  prod16 _ := rfl

theorem SendsFrame.of_producer16 {s : State} {sh : Shape} (hsh : sh ∈ [Shape.u16i, .u16lei, .u16bei]) {len : Word}
    (o : ByteOrder) (h : len.toNat ≤ s.prod16.length) :
    SendsFrame s sh len (serAll o (s.prod16.take len.toNat)) (.port16 o) s.pb where
  pb_kept _ _ := rfl
  length := by
    obtain ⟨hsize, _, _⟩ := wordProducer_items hsh
    rw [serAll_length, List.length_take, Nat.min_eq_left h, Nat.mul_comm, hsize]
  upcoming := by
    rw [serAll_length, List.length_take, Nat.min_eq_left h, serAll_take]
    rfl
  whole := by rw [serAll_length]; exact Nat.mul_mod_right 2 _
  prod8 m := by
    obtain ⟨_, _, hnot⟩ := wordProducer_items hsh
    rw [if_neg hnot]
    rfl
  prod16 m := by rw [if_pos hsh]; rfl

/-- Every SENDC and SENDD whose stream is there is one transport call of that stream (R120, R124, R129). -/
theorem exec_sendsFrame (ph : Phase) {s : State} {sh : Shape} {len : Word} {stream : List Byte}
    (hfits : sh.isSlice = true → len.toNat * sh.itemSize ≤ s.cfg.pbBytes)
    (hf : frameBytes s sh len = some stream) :
    ∃ src pb, SendsFrame s sh len stream src pb ∧
      exec (transportOp ph sh len) s = conclude .hungInTransport (tcSend ph src stream.length (s.setPb pb)) := by
  have slice : sh.isSlice = true → ∃ src pb, SendsFrame s sh len stream src pb ∧
      exec (transportOp ph sh len) s = conclude .hungInTransport (tcSend ph src stream.length (s.setPb pb)) := by
    intro hsh
    obtain ⟨bytes, hread, rfl⟩ := readFrom_of_frameBytes hsh hf
    have hlen := Memory.readFrom_length hread
    rw [← sliceStream_length sh s.cfg.nativeOrder] at hlen
    refine ⟨_, _, .of_slice hsh hlen, ?_⟩
    rw [exec_slice ph hsh, sendSlice_of_read (Nat.not_lt.mpr (hfits hsh)) hread, sliceRun_eq]
    rfl
  have producer16 : ∀ o, sh ∈ [Shape.u16i, .u16lei, .u16bei] → sh.order s.cfg.nativeOrder = o →
      (if len.toNat ≤ s.prod16.length then some (serAll o (s.prod16.take len.toNat)) else none) = some stream →
      ∃ src pb, SendsFrame s sh len stream src pb ∧
        exec (transportOp ph sh len) s = conclude .hungInTransport (tcSend ph src stream.length (s.setPb pb)) := by
    intro o hsh ho hstream
    obtain ⟨hitems, hsome⟩ := Option.ite_none_right_eq_some.1 hstream
    cases hsome
    refine ⟨_, _, .of_producer16 hsh o hitems, ?_⟩
    rw [exec_producer16 ph hsh, ho, serAll_length, List.length_take, Nat.min_eq_left hitems]
    rfl
  cases sh with
  | u8 | u16 | u16le | u16be => exact slice rfl
  | u8i =>
    obtain ⟨hitems, hsome⟩ := Option.ite_none_right_eq_some.1 hf
    cases hsome
    refine ⟨_, _, .of_producer8 hitems, ?_⟩
    rw [exec_producer8, List.length_take, Nat.min_eq_left hitems]
    rfl
  | u16i => exact producer16 _ (by simp) rfl hf
  | u16lei => exact producer16 _ (by simp) rfl hf
  | u16bei => exact producer16 _ (by simp) rfl hf

/-! ### The panel's current command -/

/-- At the command level the last byte taken becomes the current command (R80). -/
theorem takeBytes_command_level (c : Config) (w h : HalfWord) (bytes : List Byte) (p : Panel) :
    (Panel.takeBytes c w h c.dcCmd bytes p).command = if bytes = [] then p.command else bytes.getLast? := by
  cases bytes using List.reverseRecOn with
  | nil => rfl
  | append_singleton bs b =>
    rw [takeBytes_append]
    simp [Panel.takeBytes, Panel.takeByte]

/-- At the data level no byte is a command (R80). -/
theorem takeBytes_command_of_data {c : Config} (hl : c.dcCmd ≠ c.dcData) (w h : HalfWord) (bytes : List Byte)
    (p : Panel) : (Panel.takeBytes c w h c.dcData bytes p).command = p.command := by
  induction bytes generalizing p with
  | nil => rfl
  | cons b bs ih =>
    have hbyte : Panel.takeByte c w h c.dcData p b = Panel.takeData b p := if_neg hl.symm
    exact (ih _).trans (by rw [hbyte, takeData_command])

/-- A SENDC or SENDD whose events are all answered `ok` gives the panel its whole stream (R63, R80). -/
theorem exec_transportOp_panel (ph : Phase) {s : State} {sh : Shape} {len : Word} {stream : List Byte}
    (hs : s.cfg.WellFormed) (hok : AllOk s) (hfits : sh.isSlice = true → len.toNat * sh.itemSize ≤ s.cfg.pbBytes)
    (hf : frameBytes s sh len = some stream) :
    ∃ t, exec (transportOp ph sh len) s = .next t ∧ t.panel = panelAfter s ph stream := by
  have hc := hs.chunk_two
  obtain ⟨src, pb, hcall, hexec⟩ := exec_sendsFrame ph hfits hf
  obtain ⟨t, hrun, _, hpanel, _⟩ :=
    tcSend_ok (s := s.setPb pb) hok (show 0 < s.cfg.chunkBytes by omega) hs.chunk_even ph hcall.enough hcall.whole
  refine ⟨t.finishSeq .ok 0, by rw [hexec, hrun]; rfl, hpanel.trans ?_⟩
  rw [hcall.upcoming]
  rfl

/-- Settles O58: the panel takes the whole stream, as commands or as data by the phase. -/
theorem commandBytesBecomeTheCommand : Obligations.CommandBytesBecomeTheCommand := by
  intro s sh len stream hs hok hfits hf
  obtain ⟨t, ht, tpanel⟩ := exec_transportOp_panel .command hs hok hfits hf
  obtain ⟨u, hu, upanel⟩ := exec_transportOp_panel .data hs hok hfits hf
  refine ⟨⟨t, ht, ?_⟩, ⟨u, hu, ?_⟩⟩
  · rw [tpanel]; exact takeBytes_command_level _ _ _ _ _
  · rw [upanel]; exact takeBytes_command_of_data hs.levels_differ _ _ _ _

end Sys2Proof.Machine
end

