-- ==== Sys2Proof/Proofs/Failures.lean ====
section
/-! PROOFS. What a failed event makes of an operation: it ends there with the status of the event (20_memory.md R62,
60_exceptions.md R250, R262), and a SENDC or SENDD with the failed chunk (40_transport_codec.md R126, R127). -/

namespace Sys2Proof.Machine

/-- Settles O55: the run of the operation ends at its first event not answered `ok`, here a failed one. -/
theorem failedEventEndsTheOperation : Obligations.FailedEventEndsTheOperation := by
  intro i s u es n draw rest st hs hu hes hn
  obtain ⟨m, r, _, hexec, hreply, hhist, hans, hkeep⟩ := exec_endsAt (a := .fail draw) nofun hs hu hes hn
  refine ⟨r.1.finishSeq st 0, hexec.trans (conclude_of_err hreply), ?_, hhist, hans, hkeep.seqMode⟩
  rw [Returns, finishSeq_seqResults, hkeep.seqResults]

/-- A transport call whose select line and first `k` chunks are answered `ok` and whose next chunk is not: it ends
there (R63, R123, R126, R127). -/
theorem tcSend_stops {s : State} (hs : s.cfg.WellFormed) {a : Answer} (ha : a ≠ .ok) {k : Nat} {rest : List Answer}
    (hans : s.answers = List.replicate (k + 1) .ok ++ a :: rest) (ph : Phase) {src : Source} {stream : List Byte}
    (hup : (src.upcoming s).take stream.length = stream) (hle : stream.length ≤ (src.upcoming s).length)
    (hw : src.Whole stream.length) (hk : k < ceilDiv stream.length s.cfg.chunkBytes) :
    ∃ t, tcSend ph src stream.length s = (t, a.reply .busWriteError) ∧
      t.history = s.history ++ .dc (s.cfg.level ph) .ok ::
        (((chunksOf s.cfg.chunkBytes stream).take k).map (fun chunk => .wr chunk .ok) ++
          [.wr ((stream.drop (k * s.cfg.chunkBytes)).take s.cfg.chunkBytes) a]) ∧
      t.panel = Panel.takeBytes s.cfg s.width s.height (s.cfg.level ph)
        (stream.take (k * s.cfg.chunkBytes) ++
          a.delivered ((stream.drop (k * s.cfg.chunkBytes)).take s.cfg.chunkBytes)) s.panel ∧
      t.dc = s.cfg.level ph ∧
      t.prod8 = (src.pull (min stream.length ((k + 1) * s.cfg.chunkBytes)) s).prod8 ∧
      t.prod16 = (src.pull (min stream.length ((k + 1) * s.cfg.chunkBytes)) s).prod16 ∧
      t.answers = rest ∧ BusOnly s t := by
  have hc := hs.chunk_two
  have hna : s.nextAnswer = .ok := by rw [State.nextAnswer, hans]; rfl
  have hline : src.upcoming (emitDc (s.cfg.level ph) s).1 = src.upcoming s := by cases src <;> rfl
  obtain ⟨t, hrun, hhist, hpanel, hdc, h8, h16, hrest, hframe⟩ :=
    writeStream_stops (s := (emitDc (s.cfg.level ph) s).1) ha (k := k) (rest := rest) (stream := stream)
      (by rw [emitDc_answers, hans]; rfl) (show 0 < s.cfg.chunkBytes by omega) hs.chunk_even
      (Nat.le_refl stream.length) (by rw [hline]; exact hup) (by rw [hline]; exact hle) hw hk
  have hlevel : (emitDc (s.cfg.level ph) s).1.dc = s.cfg.level ph := by rw [emitDc_dc, hna]; rfl
  refine ⟨t, ?_, ?_, ?_, hdc.trans hlevel, ?_, ?_, hrest, (emitDc_frame _ s).bus.trans hframe⟩
  · rw [tcSend, Run.andThen_of_ok (by rw [emitDc_reply, hna]; rfl)]
    exact hrun
  · rw [hhist, emitDc_history, hna, emitDc_cfg, List.append_assoc, List.singleton_append]
  · rw [hpanel, hlevel]; rfl
  · rw [h8]; cases src <;> rfl
  · rw [h16]; cases src <;> rfl

/-- Settles O24: the transport call of the frame stops at its chunk `k`, and the operation returns its status. -/
theorem failedChunkEndsTheCall : Obligations.FailedChunkEndsTheCall := by
  intro s ph sh len stream k draw rest hs hfits hf hk hans
  obtain ⟨src, pb, hcall, hexec⟩ := exec_sendsFrame ph hfits hf
  obtain ⟨t, hrun, hhist, hpanel, hdc, h8, h16, hrest, hframe⟩ :=
    tcSend_stops (s := s.setPb pb) hs (a := .fail draw) nofun hans ph hcall.upcoming hcall.enough hcall.whole hk
  have hret : exec (transportOp ph sh len) s = .next (t.finishSeq .busWriteError 0) := by
    rw [hexec, hrun]; rfl
  refine ⟨_, hret, ?_, hhist, hpanel, hdc, ?_, ?_, fun hle hbe => hframe.pb.trans (hcall.pb_kept hle hbe), hrest,
    { hframe.outside with }, { hframe.driver with }⟩
  · rw [Returns, finishSeq_seqResults, hframe.seqResults]; rfl
  · rw [finishSeq_prod8, h8, hcall.prod8, hcall.length]
    by_cases hsh : sh = .u8i
    · subst hsh; simp only [if_true, Shape.itemSize, Nat.mul_one]; rfl
    · rw [if_neg hsh, if_neg hsh]
  · rw [finishSeq_prod16, h16, hcall.prod16, hcall.length]
    by_cases hsh : sh ∈ [Shape.u16i, .u16lei, .u16bei]
    · obtain ⟨hsize, _, _⟩ := wordProducer_items hsh
      rw [if_pos hsh, if_pos hsh, hsize]
      congr 1
      show min (len.toNat * 2) ((k + 1) * s.cfg.chunkBytes) / 2 = _
      omega
    · rw [if_neg hsh, if_neg hsh]

end Sys2Proof.Machine
end

