-- ==== Sys2Proof/Proofs/PanelMemory.lean ====
section
/-! PROOFS. What a wire transaction makes of the panel's window and pixels (20_memory.md R80 to R83). -/

namespace Sys2Proof.Machine

/-- A transaction whose events are all answered `ok` gives the panel all its bytes (R63, R80, R97). -/
theorem transaction_panel {s t : State} {op : Byte} {args : List Byte} (hs : s.cfg.WellFormed) (hok : AllOk s)
    (ht : transaction op args s = .next t) : t.panel = takeTransaction s op args s.panel := by
  have hc := hs.chunk_two
  obtain ⟨u, hrun, _, hpanel, _⟩ := pdCommand_ok hok (by omega) op args
  rw [transaction, hrun] at ht
  cases ht
  exact hpanel

theorem endData_columns (p : Panel) : (Panel.endData p).columns = p.columns := by
  unfold Panel.endData; split <;> rfl

theorem endData_pages (p : Panel) : (Panel.endData p).pages = p.pages := by
  unfold Panel.endData; split <;> rfl

/-- Settles O50: the range arrives whole, as the panel's columns or pages. -/
theorem rangeCommandsSetThePanelsWindow : Obligations.RangeCommandsSetThePanelsWindow := by
  intro s t a b hs hok
  have pixels : s.panel.Settled → (Panel.endData s.panel).pixels = s.panel.pixels := fun hset => by
    rw [endData_of_settled hset]
  refine ⟨fun ht => ?_, fun ht => ?_⟩
  · rw [transaction_panel hs hok ht, takeTransaction_columns hs.levels_differ]
    exact ⟨rfl, endData_pages _, pixels⟩
  · rw [transaction_panel hs hok ht, takeTransaction_pages hs.levels_differ]
    exact ⟨rfl, endData_columns _, pixels⟩

/-- Settles O51: memory-write puts the cursor at the window's corner, and every pixel it stores moves it on. -/
theorem memoryWriteFillsTheWindow : Obligations.MemoryWriteFillsTheWindow := by
  intro s t x0 x1 y0 y1 pixels hs hok hset hcol hpage hx hxw hy hyh hlen ht
  rw [transaction_panel hs hok ht]
  exact takeTransaction_memoryWrite hs.levels_differ hset hcol hpage hx hxw hy hyh hlen

/-! ### The opcodes without pixel data -/

/-- A panel with no half pixel pending, at its new current command (R80). -/
def Panel.commanded (op : Byte) (p : Panel) : Panel := { p with command := some op, args := [] }

theorem takeTransaction_noData {s : State} (hl : s.cfg.dcCmd ≠ s.cfg.dcData) (op : Byte) {p : Panel}
    (h : p.Settled) : takeTransaction s op [] p = Panel.obey s.width s.height op (p.commanded op) := by
  rw [takeTransaction_eq hl, List.foldl_nil, Panel.takeCommand, beginCommand_of_settled op h]
  rfl

/-- The argument byte of the three commands that take one is no pixel (R83, R96). -/
theorem takeTransaction_argument_pixels {s : State} (hl : s.cfg.dcCmd ≠ s.cfg.dcData) {op : Byte}
    (hop : op ∈ [opcMemoryAccessControl, opcPixelFormat, opcBrightness]) (b : Byte) {p : Panel} (h : p.Settled) :
    (takeTransaction s op [b] p).pixels = p.pixels := by
  have hsplit : takeTransaction s op [b] p = Panel.takeData b (takeTransaction s op [] p) := by
    rw [takeTransaction_eq hl, takeTransaction_eq hl]
    rfl
  rw [hsplit, takeTransaction_noData hl op h]
  simp only [List.mem_cons, List.not_mem_nil, or_false] at hop
  rcases hop with rfl | rfl | rfl
  · rw [obey_memoryAccessControl]; rfl
  · rw [obey_pixelFormat]; rfl
  · rw [obey_brightness]; rfl

/-- Settles O52: at each opcode the panel keeps its pixels, or what a test bench assumes of them. -/
theorem otherOpcodesChangeNoPixel : Obligations.OtherOpcodesChangeNoPixel := by
  intro s t b hs hok hset
  have hl := hs.levels_differ
  have noData : ∀ op, transaction op [] s = .next t →
      t.panel = Panel.obey s.width s.height op (s.panel.commanded op) := fun op ht => by
    rw [transaction_panel hs hok ht, takeTransaction_noData hl op hset]
  have argument : ∀ op ∈ [opcMemoryAccessControl, opcPixelFormat, opcBrightness],
      transaction op [b] s = .next t → t.panel.pixels = s.panel.pixels := fun op hop ht => by
    rw [transaction_panel hs hok ht, takeTransaction_argument_pixels hl hop b hset]
  refine ⟨fun i hi ht => ?_, fun ht => ?_, fun ht => ?_, fun ht => ?_⟩
  · simp only [List.mem_cons, List.not_mem_nil, or_false] at hi
    rcases hi with rfl | rfl | rfl | rfl | rfl | rfl | rfl
    · rw [noData opcDisplayOff ht, obey_displayOff]; rfl
    · rw [noData opcDisplayOn ht, obey_displayOn]; rfl
    · rw [noData opcInvertOff ht, obey_invertOff]; rfl
    · rw [noData opcInvertOn ht, obey_invertOn]; rfl
    · exact argument _ (by simp) ht
    · exact argument _ (by simp) ht
    · exact argument _ (by simp) ht
  · rw [noData opcSoftwareReset ht, obey_softwareReset]; rfl
  · rw [noData opcSleepOn ht, obey_sleepOn]
    exact slept_pixels _
  · rw [noData opcSleepOff ht, obey_sleepOff]
    show (if s.panel.asleep = some true then (s.panel.commanded opcSleepOff).slept
      else s.panel.commanded opcSleepOff).pixels = _
    by_cases hasleep : s.panel.asleep = some true
    · rw [if_pos hasleep, slept_pixels]
      show (if s.panel.bench.keepsAsleep then s.panel.pixels else []) = _
      cases s.panel.bench.keepsAsleep <;> simp [hasleep]
    · rw [if_neg hasleep, if_neg fun h => hasleep h.1]
      rfl

end Sys2Proof.Machine
end

