-- ==== Sys2Proof/Proofs/PayloadBuffer.lean ====
section
/-! PROOFS. HOST's writes and reads of `PB` (20_memory.md R64, R68, 10_state.md R38), and what it reads there after a
converting slice (40_transport_codec.md R122). -/

namespace Sys2Proof.Machine

/-! ### The step that takes HOST's access -/

/-- The first input is taken when it can be (R93). -/
theorem step_of_acceptable {s : State} {input : Input} {rest : List Input} (hin : s.inputs = input :: rest)
    (h : acceptable s.seqMode input = true) : step s = (take input { s with inputs := rest }).outcome := by
  have htake : takeInput s.seqMode s.inputs = some (input, rest) := by rw [hin, takeInput, if_pos h]
  rw [step_eq, fetch, htake]

/-- The only input cannot be taken, so the block waits (R93). -/
theorem step_of_waiting {s : State} {input : Input} (hin : s.inputs = [input])
    (h : acceptable s.seqMode input = false) : step s = .next s := by
  have htake : takeInput s.seqMode s.inputs = none := by rw [hin, takeInput, h]; rfl
  rw [step_eq, fetch, htake]
  rfl

/-! ### Writes -/

/-- A HOST write puts its bytes into `PB` and nothing else, or faults beyond it (R64). -/
theorem hostWrote_of_step {s : State} {rest : List Input} {i : Nat} {bytes : List Byte}
    (h : step s = hostWrite i bytes { s with inputs := rest }) : HostWrote s rest i bytes := by
  refine ⟨fun hfits => ?_, fun hbeyond => ?_⟩
  · refine ⟨{ s with inputs := rest, pb := Memory.writeFrom s.pb i bytes }, ?_, Memory.readFrom_writeFrom _ _ _,
      fun a ha => ?_, rfl⟩
    · rw [h, hostWrite, if_neg (Nat.not_lt.mpr hfits)]
    · show Memory.read (Memory.writeFrom s.pb i bytes) a = _
      rw [Memory.read_writeFrom, if_neg (by omega)]
  · rw [h, hostWrite, if_pos hbeyond]

/-- Words that lie serialised in `PB` from word `i` on are what the native word view shows there (R64, R68). -/
theorem word_of_serialised {o p : ByteOrder} {m : Memory Byte} {i : Nat} {ws : List HalfWord}
    (h : Memory.readFrom m (2 * i) (2 * ws.length) = some (serAll p ws)) {k : Nat} {v : HalfWord}
    (hk : ws[k]? = some v) : Memory.word o m (i + k) = some (if o = p then v else bswap16 v) := by
  obtain ⟨hlt, _⟩ := List.getElem?_eq_some_iff.1 hk
  have hwords : Memory.words p m i ws.length = some ws := Memory.words_of_readFrom rfl h
  have hword : Memory.word p m (i + k) = some v := (Memory.word_of_words hwords hlt).trans hk
  exact Memory.word_of_readFrom o (Memory.readFrom_of_word hword)

/-- Settles O27: the step that takes the write is HOST's write, and its words are read back as they were. -/
theorem hostWritesThePayloadBuffer : Obligations.HostWritesThePayloadBuffer := by
  intro s rest i hmode
  have hfree : (s.seqMode != .hungInTransport) = true := bne_iff_ne.2 hmode
  refine ⟨fun bytes hin => hostWrote_of_step (step_of_acceptable hin hfree), fun words hin => ?_⟩
  have hwrote : HostWrote s rest (2 * i) (serAll s.cfg.nativeOrder words) :=
    hostWrote_of_step (step_of_acceptable hin hfree)
  refine ⟨hwrote, fun t ht k v hk => ?_⟩
  by_cases hfits : 2 * i + (serAll s.cfg.nativeOrder words).length ≤ s.cfg.pbBytes
  · obtain ⟨u, hu, hread, _, _⟩ := hwrote.1 hfits
    obtain rfl : u = t := by rw [hu] at ht; cases ht; rfl
    rw [serAll_length] at hread
    rw [word_of_serialised hread hk, if_pos rfl]
  · rw [hwrote.2 (Nat.lt_of_not_le hfits)] at ht
    cases ht

/-! ### Reads -/

theorem hostReadBytes_of_beyond {s : State} {i n : Nat} (h : s.cfg.pbBytes < i + n) :
    hostReadBytes i n s = .fault .payloadAddress := if_pos h

theorem hostReadBytes_of_read {s : State} {i n : Nat} {l : List Byte} (h : i + n ≤ s.cfg.pbBytes)
    (hr : Memory.readFrom s.pb i n = some l) :
    hostReadBytes i n s = .next { s with hostReads := s.hostReads ++ [.bytes i l] } := by
  rw [hostReadBytes, if_neg (Nat.not_lt.mpr h), hr]

theorem hostReadBytes_of_unwritten {s : State} {i n : Nat} (h : i + n ≤ s.cfg.pbBytes)
    (hr : Memory.readFrom s.pb i n = none) : hostReadBytes i n s = .fault .payloadUnwritten := by
  rw [hostReadBytes, if_neg (Nat.not_lt.mpr h), hr]

theorem hostReadWords_of_beyond {s : State} {i n : Nat} (h : s.cfg.pbBytes < 2 * i + 2 * n) :
    hostReadWords i n s = .fault .payloadAddress := if_pos h

theorem hostReadWords_of_read {s : State} {i n : Nat} {l : List HalfWord} (h : 2 * i + 2 * n ≤ s.cfg.pbBytes)
    (hr : Memory.words s.cfg.nativeOrder s.pb i n = some l) :
    hostReadWords i n s = .next { s with hostReads := s.hostReads ++ [.words i l] } := by
  rw [hostReadWords, if_neg (Nat.not_lt.mpr h), hr]

theorem hostReadWords_of_unwritten {s : State} {i n : Nat} (h : 2 * i + 2 * n ≤ s.cfg.pbBytes)
    (hr : Memory.words s.cfg.nativeOrder s.pb i n = none) : hostReadWords i n s = .fault .payloadUnwritten := by
  rw [hostReadWords, if_neg (Nat.not_lt.mpr h), hr]

/-- Consecutive words of the view. -/
theorem words_eq_some {o : ByteOrder} {m : Memory Byte} {i : Nat} {ws : List HalfWord}
    (h : ∀ k v, ws[k]? = some v → Memory.word o m (i + k) = some v) : Memory.words o m i ws.length = some ws := by
  induction ws generalizing i with
  | nil => rfl
  | cons w ws ih =>
    have hfirst : Memory.word o m i = some w := h 0 w rfl
    have hrest : Memory.words o m (i + 1) ws.length = some ws := ih fun k v hk => by
      rw [Nat.add_assoc, Nat.add_comm 1 k]
      exact h (k + 1) v hk
    rw [List.length_cons, Memory.words, hfirst, hrest]

/-- A byte without a value is under no words of the view (R38). -/
theorem words_eq_none {o : ByteOrder} {m : Memory Byte} {i n a : Nat} (h1 : 2 * i ≤ a) (h2 : a < 2 * i + 2 * n)
    (h : Memory.read m a = none) : Memory.words o m i n = none := by
  cases hw : Memory.words o m i n with
  | none => rfl
  | some ws =>
    have hread := Memory.readFrom_of_words hw
    rw [Memory.readFrom_none h1 h2 h] at hread
    cases hread

/-- Settles O59: the step that takes the read is HOST's read, and a locked `PB` lets it wait. -/
theorem hostReadsThePayloadBuffer : Obligations.HostReadsThePayloadBuffer := by
  refine ⟨fun s rest i n hmode hin => ?_, fun s rest i n hmode hin => ?_, fun s i n hmode hin => ?_⟩
  · have hfree : (s.seqMode != .hungInTransport) = true := bne_iff_ne.2 hmode
    have hstep : step s = hostReadBytes i n { s with inputs := rest } := step_of_acceptable hin hfree
    rw [hstep]
    exact ⟨fun l hfits hr => hostReadBytes_of_read hfits hr,
      fun a hfits h1 h2 hnone => hostReadBytes_of_unwritten hfits (Memory.readFrom_none h1 h2 hnone),
      fun hbeyond => hostReadBytes_of_beyond hbeyond⟩
  · have hfree : (s.seqMode != .hungInTransport) = true := bne_iff_ne.2 hmode
    have hstep : step s = hostReadWords i n { s with inputs := rest } := step_of_acceptable hin hfree
    rw [hstep]
    refine ⟨fun l hfits hn hl => hostReadWords_of_read hfits ?_,
      fun a hfits h1 h2 hnone => hostReadWords_of_unwritten hfits (words_eq_none h1 h2 hnone),
      fun hbeyond => hostReadWords_of_beyond hbeyond⟩
    rw [← hn]
    refine words_eq_some fun k v hk => ?_
    rw [Memory.word_of_readFrom s.cfg.nativeOrder (hl k v hk), if_pos rfl]
  · rcases hin with hin | hin
    · exact step_of_waiting hin (by rw [hmode]; rfl)
    · exact step_of_waiting hin (by rw [hmode]; rfl)

/-! ### Reading back a converted slice -/

/-- Every even number of bytes is a list of words, serialised (R14, R124). -/
theorem exists_serAll (o : ByteOrder) : ∀ (n : Nat) (bytes : List Byte), bytes.length = 2 * n →
    ∃ ws : List HalfWord, ws.length = n ∧ serAll o ws = bytes
  | 0, bytes, h => ⟨[], rfl, (List.length_eq_zero_iff.1 h).symm⟩
  | n + 1, a :: b :: rest, h => by
    obtain ⟨ws, hn, hws⟩ := exists_serAll o n rest (by simp only [List.length_cons] at h; omega)
    refine ⟨word16 o a b :: ws, by rw [List.length_cons, hn], ?_⟩
    rw [serAll_cons, ser16_word16, hws]
    rfl
  | n + 1, [_], h => by simp only [List.length_singleton] at h; omega

/-- What lies in `PB` after a slice was sent, whatever ENV answered: the bytes that were to be sent (R122). -/
theorem readFrom_slicePb {s : State} {n : Nat} {bytes : List Byte} (sh : Shape)
    (hread : Memory.readFrom s.pb 0 n = some bytes) :
    Memory.readFrom (slicePb sh (sliceStream sh s.cfg.nativeOrder bytes) s) 0 n =
      some (sliceStream sh s.cfg.nativeOrder bytes) := by
  have hlen := Memory.readFrom_length hread
  rw [← sliceStream_length sh s.cfg.nativeOrder] at hlen
  by_cases h : sh.converts s.cfg.nativeOrder = true
  · rw [slicePb, if_pos h, ← hlen]
    exact Memory.readFrom_writeFrom _ _ _
  · rw [slicePb, if_neg h, hread, sliceStream, if_neg h]

/-- A slice operation that was admitted leaves the bytes it was to send in `PB`. -/
theorem exec_slice_pb {ph : Phase} {sh : Shape} (hsh : sh.isSlice = true) {len : Word} {s t : State}
    (hfits : len.toNat * sh.itemSize ≤ s.cfg.pbBytes) (ht : exec (transportOp ph sh len) s = .next t) :
    ∃ bytes, Memory.readFrom s.pb 0 (len.toNat * sh.itemSize) = some bytes ∧
      t.pb = slicePb sh (sliceStream sh s.cfg.nativeOrder bytes) s := by
  have hshort := Nat.not_lt.mpr hfits
  rw [exec_slice ph hsh] at ht
  cases hread : Memory.readFrom s.pb 0 (len.toNat * sh.itemSize) with
  | none =>
    rw [sendSlice_of_unwritten hshort hread] at ht
    cases ht
  | some bytes =>
    rw [sendSlice_of_read hshort hread, sliceRun_eq] at ht
    refine ⟨bytes, rfl, ?_⟩
    rw [conclude_keeps ht]
    exact (sendBytes_frame _ _ _).bus.pb

/-- A word of a slice of words, read back natively: itself, or its bytes exchanged when the shape's order is not the
native one (R68, R122). -/
theorem exec_slice_word {ph : Phase} {sh : Shape} (hsh : sh.isSlice = true) (hsize : sh.itemSize = 2) {len : Word}
    {s t : State} {i : Nat} {v : HalfWord} (hfits : 2 * len.toNat ≤ s.cfg.pbBytes) (hi : i < len.toNat)
    (hv : Memory.word s.cfg.nativeOrder s.pb i = some v) (ht : exec (transportOp ph sh len) s = .next t) :
    Memory.word s.cfg.nativeOrder t.pb i =
      some (if s.cfg.nativeOrder = sh.order s.cfg.nativeOrder then v else bswap16 v) := by
  obtain ⟨bytes, hread, hpb⟩ := exec_slice_pb hsh (by rw [hsize]; omega) ht
  rw [hsize, Nat.mul_comm] at hread
  obtain ⟨ws, hn, rfl⟩ := exists_serAll s.cfg.nativeOrder _ bytes (Memory.readFrom_length hread)
  have hafter := readFrom_slicePb sh hread
  rw [← hpb, sliceStream_serAll hsh, ← hn] at hafter
  rw [← hn] at hread hi
  have hold := word_of_serialised (i := 0) (o := s.cfg.nativeOrder) hread (List.getElem?_eq_getElem hi)
  have hnew := word_of_serialised (i := 0) (o := s.cfg.nativeOrder) hafter (List.getElem?_eq_getElem hi)
  rw [Nat.zero_add, hv, if_pos rfl, Option.some.injEq] at hold
  rw [Nat.zero_add, ← hold] at hnew
  exact hnew

/-- Settles O57: both phases leave the same `PB`, and the shapes differ in their order alone. -/
theorem nativeReadBackAfterConversion : Obligations.NativeReadBackAfterConversion := by
  intro s t len i v hfits hi hv
  have readBack : ∀ ph {sh : Shape}, sh.isSlice = true → sh.itemSize = 2 →
      exec (transportOp ph sh len) s = .next t →
      Memory.word s.cfg.nativeOrder t.pb i =
        some (if s.cfg.nativeOrder = sh.order s.cfg.nativeOrder then v else bswap16 v) :=
    fun _ _ hsh hsize ht => exec_slice_word hsh hsize hfits hi hv ht
  refine ⟨fun ht => ?_, fun ht => ?_⟩
  · exact ht.elim (readBack .command (sh := .u16le) rfl rfl) (readBack .data (sh := .u16le) rfl rfl)
  · exact ht.elim (readBack .command (sh := .u16be) rfl rfl) (readBack .data (sh := .u16be) rfl rfl)

end Sys2Proof.Machine
end

