-- ==== Sys2Proof/Proofs/Encoding.lean ====
section
/-! PROOFS. The decoder's rows, one equation each (30_encoding.md R92, R94 to R98, R103), and from them what it makes of
encoded operations, of every operand and of words written out. -/

namespace Sys2Proof

/-! ### The host's rows -/

/-- Every `OP` of SENDC and SENDD, the reserved shape codes included, is its row's operation (R94, R95 (1), R103). -/
theorem decodeFields_transport {row : Byte × (Word → Instr)} (h : row ∈ transportRows) (a0 a1 a2 a3 : HalfWord) :
    decodeFields row.1 a0 a1 a2 a3 = .ok (row.2 (lenOperand a0 a1)) := by
  unfold transportRows at h
  fin_cases h <;> rfl

section
variable (a0 a1 a2 a3 : HalfWord)

theorem decodeFields_init :
    decodeFields 0x30 a0 a1 a2 a3 = .ok (.init (orientationOperand a0)) := rfl
theorem decodeFields_setwin : decodeFields 0x31 a0 a1 a2 a3 = .ok (.setwin a0 a1 a2 a3) := rfl
theorem decodeFields_wrpix : decodeFields 0x32 a0 a1 a2 a3 = .ok (.wrpix a0 a1 a2) := rfl
theorem decodeFields_clear : decodeFields 0x33 a0 a1 a2 a3 = .ok (.clear a0) := rfl
theorem decodeFields_flush : decodeFields 0x34 a0 a1 a2 a3 = .ok .flush := rfl
theorem decodeFields_bright :
    decodeFields 0x35 a0 a1 a2 a3 = .ok (.bright (brightnessOperand a0)) := rfl
theorem decodeFields_sleep : decodeFields 0x36 a0 a1 a2 a3 = .ok (.sleep (modeOperand a0)) := rfl
theorem decodeFields_display : decodeFields 0x37 a0 a1 a2 a3 = .ok (.display (modeOperand a0)) := rfl
theorem decodeFields_invert : decodeFields 0x38 a0 a1 a2 a3 = .ok (.invert (modeOperand a0)) := rfl
theorem decodeFields_setori :
    decodeFields 0x39 a0 a1 a2 a3 = .ok (.setori (orientationOperand a0)) := rfl
theorem decodeFields_getw : decodeFields 0x3A a0 a1 a2 a3 = .ok .getw := rfl
theorem decodeFields_geth : decodeFields 0x3B a0 a1 a2 a3 = .ok .geth := rfl
theorem decodeFields_poll : decodeFields 0x40 a0 a1 a2 a3 = .ok .poll := rfl

end

/-- The orientation whose code `A0[1:0]` holds (R26, R92). -/
theorem orientationOperand_of_code {v : Orientation} {a0 : HalfWord} (h : orientationCode v = a0.extractLsb' 0 2) :
    orientationOperand a0 = v := by
  unfold orientationOperand
  rw [← h]
  cases v <;> rfl

/-- Settles O3: each `OP` decodes by its row's equation, which names the fields its operands come from. -/
theorem operandsComeFromTheirFields : Obligations.OperandsComeFromTheirFields := by
  intro a0 a1 a2 a3
  simp only [decodeCommand_commandWord]
  refine ⟨fun row hrow => decodeFields_transport hrow a0 a1 a2 a3, fun v hv => ?_, ?rest⟩
  · rw [decodeFields_init, decodeFields_setori, orientationOperand_of_code hv]
    exact ⟨rfl, rfl⟩
  case rest =>
    exact ⟨decodeFields_setwin .., decodeFields_wrpix .., decodeFields_clear .., decodeFields_flush ..,
      decodeFields_bright .., decodeFields_sleep .., decodeFields_display .., decodeFields_invert ..,
      decodeFields_getw .., decodeFields_geth .., decodeFields_poll ..⟩

/-! ### The wire's rows -/

/-- A range goes over the wire big-endian and is read back so (R98). -/
theorem wireRange_halves (i : HalfWord → HalfWord → Instr) (a b : HalfWord) :
    wireRange i (wireHalf a ++ wireHalf b) = .ok (i a b) := by
  show Except.ok (i (a.extractLsb' 8 8 ++ a.extractLsb' 0 8) (b.extractLsb' 8 8 ++ b.extractLsb' 0 8)) = _
  rw [wireHalf_join, wireHalf_join]

/-- As many pixels as a frame's length admits are read back from the wire (R92, R98). -/
theorem wirePixelData_halves {pixels : List HalfWord} (h : pixels.length < 2 ^ 32) :
    wirePixelData (pixels.flatMap wireHalf) = .ok (.wireMemoryWrite pixels) := by
  rw [wirePixelData, wirePixels_flatMap]
  exact if_pos h

/-! ### Decoding what the encoder writes -/

/-- The length of a SENDC or SENDD is read back from `A0` and `A1` (R92). -/
theorem decode_lenCommand {op : Byte} {i : Word → Instr} (h : (op, i) ∈ transportRows) (len : Word) :
    decode (lenCommand op len) = .ok (i len) := by
  show decodeCommand (commandWord op (len.extractLsb' 0 16) (len.extractLsb' 16 16) 0 0) = _
  rw [decodeCommand_commandWord, decodeFields_transport h, lenOperand_halves]

/-- A command word decodes by its fields (R90). -/
theorem decode_commandWord (op : Byte) (a0 a1 a2 a3 : HalfWord) :
    decode (.command (commandWord op a0 a1 a2 a3)) = decodeFields op a0 a1 a2 a3 :=
  decodeCommand_commandWord op a0 a1 a2 a3

/-- Settles O1: each row's equation, with its operands read back from the fields the encoder put them in. -/
theorem decodeInvertsEncode : Obligations.DecodeInvertsEncode := by
  intro i hi
  cases i with
  | sendcU8 len | sendcU16 len | sendcU16le len | sendcU16be len | sendcU8i len | sendcU16i len | sendcU16lei len
  | sendcU16bei len | senddU8 len | senddU16 len | senddU16le len | senddU16be len | senddU8i len | senddU16i len
  | senddU16lei len | senddU16bei len | sendcReserved8 len | sendcReserved9 len | sendcReserved10 len
  | sendcReserved11 len | sendcReserved12 len | sendcReserved13 len | sendcReserved14 len | sendcReserved15 len
  | senddReserved8 len | senddReserved9 len | senddReserved10 len | senddReserved11 len | senddReserved12 len
  | senddReserved13 len | senddReserved14 len | senddReserved15 len =>
    exact decode_lenCommand (by simp [transportRows]) len
  | init v => rw [encode, decode_commandWord, decodeFields_init, orientationOperand_field]
  | setwin x0 y0 x1 y1 => rw [encode, decode_commandWord, decodeFields_setwin]
  | wrpix x y color => rw [encode, decode_commandWord, decodeFields_wrpix]
  | clear color => rw [encode, decode_commandWord, decodeFields_clear]
  | flush => rw [encode, decode_commandWord, decodeFields_flush]
  | bright value => rw [encode, decode_commandWord, decodeFields_bright, brightnessOperand_setWidth]
  | sleep mode => rw [encode, decode_commandWord, decodeFields_sleep, modeOperand_setWidth]
  | display mode => rw [encode, decode_commandWord, decodeFields_display, modeOperand_setWidth]
  | invert mode => rw [encode, decode_commandWord, decodeFields_invert, modeOperand_setWidth]
  | setori v => rw [encode, decode_commandWord, decodeFields_setori, orientationOperand_field]
  | getw => rw [encode, decode_commandWord, decodeFields_getw]
  | geth => rw [encode, decode_commandWord, decodeFields_geth]
  | poll => rw [encode, decode_commandWord, decodeFields_poll]
  | wireSoftwareReset | wireSleepOn | wireSleepOff | wireInvertOff | wireInvertOn | wireDisplayOff
  | wireDisplayOn => rfl
  | wireColumnRange a b | wirePageRange a b => exact wireRange_halves _ a b
  | wireMemoryWrite pixels => exact wirePixelData_halves hi
  | wireMemoryAccessControl b | wirePixelFormat b | wireBrightness b => rfl

/-! ### Words written out -/

/-- A word decodes by the fields it is made of (R90). -/
theorem decodeCommand_of_fields {cw : CommandWord} (op : Byte) (a0 a1 a2 a3 : HalfWord)
    (h : cw = commandWord op a0 a1 a2 a3) : decodeCommand cw = decodeFields op a0 a1 a2 a3 := by
  rw [h, decodeCommand_commandWord]

/-- Settles O2: each word's fields, and the equation of its row. -/
theorem specWordsDecodeAsWritten : Obligations.SpecWordsDecodeAsWritten := by
  refine ⟨?_, ?_, ?_, ?_, ?_, ?_, ?_, ?_⟩
  · exact (decodeCommand_of_fields 0x10 1 0 0 0 (by decide)).trans
      (decodeFields_transport (row := (0x10, .sendcU8)) (by simp [transportRows]) ..)
  · exact (decodeCommand_of_fields 0x24 0x1170 1 0 0 (by decide)).trans
      (decodeFields_transport (row := (0x24, .senddU8i)) (by simp [transportRows]) ..)
  · exact (decodeCommand_of_fields 0x18 0xFFFF 0xFFFF 0 0 (by decide)).trans
      (decodeFields_transport (row := (0x18, .sendcReserved8)) (by simp [transportRows]) ..)
  · exact (decodeCommand_of_fields 0x30 3 0 0 0 (by decide)).trans (decodeFields_init ..)
  · exact (decodeCommand_of_fields 0x31 1 2 3 4 (by decide)).trans (decodeFields_setwin ..)
  · exact (decodeCommand_of_fields 0x36 0xFFFE 0x1111 0x2222 0x3333 (by decide)).trans (decodeFields_sleep ..)
  · exact (decodeCommand_of_fields 0x40 0 0 0 0 (by decide)).trans (decodeFields_poll ..)
  · exact wireRange_halves .wireColumnRange 1 0x0102

end Sys2Proof
end

