-- ==== Sys2Proof/Proofs/Chunks.lean ====
section
/-! PROOFS. The arithmetic of chunk framing (30_encoding.md R99, 40_transport_codec.md R125, R138). -/

namespace Sys2Proof.Machine

/-- Chunk `k` exists exactly when the stream has a byte at its start (R99). -/
theorem lt_ceilDiv_iff {c : Nat} (hc : 0 < c) (n k : Nat) : k < ceilDiv n c ↔ k * c < n := by
  have hle : n ⌈/⌉ c ≤ k ↔ n ≤ c * k := ceilDiv_le_iff_le_mul hc
  rw [show ceilDiv n c = n ⌈/⌉ c from rfl, ← not_le, hle, not_le, Nat.mul_comm]

theorem chunksOf_length (c : Nat) (l : List Byte) : (chunksOf c l).length = ceilDiv l.length c := by
  simp [chunksOf]

/-- Chunk `k` is the stream's next `c` bytes from byte `k*c` (R99). -/
theorem chunksOf_getElem? {c k : Nat} {l : List Byte} (hk : k < ceilDiv l.length c) :
    (chunksOf c l)[k]? = some ((l.drop (k * c)).take c) := by
  simp [chunksOf, hk]

theorem mem_chunksOf_iff {c : Nat} (hc : 0 < c) {l chunk : List Byte} :
    chunk ∈ chunksOf c l ↔ ∃ k, k * c < l.length ∧ (l.drop (k * c)).take c = chunk := by
  simp [chunksOf, lt_ceilDiv_iff hc]

theorem length_chunk (c k : Nat) (l : List Byte) :
    ((l.drop (k * c)).take c).length = min c (l.length - k * c) := by
  rw [List.length_take, List.length_drop]

/-- The chunks join to the stream (R99): the first chunk and what is left of the stream after it. -/
theorem chunksOf_flatten {c : Nat} (hc : 0 < c) (l : List Byte) : (chunksOf c l).flatten = l := by
  by_cases hl : l = []
  · rw [hl, chunksOf_nil c hc, List.flatten_nil]
  · rw [chunksOf_step hc hl, List.flatten_cons, chunksOf_flatten hc (l.drop c), List.take_append_drop]
termination_by l.length
decreasing_by
  have hpos : 0 < l.length := List.length_pos_iff.2 hl
  rw [List.length_drop]
  omega

/-- Every chunk but the last is full: the next one has a first byte (R99, R125). -/
theorem length_chunk_of_next {c : Nat} (hc : 0 < c) {l : List Byte} {k : Nat} (hk : k + 1 < ceilDiv l.length c) :
    ((l.drop (k * c)).take c).length = c := by
  have hnext : (k + 1) * c < l.length := (lt_ceilDiv_iff hc _ _).1 hk
  rw [length_chunk]
  rw [Nat.succ_mul] at hnext
  omega

/-- A chunk is neither empty nor longer than `c` (R62, R99). -/
theorem length_of_mem_chunksOf {c : Nat} (hc : 0 < c) {l chunk : List Byte} (h : chunk ∈ chunksOf c l) :
    1 ≤ chunk.length ∧ chunk.length ≤ c := by
  obtain ⟨k, hk, rfl⟩ := (mem_chunksOf_iff hc).1 h
  rw [length_chunk]
  omega

/-- Even chunks of an even stream split no 16-bit word (R69, R99). -/
theorem even_length_of_mem_chunksOf {c : Nat} (hc : 0 < c) (heven : c % 2 = 0) {l chunk : List Byte}
    (hl : l.length % 2 = 0) (h : chunk ∈ chunksOf c l) : chunk.length % 2 = 0 := by
  obtain ⟨k, _, rfl⟩ := (mem_chunksOf_iff hc).1 h
  have hstart : k * c % 2 = 0 := by rw [Nat.mul_mod, heven, Nat.mul_zero, Nat.zero_mod]
  rw [length_chunk]
  omega

/-- Settles O26: chunk `k` is the stream from byte `k*c` on, and there is one exactly when that byte exists. -/
theorem chunksCutTheStream : Obligations.ChunksCutTheStream := by
  intro c l hc
  refine ⟨chunksOf_flatten hc l, chunksOf_length c l, fun k hk => ?_, fun _ => length_of_mem_chunksOf hc,
    ⟨fun h => ?_, fun h => ?_⟩, fun heven hl _ => even_length_of_mem_chunksOf hc heven hl⟩
  · rw [chunksOf_length] at hk
    exact ⟨_, chunksOf_getElem? (by omega), length_chunk_of_next hc hk⟩
  · rw [← chunksOf_flatten hc l, h, List.flatten_nil]
  · rw [h, chunksOf_nil c hc]

end Sys2Proof.Machine
end

