-- ==== Sys2Proof/Proofs/Transactions.lean ====
section
/-! PROOFS. A wire transaction that is answered `ok` throughout (30_encoding.md R96 to R98). -/

namespace Sys2Proof.Machine

/-- A transaction whose events are all answered `ok` completes, and only the bus and its bookkeeping changed (R97). -/
theorem transaction_completes {s : State} (hs : s.cfg.WellFormed) (hok : AllOk s) (op : Byte) (args : List Byte) :
    ∃ t, transaction op args s = .next t ∧ Transacted s t op args ∧ KeepsDriver s t := by
  have hc := hs.chunk_two
  obtain ⟨u, hrun, hhistory, hpanel, hdc, hstaging, _, hframe⟩ := pdCommand_ok hok (by omega) op args
  obtain ⟨⟨outside, driver, hpb, hmode, hresults⟩, hprod8, hprod16⟩ := hframe
  refine ⟨u.finishSeq .ok 0, ?_, ⟨?_, hdc⟩,
    ⟨driver.pd, driver.orient, driver.win, driver.cur, driver.snt, driver.rstN⟩⟩
  · rw [transaction, hrun, conclude_of_ok rfl]
  · exact {
      history := hhistory
      panel := hpanel
      staging := hstaging
      result := by simp [Returns, hresults]
      outside := outside.trans (finishSeq_keepsOutside .ok 0 u)
      payload := ⟨hpb, hprod8, hprod16⟩
      seqMode := hmode }

/-- Settles O49: every wire operation is the transaction of its opcode and data bytes. -/
theorem wireTransactionsComplete : Obligations.WireTransactionsComplete := by
  intro s hs hok
  have complete := transaction_completes hs hok
  refine ⟨fun i op h => ?_, fun a b => ⟨complete 0x2A (rangeBytes a b), complete 0x2B (rangeBytes a b)⟩,
    fun pixels => complete 0x2C (serAll .be pixels),
    fun b => ⟨complete 0x36 [b], complete 0x3A [b], complete 0x51 [b]⟩⟩
  simp only [List.mem_cons, List.not_mem_nil, or_false, Prod.mk.injEq] at h
  rcases h with ⟨rfl, rfl⟩ | ⟨rfl, rfl⟩ | ⟨rfl, rfl⟩ | ⟨rfl, rfl⟩ | ⟨rfl, rfl⟩ | ⟨rfl, rfl⟩ |
    ⟨rfl, rfl⟩ <;> exact complete _ []

end Sys2Proof.Machine
end

