-- ==== Sys2Proof/Proofs/Ports.lean ====
section
/-! PROOFS. The step that takes an operation on the port that executes it (30_encoding.md R93). -/

namespace Sys2Proof.Machine

/-- `SEQ_CMD` executes every operation of a command word but POLL (R93). -/
theorem fetchSeq_of_decode {cw : CommandWord} {i : Instr} (h : decodeCommand cw = .ok i) (hi : i ≠ .poll)
    (s : State) : fetchSeq cw s = .run i s := by
  have hport : portOf i = .seqCmd := by rw [portOf_of_decodeCommand h, if_neg hi]
  simp [fetchSeq, h, hport]

/-- `QDA_CMD` executes POLL (R93). -/
theorem fetchQda_of_decode {cw : CommandWord} (h : decodeCommand cw = .ok .poll) (s : State) :
    fetchQda cw s = .run .poll s := by
  have hport : portOf .poll = .qdaCmd := rfl
  simp [fetchQda, h, hport]

theorem fetchWire_of_decode {bytes : List Byte} {i : Instr} (h : decodeWire bytes = .ok i) (s : State) :
    fetchWire bytes s = .run i s := by
  simp [fetchWire, h]

/-- A step runs the operation of the input it takes. -/
theorem step_of_run {s t : State} {input : Input} {rest : List Input} {i : Instr} (hin : s.inputs = input :: rest)
    (ha : acceptable s.seqMode input = true) (hrun : take input { s with inputs := rest } = .run i t) :
    step s = exec i t := by
  rw [step_of_acceptable hin ha, hrun, Fetched.outcome]

/-- Settles O4: an idle SEQ takes the input, QDA always does, and the port runs what the decoder reads. -/
theorem stepRunsTheDecodedOperation : Obligations.StepRunsTheDecodedOperation := by
  refine ⟨fun s rest cw i hin hidle hdec hi => ?_, fun s rest cw hin hdec => ?_,
    fun s rest bytes i hin hidle hdec => ?_⟩
  · exact step_of_run hin (by rw [hidle]; rfl) (fetchSeq_of_decode hdec hi _)
  · exact step_of_run hin rfl (fetchQda_of_decode hdec _)
  · exact step_of_run hin (by rw [hidle]; rfl) (fetchWire_of_decode hdec _)

end Sys2Proof.Machine
end

