-- ==== Sys2Proof/Proofs/Codec.lean ====
section
/-! PROOFS. SENDC and SENDD in every shape: what they send and leave when every event is answered `ok`
(40_transport_codec.md R130 to R137), the conversion that ENV cannot cut short (R122, R139), and the select line that
fails before any byte and any item (R123, R254). -/

namespace Sys2Proof.Machine

/-! ### A frame whose events are all answered -/

/-- A SENDC or SENDD whose stream is there and whose events are all answered `ok` sends the stream, and a producer shape
pulls just its `len` items (R123, R125, R127). -/
theorem exec_frame_sent (ph : Phase) {s : State} {sh : Shape} {len : Word} {stream : List Byte}
    (hs : s.cfg.WellFormed) (hok : AllOk s) (hfits : sh.isSlice = true → len.toNat * sh.itemSize ≤ s.cfg.pbBytes)
    (hf : frameBytes s sh len = some stream) :
    ∃ t, exec (transportOp ph sh len) s = .next t ∧ Sent s t ph stream ∧
      (sh ≠ .u16le → sh ≠ .u16be → t.pb = s.pb) ∧
      t.prod8 = (if sh = .u8i then s.prod8.drop len.toNat else s.prod8) ∧
      t.prod16 = (if sh ∈ [Shape.u16i, .u16lei, .u16bei] then s.prod16.drop len.toNat else s.prod16) := by
  have hc := hs.chunk_two
  obtain ⟨src, pb, hcall, hexec⟩ := exec_sendsFrame ph hfits hf
  obtain ⟨t, hrun, hhist, hpanel, hdc, hstaging, h8, h16, _, hframe⟩ :=
    tcSend_ok (s := s.setPb pb) hok (show 0 < s.cfg.chunkBytes by omega) hs.chunk_even ph hcall.enough hcall.whole
  rw [hcall.upcoming] at hhist hpanel
  refine ⟨t.finishSeq .ok 0, by rw [hexec, hrun, conclude_of_ok rfl], ?_, ?_, ?_, ?_⟩
  · exact {
      history := hhist
      dc := hdc
      panel := hpanel
      staging := hstaging
      result := by rw [Returns, finishSeq_seqResults, hframe.seqResults]; rfl
      outside := { hframe.outside with }
      driver := { hframe.driver with }
      seqMode := hframe.seqMode }
  · exact fun hle hbe => hframe.pb.trans (hcall.pb_kept hle hbe)
  · rw [finishSeq_prod8, h8, hcall.prod8, hcall.length]
    by_cases hsh : sh = .u8i
    · subst hsh
      rw [if_pos rfl, if_pos rfl, Shape.itemSize, Nat.mul_one]
    · rw [if_neg hsh, if_neg hsh]
  · rw [finishSeq_prod16, h16, hcall.prod16, hcall.length]
    by_cases hsh : sh ∈ [Shape.u16i, .u16lei, .u16bei]
    · obtain ⟨hsize, _, _⟩ := wordProducer_items hsh
      rw [if_pos hsh, if_pos hsh, hsize, Nat.mul_div_cancel _ (by omega)]
    · rw [if_neg hsh, if_neg hsh]

/-- A slice that keeps the bytes as they lie in `PB` leaves the buffer and the producer port alone (R130, R131). -/
theorem exec_unconverted_sent (ph : Phase) {s : State} {sh : Shape} (hsh : sh ∈ [Shape.u8, .u16]) {len : Word}
    {stream : List Byte} (hs : s.cfg.WellFormed) (hok : AllOk s) (hfits : len.toNat * sh.itemSize ≤ s.cfg.pbBytes)
    (hf : frameBytes s sh len = some stream) :
    ∃ t, exec (transportOp ph sh len) s = .next t ∧ Sent s t ph stream ∧ KeepsPayload s t := by
  obtain ⟨t, ht, hsent, hpb, h8, h16⟩ := exec_frame_sent ph hs hok (fun _ => hfits) hf
  simp only [List.mem_cons, List.not_mem_nil, or_false] at hsh
  rcases hsh with rfl | rfl <;> exact ⟨t, ht, hsent, hpb nofun nofun, h8, h16⟩

/-- Settles O16: both phases send the frame of the bytes read. -/
theorem byteSliceIsSent : Obligations.ByteSliceIsSent := by
  intro s len bytes hs hok hfits hread
  have send (ph : Phase) := exec_unconverted_sent ph (sh := .u8) (by simp) hs hok
    (by rw [Shape.itemSize, Nat.mul_one]; exact hfits) hread
  exact ⟨send .command, send .data⟩

/-! ### The slices of words -/

/-- The words that lie natively in `PB` are a slice's stream in the order of its shape (R64, R124). -/
theorem frameBytes_of_words {s : State} {sh : Shape} (hsh : sh.isSlice = true) (hsize : sh.itemSize = 2) {len : Word}
    {words : List HalfWord}
    (hread : Memory.readFrom s.pb 0 (2 * len.toNat) = some (serAll s.cfg.nativeOrder words)) :
    frameBytes s sh len = some (serAll (sh.order s.cfg.nativeOrder) words) := by
  have hlen := Memory.readFrom_length hread
  rw [serAll_length] at hlen
  have hwords : Memory.words s.cfg.nativeOrder s.pb 0 len.toNat = some words :=
    Memory.words_of_readFrom (by omega) hread
  have hframe : frameBytes s sh len =
      (Memory.words s.cfg.nativeOrder s.pb 0 len.toNat).map (serAll (sh.order s.cfg.nativeOrder)) := by
    cases sh with
    | u8 => cases hsize
    | u16 | u16le | u16be => rfl
    | u8i | u16i | u16lei | u16bei => cases hsh
  rw [hframe, hwords, Option.map_some]

/-- Settles O17: both phases send the frame of the native words. -/
theorem nativeSliceIsSent : Obligations.NativeSliceIsSent := by
  intro s len words hs hok hfits hread
  have send (ph : Phase) := exec_unconverted_sent ph (sh := .u16) (by simp) hs hok
    (by rw [Shape.itemSize, Nat.mul_comm]; exact hfits) (frameBytes_of_words rfl rfl hread)
  exact ⟨send .command, send .data⟩

/-- The conversion leaves the bytes beyond the slice as they were (R122). -/
theorem read_slicePb_of_le (sh : Shape) {stream : List Byte} (s : State) {a : Nat} (h : stream.length ≤ a) :
    Memory.read (slicePb sh stream s) a = Memory.read s.pb a := by
  unfold slicePb
  split
  · rw [Memory.read_writeFrom, if_neg (by omega)]
  · rfl

/-- A slice pulls no item, whatever ENV answers (R127). -/
theorem exec_slice_port {ph : Phase} {sh : Shape} (hsh : sh.isSlice = true) {len : Word} {s t : State}
    (ht : exec (transportOp ph sh len) s = .next t) : t.prod8 = s.prod8 ∧ t.prod16 = s.prod16 := by
  rw [exec_slice ph hsh] at ht
  by_cases hlong : s.cfg.pbBytes < len.toNat * sh.itemSize
  · rw [sendSlice_of_long hlong] at ht
    cases ht
    exact ⟨rfl, rfl⟩
  · cases hread : Memory.readFrom s.pb 0 (len.toNat * sh.itemSize) with
    | none =>
      rw [sendSlice_of_unwritten hlong hread] at ht
      cases ht
    | some bytes =>
      rw [sendSlice_of_read hlong hread, sliceRun_eq] at ht
      have hframe := sendBytes_frame ph (sliceStream sh s.cfg.nativeOrder bytes)
        (s.setPb (slicePb sh (sliceStream sh s.cfg.nativeOrder bytes) s))
      rw [conclude_keeps ht]
      exact ⟨hframe.prod8, hframe.prod16⟩

/-- Whatever ENV answers, a slice of words leaves its words in the order of its shape, and all else in `PB` and the
producer port as it was (R122, R139). -/
theorem exec_slice_convertedTo {ph : Phase} {sh : Shape} (hsh : sh.isSlice = true) (hsize : sh.itemSize = 2)
    {len : Word} {s t : State} {words : List HalfWord} (hfits : 2 * len.toNat ≤ s.cfg.pbBytes)
    (hread : Memory.readFrom s.pb 0 (2 * len.toNat) = some (serAll s.cfg.nativeOrder words))
    (ht : exec (transportOp ph sh len) s = .next t) : ConvertedTo s t (sh.order s.cfg.nativeOrder) words := by
  obtain ⟨bytes, hbytes, hpb⟩ := exec_slice_pb hsh (by rw [hsize]; omega) ht
  rw [hsize, Nat.mul_comm, hread, Option.some.injEq] at hbytes
  subst hbytes
  have hlen := Memory.readFrom_length hread
  rw [serAll_length] at hlen
  have hslice := readFrom_slicePb sh hread
  rw [← hpb, sliceStream_serAll hsh] at hslice
  refine ⟨by rw [hlen]; exact hslice, fun a ha => ?_, exec_slice_port hsh ht⟩
  rw [hpb]
  exact read_slicePb_of_le sh s (by rw [sliceStream_length, serAll_length]; exact ha)

/-- Settles O19: a converting shape asks for its own order, in both phases. -/
theorem conversionNeedsNoAnswer : Obligations.ConversionNeedsNoAnswer := by
  intro s t len words _ hfits hread
  have le (ph : Phase) := exec_slice_convertedTo (ph := ph) (sh := .u16le) (t := t) rfl rfl hfits hread
  have be (ph : Phase) := exec_slice_convertedTo (ph := ph) (sh := .u16be) (t := t) rfl rfl hfits hread
  exact ⟨le .command, le .data, be .command, be .data⟩

/-- Settles O18: the frame of the words in the shape's order is sent, and the conversion needs no answer. -/
theorem convertingSliceIsSentAndConverted : Obligations.ConvertingSliceIsSentAndConverted := by
  intro s len words hs hok _ hfits hread
  have send (ph : Phase) {sh : Shape} (hsh : sh.isSlice = true) (hsize : sh.itemSize = 2) :
      ∃ t, exec (transportOp ph sh len) s = .next t ∧ Sent s t ph (serAll (sh.order s.cfg.nativeOrder) words) ∧
        ConvertedTo s t (sh.order s.cfg.nativeOrder) words := by
    obtain ⟨t, ht, hsent, _⟩ :=
      exec_frame_sent ph hs hok (fun _ => by rw [hsize]; omega) (frameBytes_of_words hsh hsize hread)
    exact ⟨t, ht, hsent, exec_slice_convertedTo hsh hsize hfits hread ht⟩
  exact ⟨send .command (sh := .u16le) rfl rfl, send .data (sh := .u16le) rfl rfl,
    send .command (sh := .u16be) rfl rfl, send .data (sh := .u16be) rfl rfl⟩

/-! ### The producers -/

/-- Settles O20: both phases send the frame of the first `len` items. -/
theorem byteProducerIsSent : Obligations.ByteProducerIsSent := by
  intro s len hs hok hitems
  have send (ph : Phase) : ∃ t, exec (transportOp ph .u8i len) s = .next t ∧
      Sent s t ph (s.prod8.take len.toNat) ∧ t.prod8 = s.prod8.drop len.toNat ∧ t.prod16 = s.prod16 ∧
      t.pb = s.pb := by
    obtain ⟨t, ht, hsent, hpb, h8, h16⟩ := exec_frame_sent ph (sh := .u8i) hs hok nofun (if_pos hitems)
    exact ⟨t, ht, hsent, h8, h16, hpb nofun nofun⟩
  exact ⟨send .command, send .data⟩

/-- The stream of a 16-bit producer whose items are there (R124). -/
theorem frameBytes_wordProducer {s : State} {sh : Shape} (hsh : sh ∈ [Shape.u16i, .u16lei, .u16bei]) {len : Word}
    (hitems : len.toNat ≤ s.prod16.length) :
    frameBytes s sh len = some (serAll (sh.order s.cfg.nativeOrder) (s.prod16.take len.toNat)) := by
  simp only [List.mem_cons, List.not_mem_nil, or_false] at hsh
  rcases hsh with rfl | rfl | rfl <;> exact if_pos hitems

/-- A 16-bit producer operation sends its items in the order of its shape (R135 to R137). -/
theorem exec_wordProducer_sent (ph : Phase) {s : State} {sh : Shape} (hsh : sh ∈ [Shape.u16i, .u16lei, .u16bei])
    {len : Word} (hs : s.cfg.WellFormed) (hok : AllOk s) (hitems : len.toNat ≤ s.prod16.length) :
    SentWords s (transportOp ph sh len) ph (sh.order s.cfg.nativeOrder) len := by
  obtain ⟨_, hslice, hnot⟩ := wordProducer_items hsh
  obtain ⟨t, ht, hsent, hpb, h8, h16⟩ :=
    exec_frame_sent ph hs hok (fun h => by rw [hslice] at h; cases h) (frameBytes_wordProducer hsh hitems)
  rw [if_neg hnot] at h8
  rw [if_pos hsh] at h16
  exact ⟨t, ht, hsent, h16, h8, hpb (by rintro rfl; cases hslice) (by rintro rfl; cases hslice)⟩

/-- Settles O21: each of the three shapes in both phases. -/
theorem wordProducersAreSentInTheirOrder : Obligations.WordProducersAreSentInTheirOrder := by
  intro s len hs hok hitems
  have send (ph : Phase) {sh : Shape} (hsh : sh ∈ [Shape.u16i, .u16lei, .u16bei]) :=
    exec_wordProducer_sent ph hsh hs hok hitems
  exact ⟨send .command (sh := .u16i) (by simp), send .data (sh := .u16i) (by simp),
    send .command (sh := .u16lei) (by simp), send .data (sh := .u16lei) (by simp),
    send .command (sh := .u16bei) (by simp), send .data (sh := .u16bei) (by simp)⟩

/-! ### A failed select line -/

/-- Every admitted SENDC and SENDD is one transport call, over the payload buffer its conversion left; a producer need
not have its items (R120, R122, R129). -/
theorem exec_eq_tcSend (ph : Phase) {sh : Shape} {len : Word} {s : State}
    (hslice : sh.isSlice = true → len.toNat * sh.itemSize ≤ s.cfg.pbBytes ∧
      ∃ bytes, Memory.readFrom s.pb 0 (len.toNat * sh.itemSize) = some bytes) :
    ∃ src total pb,
      exec (transportOp ph sh len) s = conclude .hungInTransport (tcSend ph src total (s.setPb pb)) := by
  have slice (hsh : sh.isSlice = true) : ∃ src total pb,
      exec (transportOp ph sh len) s = conclude .hungInTransport (tcSend ph src total (s.setPb pb)) := by
    obtain ⟨hfits, bytes, hread⟩ := hslice hsh
    have hcall := exec_slice ph hsh len s
    rw [sendSlice_of_read (Nat.not_lt.mpr hfits) hread, sliceRun_eq] at hcall
    exact ⟨_, _, _, hcall⟩
  cases sh with
  | u8 | u16 | u16le | u16be => exact slice rfl
  | u8i => exact ⟨_, _, s.pb, exec_producer8 ph len s⟩
  | u16i | u16lei | u16bei => exact ⟨_, _, s.pb, exec_producer16 ph (by simp) len s⟩

/-- A transport call ends with its failed select line (R123, R254). -/
theorem tcSend_of_failedLine (ph : Phase) (src : Source) (total : Nat) {s : State} {draw : Nat}
    (hna : s.nextAnswer = .fail draw) :
    tcSend ph src total s = ((emitDc (s.cfg.level ph) s).1, .err .selectLineError) := by
  have hreply : (emitDc (s.cfg.level ph) s).2 = .err .selectLineError := by rw [emitDc_reply, hna]; rfl
  rw [tcSend, Run.andThen_of_ne (by rw [hreply]; exact nofun), ← hreply]

/-- Settles O23: the operation returns the status of the one event its transport call emitted. -/
theorem failedSelectLineSendsNothing : Obligations.FailedSelectLineSendsNothing := by
  intro s ph sh len draw rest hslice hans
  obtain ⟨src, total, pb, hexec⟩ := exec_eq_tcSend ph hslice
  have hna : (s.setPb pb).nextAnswer = .fail draw := congrArg (fun answers => answers.headD Answer.ok) hans
  rw [tcSend_of_failedLine ph src total hna, conclude_of_err rfl] at hexec
  obtain ⟨houtside, hdriver, _, _, hresults⟩ := (emitDc_frame (s.cfg.level ph) (s.setPb pb)).bus
  refine ⟨_, hexec, ?_, ?_, ?_, ?_, rfl, rfl, rfl, { houtside with }, { hdriver with }⟩
  · rw [Returns, finishSeq_seqResults]; exact congrArg (· ++ _) hresults
  · rw [finishSeq_history, emitDc_history, hna]; rfl
  · rw [finishSeq_dc, emitDc_dc, hna]; rfl
  · rw [finishSeq_answers, emitDc_answers]; exact congrArg List.tail hans

end Sys2Proof.Machine
end

