-- ==== Sys2Proof/Proofs/DriverOperations.lean ====
section
/-! PROOFS. The Panel Driver's operations but INIT and FLUSH (41_panel_driver.md R161, R164 to R166, R171 to R178): the
state gate, the two writers of `cur`, the command writes, SETWIN, SETORI and the dimensions. -/

namespace Sys2Proof.Machine

/-! ### The state gate -/

theorem exec_init (v : Orientation) (s : State) :
    exec (.init v) s = gated .uninitialized (fun s => conclude .hungInDriver (initSequence v s)) s := rfl

theorem exec_setwin (x0 y0 x1 y1 : HalfWord) (s : State) :
    exec (.setwin x0 y0 x1 y1) s =
      gated .ready (fun s => conclude .hungInDriver (setWindow ⟨x0, y0, x1, y1⟩ s)) s := rfl

theorem exec_wrpix (x y color : HalfWord) (s : State) :
    exec (.wrpix x y color) s = gated .ready (wrpixReady x y color) s := rfl

theorem exec_clear (color : HalfWord) (s : State) :
    exec (.clear color) s = gated .ready
      (fun s => returnStatus .ok { s with cur := Memory.fill s.cfg.cells (s.cfg.reduce color) }) s := rfl

theorem exec_flush (s : State) : exec .flush s = gated .ready flushReady s := rfl

theorem exec_setori (v : Orientation) (s : State) :
    exec (.setori v) s = gated .ready (fun s => conclude .hungInDriver (setoriRun v s)) s := rfl

/-- Settles O28: every gated operation is behind its gate, and the dimensions are behind none. -/
theorem stateGateRefusesWithoutEffect : Obligations.StateGateRefusesWithoutEffect := by
  intro s
  refine ⟨fun hp v => (exec_init v s).trans (gated_of_ne hp _), fun hp => ?_, ⟨s.width, rfl⟩, ⟨s.height, rfl⟩⟩
  have command (op : Byte) (args : List Byte) : commandWrite op args s = .next (s.finishSeq .badState 0) :=
    gated_of_ne hp _
  exact ⟨fun x0 y0 x1 y1 => (exec_setwin x0 y0 x1 y1 s).trans (gated_of_ne hp _),
    fun x y c => (exec_wrpix x y c s).trans (gated_of_ne hp _), fun c => (exec_clear c s).trans (gated_of_ne hp _),
    (exec_flush s).trans (gated_of_ne hp _), fun _ => command _ _, fun _ => command _ _, fun _ => command _ _,
    fun _ => command _ _, fun v => (exec_setori v s).trans (gated_of_ne hp _)⟩

/-- A gated operation that gives a next state passed its gate, or returned `BadState` and nothing else (R161). -/
theorem gated_cases {need : PdState} {k : State → Outcome} {s t : State} (ht : gated need k s = .next t) :
    (s.pd = need ∧ k s = .next t) ∨ (s.pd ≠ need ∧ t = s.finishSeq .badState 0) := by
  by_cases hp : s.pd = need
  · rw [gated_of_eq hp] at ht
    exact .inl ⟨hp, ht⟩
  · rw [gated_of_ne hp] at ht
    cases ht
    exact .inr ⟨hp, rfl⟩

/-- An operation returns `(OK, 0)` exactly when its run, which returned nothing itself, ended with `ok` (R13, R250). -/
theorem conclude_returns_iff {m : SeqMode} {r : Run} {s t : State} (hr : r.Honest) (hkeep : KeepsResults s r.1)
    (ht : conclude m r = .next t) : Returns s t .ok 0 ↔ r.2 = .ok := by
  rw [Returns, ← hkeep.seqResults]
  exact conclude_returns_ok hr ht

/-- What a run left, once its operation returned `(OK, 0)`. -/
theorem succeeded_of_run {s u : State} {events : List Event} {panel : Panel} {staged : Nat}
    (history : u.history = s.history ++ events) (panel_eq : u.panel = panel)
    (staging : ∀ a, min s.cfg.chunkBytes staged ≤ a → Memory.read u.cb a = Memory.read s.cb a)
    (results : KeepsResults s u) (outside : KeepsOutside s u) (payload : KeepsPayload s u) :
    Succeeded s (u.finishSeq .ok 0) events panel staged where
  history := history
  panel := panel_eq
  staging := staging
  result := by rw [Returns, finishSeq_seqResults, results.seqResults]
  outside := outside.trans (finishSeq_keepsOutside .ok 0 u)
  payload := { payload with }
  seqMode := results.seqMode

/-! ### The dimensions -/

/-- Settles O44: each orientation is portrait or landscape. -/
theorem dimensionsFollowTheOrientation : Obligations.DimensionsFollowTheOrientation := by
  intro s
  have getw : exec .getw s = .next (s.finishSeq .ok (s.cfg.width s.orient)) := rfl
  have geth : exec .geth s = .next (s.finishSeq .ok (s.cfg.height s.orient)) := rfl
  rw [getw, geth]
  refine ⟨fun h => ?_, fun h => ?_⟩ <;> rcases h with h | h <;> rw [h] <;> exact ⟨rfl, rfl⟩

/-! ### The writers of `cur` -/

/-- Settles O33: the gate, the bounds, and then one write. -/
theorem wrpixWritesOneCell : Obligations.WrpixWritesOneCell := by
  intro s x y color
  rw [exec_wrpix]
  refine ⟨fun hp => gated_of_ne hp _, fun hp hout => ?_, fun hp hx hy => ?_⟩
  · rw [gated_of_eq hp, wrpixReady_of_outside hout]
    rfl
  · have hin : ¬ (s.width.toNat ≤ x.toNat ∨ s.height.toNat ≤ y.toNat) := by omega
    rw [gated_of_eq hp, wrpixReady_of_inside hin]
    exact ⟨_, rfl, Memory.read_write_same _ _ _, fun i hi => Memory.read_write_ne _ _ hi⟩

/-- CLEAR in `Ready` (R166). -/
theorem exec_clear_ready {s : State} (hp : s.pd = .ready) (color : HalfWord) :
    exec (.clear color) s =
      .next (State.finishSeq .ok 0 { s with cur := Memory.fill s.cfg.cells (s.cfg.reduce color) }) :=
  (exec_clear color s).trans (gated_of_eq hp _)

/-- Settles O34: the new `cur` is the filled memory. -/
theorem clearFillsCurrent : Obligations.ClearFillsCurrent := fun s color =>
  ⟨fun hp => (exec_clear color s).trans (gated_of_ne hp _),
    fun hp => ⟨_, exec_clear_ready hp color, Memory.read_fill _ _⟩⟩

/-! ### Command writes -/

/-- A command write in `Ready` whose events are all answered `ok` is its transaction (R171 to R174). -/
theorem commandWrite_completes {s : State} (hs : s.cfg.WellFormed) (hok : AllOk s) (hp : s.pd = .ready) (op : Byte)
    (args : List Byte) :
    ∃ t, commandWrite op args s = .next t ∧ Transacted s t op args ∧ KeepsDriver s t := by
  rw [commandWrite, gated_of_eq hp]
  exact transaction_completes hs hok op args

/-- Settles O41: each of the four operations is one command write. -/
theorem commandWritesSendTheirOpcode : Obligations.CommandWritesSendTheirOpcode := by
  intro s hs hok hp
  have complete := commandWrite_completes hs hok hp
  exact ⟨fun value => complete 0x51 [value], fun mode => complete (if mode = 1 then 0x10 else 0x11) [],
    fun mode => complete (if mode = 1 then 0x29 else 0x28) [],
    fun mode => complete (if mode = 1 then 0x21 else 0x20) []⟩

/-! ### SETORI -/

theorem setoriRun_honest (v : Orientation) (s : State) : (setoriRun v s).Honest :=
  Run.andThen_honest (pdCommand_honest _ _ _) fun _ => ok_honest _

/-- SETORI's run whatever is answered: the framebuffers stay, and `ORIENT` is the new one exactly after `ok` (R175). -/
theorem setoriRun_frame (v : Orientation) (s : State) :
    (setoriRun v s).1.cur = s.cur ∧ (setoriRun v s).1.snt = s.snt ∧
      (((setoriRun v s).2 = .ok ∧ (setoriRun v s).1.orient = v) ∨
        ((setoriRun v s).2 ≠ .ok ∧ (setoriRun v s).1.orient = s.orient)) := by
  have driver := (pdCommand_frame opcMemoryAccessControl [s.cfg.madctl v] s).bus.driver
  unfold setoriRun
  by_cases h : (pdCommand opcMemoryAccessControl [s.cfg.madctl v] s).2 = .ok
  · rw [Run.andThen_of_ok h]
    exact ⟨driver.cur, driver.snt, .inl ⟨rfl, rfl⟩⟩
  · rw [Run.andThen_of_ne h]
    exact ⟨driver.cur, driver.snt, .inr ⟨h, driver.orient⟩⟩

/-- SETORI is its transaction, and `ORIENT` after it when the transaction returned `(OK, 0)`. -/
theorem setori_of_transaction {v : Orientation} {s t : State} (hret : Returns s t .ok 0)
    (ht : transaction opcMemoryAccessControl [s.cfg.madctl v] s = .next t) :
    conclude .hungInDriver (setoriRun v s) = .next { t with orient := v } := by
  have hok := (conclude_returns_iff (pdCommand_honest _ _ _) (pdCommand_keepsResults _ _ s) ht).1 hret
  rw [transaction, conclude_of_ok hok] at ht
  cases ht
  rw [setoriRun, Run.andThen_of_ok hok]
  rfl

/-- Settles O42: its one transaction completes, and then `ORIENT` is set. -/
theorem setoriTakesEffect : Obligations.SetoriTakesEffect := by
  intro s v hs hok hp
  obtain ⟨t, ht, ⟨hrun, hdc⟩, hdriver⟩ := transaction_completes hs hok opcMemoryAccessControl [s.cfg.madctl v]
  refine ⟨{ t with orient := v }, ?_, ⟨?_, hdc⟩, rfl, hdriver.pd, hdriver.win, hdriver.cur, hdriver.snt, hdriver.rstN⟩
  · rw [exec_setori, gated_of_eq hp]
    exact setori_of_transaction hrun.result ht
  · exact { hrun with outside := { hrun.outside with }, payload := { hrun.payload with } }

/-- Settles O43: `BadState` changes no element, and the run sets `ORIENT` exactly when it ends with `ok`. -/
theorem setoriKeepsTheFrames : Obligations.SetoriKeepsTheFrames := by
  intro s t v ht
  rw [exec_setori] at ht
  rcases gated_cases ht with ⟨_, hend⟩ | ⟨_, rfl⟩
  · have hret := conclude_returns_iff (setoriRun_honest v s) (setoriRun_keepsResults v s) hend
    obtain ⟨hcur, hsnt, horient⟩ := setoriRun_frame v s
    rw [conclude_keeps hend] at hret ⊢
    exact ⟨hcur, hsnt, horient.symm.imp And.right fun ⟨hok, hv⟩ => ⟨hv, hret.2 hok⟩⟩
  · exact ⟨rfl, rfl, .inl rfl⟩

/-! ### SETWIN -/

/-- Settles O31: both range commands of `set_window` complete. -/
theorem setwinSendsBothRanges : Obligations.SetwinSendsBothRanges := by
  intro s x0 y0 x1 y1 hs hok hp
  have hc := hs.chunk_two
  obtain ⟨u, hrun, hhistory, hpanel, hdc, hwin, hstaging, _, hframe⟩ :=
    setWindow_ok hok (by omega) ⟨x0, y0, x1, y1⟩
  refine ⟨u.finishSeq .ok 0, ?_, ?_, hwin, hdc, hframe.pd, hframe.orient, hframe.cur, hframe.snt, hframe.rstN⟩
  · rw [exec_setwin, gated_of_eq hp, hrun, conclude_of_ok rfl]
  · exact succeeded_of_run hhistory hpanel hstaging ⟨hframe.seqMode, hframe.seqResults⟩ hframe.outside hframe.payload

/-- Settles O32: `BadState` changes no element, and `set_window` sets `WIN` exactly when it ends with `ok`. -/
theorem setwinRecordsOnlySuccess : Obligations.SetwinRecordsOnlySuccess := by
  intro s t x0 y0 x1 y1 ht
  rw [exec_setwin] at ht
  rcases gated_cases ht with ⟨_, hend⟩ | ⟨_, rfl⟩
  · have hret := conclude_returns_iff (setWindow_honest _ s) (setWindow_keepsResults _ s) hend
    obtain ⟨_, hwin⟩ := setWindow_frame ⟨x0, y0, x1, y1⟩ s
    rw [conclude_keeps hend] at hret ⊢
    exact hwin.symm.imp And.right fun ⟨hok, hnew⟩ => ⟨hnew, hret.2 hok⟩
  · exact .inl rfl

end Sys2Proof.Machine
end

