-- ==== Sys2Proof/Proofs/Initialisation.lean ====
section
/-! PROOFS. INIT (41_panel_driver.md R162, R163): its events when all are answered `ok`, and the state it stays in when
one of them fails. -/

namespace Sys2Proof.Machine

/-! ### The walk answered `ok` throughout -/

/-- A phase of one byte: the select line and one chunk (R97, R99, R123). -/
theorem sentEvents_byte {c : Config} (hc : 0 < c.chunkBytes) (ph : Phase) (b : Byte) :
    sentEvents c ph [b] = [.dc (c.level ph) .ok, .wr [b] .ok] := by
  obtain ⟨n, hn⟩ : ∃ n, c.chunkBytes = n + 1 := ⟨c.chunkBytes - 1, by omega⟩
  have hchunks : chunksOf c.chunkBytes [b] = [[b]] := by
    rw [chunksOf_step hc (List.cons_ne_nil b []), hn, List.take_succ_cons, List.take_nil, List.drop_succ_cons,
      List.drop_nil, chunksOf_nil _ (Nat.succ_pos n)]
  rw [sentEvents, hchunks]
  rfl

theorem transactionEvents_noData {c : Config} (hc : 0 < c.chunkBytes) (op : Byte) :
    transactionEvents c op [] = [.dc c.dcCmd .ok, .wr [op] .ok] := by
  rw [transactionEvents, if_pos rfl, List.append_nil, sentEvents_byte hc]
  rfl

theorem transactionEvents_oneByte {c : Config} (hc : 0 < c.chunkBytes) (op x : Byte) :
    transactionEvents c op [x] = [.dc c.dcCmd .ok, .wr [op] .ok, .dc c.dcData .ok, .wr [x] .ok] := by
  rw [transactionEvents, if_neg (List.cons_ne_nil x []), sentEvents_byte hc, sentEvents_byte hc]
  rfl

/-- INIT's reset pulse, five transactions and five delays are R162's list. -/
theorem initEvents_eq {c : Config} (hc : 0 < c.chunkBytes) (v : Orientation) :
    [.rst 0 .ok, .dly c.tRstLow, .rst 1 .ok, .dly c.tRstSettle] ++ transactionEvents c opcSoftwareReset [] ++
        [.dly c.tSwReset] ++ transactionEvents c opcMemoryAccessControl [c.madctl v] ++
        transactionEvents c opcPixelFormat [c.pixfmt16bpp] ++ [.dly c.tCfg] ++ transactionEvents c opcSleepOff [] ++
        [.dly c.tWake] ++ transactionEvents c opcDisplayOn [] = initEvents c v := by
  simp only [transactionEvents_noData hc, transactionEvents_oneByte hc]
  rfl

/-- Settles O29: the walk runs to its end, over the framebuffers that INIT wrote before it. -/
theorem initBringsThePanelUp : Obligations.InitBringsThePanelUp := by
  intro s v hs hok hp
  have hc : 0 < s.cfg.chunkBytes := by have := hs.chunk_two; omega
  obtain ⟨u, hrun, hhistory, hpanel, hdc, hrst, hpd, hstaging, _⟩ := initSequence_ok hok hc v
  obtain ⟨hwalk, _⟩ := initSequence_frame v s
  have hresults := initSequence_keepsResults v s
  have houtside := initSequence_keepsOutside v s
  rw [hrun] at hwalk hresults houtside
  rw [initEvents_eq hc] at hhistory
  refine ⟨u.finishSeq .ok 0, ?_, ?_, hpd, hwalk.orient, fun i => ⟨?_, ?_⟩, hdc, hrst, hwalk.win⟩
  · rw [exec_init, gated_of_eq hp, hrun, conclude_of_ok rfl]
  · exact succeeded_of_run hhistory hpanel hstaging hresults houtside { hwalk.payload with }
  · rw [finishSeq_cur, hwalk.cur, initStart_cur, Memory.read_fill]
  · rw [finishSeq_snt, finishSeq_cur, hwalk.snt, hwalk.cur, initStart_snt, initStart_cur]

/-! ### The first event not answered `ok` -/

/-- A part of an operation that emits `k` fallible events when all are answered `ok`, event `i` failing with the status
`st i`, while `n` answers `ok` and then the answer `a` are ahead: it ends at its event `n` or, when it has no such
event, goes on and leaves the answers after its own. -/
structure EndsWithin (k : Nat) (st : Nat → Status) (n : Nat) (a : Answer) (rest : List Answer) (r : Run) : Prop where
  ends : n < k → r.2 = a.reply (st n)
  goesOn : k ≤ n → r.2 = .ok ∧ r.1.answers = firstBad (n - k) a rest

section
variable {k l n : Nat} {st : Nat → Status} {a : Answer} {rest : List Answer}

/-- A part that emits no fallible event. -/
theorem EndsWithin.silent {s : State} (h : s.answers = firstBad n a rest) : EndsWithin 0 st n a rest (s, .ok) :=
  ⟨nofun, fun _ => ⟨rfl, h⟩⟩

/-- The events of the second part follow those of the first. -/
theorem EndsWithin.andThen (ha : a ≠ .ok) {r : Run} {f : State → Run} (h : EndsWithin k st n a rest r)
    (hf : r.1.answers = firstBad (n - k) a rest → EndsWithin l (fun i => st (k + i)) (n - k) a rest (f r.1)) :
    EndsWithin (k + l) st n a rest (r.andThen f) := by
  by_cases hn : n < k
  · have hne : r.2 ≠ .ok := by rw [h.ends hn]; exact reply_ne_ok ha _
    rw [Run.andThen_of_ne hne]
    exact ⟨fun _ => h.ends hn, fun _ => by omega⟩
  · obtain ⟨hok, hans⟩ := h.goesOn (by omega)
    obtain ⟨hends, hgoesOn⟩ := hf hans
    rw [Run.andThen_of_ok hok]
    refine ⟨fun _ => ?_, fun _ => ?_⟩
    · rw [hends (by omega), Nat.add_sub_cancel' (by omega)]
    · rw [← Nat.sub_sub]
      exact hgoesOn (by omega)

end

/-- The status of the failure of event `i` of a transaction of single bytes: select line and write take turns
(R62, R97). -/
def busFailure (i : Nat) : Status := if i % 2 = 0 then .selectLineError else .busWriteError

theorem busFailure_even_add {k : Nat} (hk : k % 2 = 0) : (fun i => busFailure (k + i)) = busFailure := by
  funext i
  have : (k + i) % 2 = i % 2 := by omega
  rw [busFailure, busFailure, this]

section
variable {n : Nat} {a : Answer} {rest : List Answer} {s : State} (ha : a ≠ .ok) (hc : 0 < s.cfg.chunkBytes)
  (h : s.answers = firstBad n a rest)
include h

theorem emitRst_endsWithin (level : BitVec 1) : EndsWithin 1 (fun _ => .resetError) n a rest (emitRst level s) := by
  refine ⟨fun hn => ?_, fun hn => ?_⟩
  · have h0 : n = 0 := by omega
    subst h0
    rw [emitRst_reply, State.nextAnswer, h]
    rfl
  · obtain ⟨m, rfl⟩ : ∃ m, n = m + 1 := ⟨n - 1, by omega⟩
    rw [emitRst_reply, emitRst_answers, State.nextAnswer, h]
    exact ⟨rfl, rfl⟩

include ha

theorem initResetting_endsWithin : EndsWithin 2 (fun _ => .resetError) n a rest (initResetting s) :=
  (emitRst_endsWithin h 0).andThen (l := 1) ha fun h1 =>
    (emitRst_endsWithin (s := emitDly s.cfg.tRstLow (emitRst 0 s).1) h1 1).andThen (l := 0) ha fun h2 => .silent h2

include hc

theorem pdCommand_noData_endsWithin (op : Byte) : EndsWithin 2 busFailure n a rest (pdCommand op [] s) :=
  ⟨(pdCommand_noData_answers hc op ha h).1, (pdCommand_noData_answers hc op ha h).2⟩

theorem pdCommand_oneByte_endsWithin (op x : Byte) : EndsWithin 4 busFailure n a rest (pdCommand op [x] s) :=
  ⟨(pdCommand_oneByte_answers hc op x ha h).1, (pdCommand_oneByte_answers hc op x ha h).2⟩

theorem initSoftwareReset_endsWithin : EndsWithin 2 busFailure n a rest (initSoftwareReset s) :=
  (pdCommand_noData_endsWithin ha hc h _).andThen (l := 0) ha fun h1 => .silent h1

theorem initConfiguring_endsWithin (v : Orientation) : EndsWithin 8 busFailure n a rest (initConfiguring v s) := by
  refine (pdCommand_oneByte_endsWithin ha hc h _ _).andThen (l := 4) ha fun h1 => ?_
  have hcfg := (pdCommand_frame opcMemoryAccessControl [s.cfg.madctl v] s).bus.outside.cfg
  rw [busFailure_even_add rfl]
  exact (pdCommand_oneByte_endsWithin ha (by rw [hcfg]; exact hc) h1 _ _).andThen (l := 0) ha fun h2 => .silent h2

theorem initWaking_endsWithin : EndsWithin 4 busFailure n a rest (initWaking s) := by
  refine (pdCommand_noData_endsWithin ha hc h _).andThen (l := 2) ha fun h1 => ?_
  have hcfg := (pdCommand_frame opcSleepOff [] s).bus.outside.cfg
  rw [busFailure_even_add rfl]
  exact (pdCommand_noData_endsWithin ha (s := emitDly s.cfg.tWake (pdCommand opcSleepOff [] s).1)
    (by rw [emitDly_cfg, hcfg]; exact hc) h1 _).andThen (l := 0) ha fun h2 => .silent h2

end

/-! ### A failed INIT -/

/-- Where INIT stops, with the failing event counted from the start of its part (R162, R163). -/
theorem initFailure_eq (n : Nat) : initFailure n =
    if n < 2 then (.resetting, .resetError) else if n < 4 then (.softwareReset, busFailure (n - 2))
      else if n < 12 then (.configuringFormat, busFailure (n - 2 - 2))
      else (.wakingFromSleep, busFailure (n - 2 - 2 - 8)) := by
  have parity {k : Nat} (hk : k % 2 = 0) (hle : k ≤ n) : busFailure (n - k) = busFailure n := by
    have h := congrFun (busFailure_even_add hk) (n - k)
    simp only [Nat.add_sub_cancel' hle] at h
    exact h.symm
  have hfailure : initFailure n =
      (if n < 2 then .resetting else if n < 4 then .softwareReset else if n < 12 then .configuringFormat
        else .wakingFromSleep, if n < 2 then .resetError else busFailure n) := rfl
  rw [hfailure]
  split_ifs
  · rfl
  · rw [parity rfl (by omega)]
  · rw [Nat.sub_sub, parity rfl (by omega)]
  · rw [Nat.sub_sub, Nat.sub_sub, parity rfl (by omega)]

/-- The run ends at an event answered `a`, in the `PD_STATE` and with the failure given. -/
def FailsAs (a : Answer) (failure : PdState × Status) (r : Run) : Prop :=
  r.2 = a.reply failure.2 ∧ r.1.pd = failure.1

/-- A part of INIT's walk that leaves its `PD_STATE` exactly after `ok`: a failing event of its own leaves `PD_STATE`
there, and one that comes later is for the parts after it (R163). -/
theorem EndsWithin.failsAs {k n : Nat} {st : Nat → Status} {a : Answer} {rest : List Answer} (ha : a ≠ .ok) {r : Run}
    {f : State → Run} {here next : PdState} {failure : PdState × Status} (h : EndsWithin k st n a rest r)
    (hpd : (r.2 = .ok ∧ r.1.pd = next) ∨ (r.2 ≠ .ok ∧ r.1.pd = here))
    (hends : n < k → failure = (here, st n))
    (hgoesOn : k ≤ n → r.1.pd = next → r.1.answers = firstBad (n - k) a rest → FailsAs a failure (f r.1)) :
    FailsAs a failure (r.andThen f) := by
  by_cases hn : n < k
  · have hreply := h.ends hn
    have hne : r.2 ≠ .ok := by rw [hreply]; exact reply_ne_ok ha _
    rw [Run.andThen_of_ne hne, hends hn]
    exact ⟨hreply, (hpd.resolve_left fun hok => hne hok.1).2⟩
  · obtain ⟨hok, hans⟩ := h.goesOn (by omega)
    rw [Run.andThen_of_ok hok]
    exact hgoesOn (by omega) (hpd.resolve_right fun hne => hne.1 hok).2 hans

/-- INIT's walk ends in the part that emits its event `n`, the first not answered `ok`, with the status of that event's
failure (R162, R163, R262). -/
theorem initSequence_failsAs {s : State} {n : Nat} {a : Answer} {rest : List Answer} (ha : a ≠ .ok)
    (hc : 0 < s.cfg.chunkBytes) (hn : n < 16) (h : s.answers = firstBad n a rest) (v : Orientation) :
    FailsAs a (initFailure n) (initSequence v s) := by
  obtain ⟨w1, p1⟩ := initResetting_frame (initStart v s)
  refine (initResetting_endsWithin ha (s := initStart v s) h).failsAs ha p1 (fun h2 => ?_) fun h2 s1 a1 => ?_
  · rw [initFailure_eq, if_pos h2]; rfl
  generalize (initResetting (initStart v s)).1 = t at w1 s1 a1 ⊢
  have tc : 0 < t.cfg.chunkBytes := w1.outside.cfg ▸ hc
  obtain ⟨w2, p2⟩ := initSoftwareReset_frame t
  refine (initSoftwareReset_endsWithin ha tc a1).failsAs ha p2 (fun h4 => ?_) fun h4 s2 a2 => ?_
  · rw [initFailure_eq, if_neg (by omega), if_pos (by omega), s1]
  generalize (initSoftwareReset t).1 = u at w2 s2 a2 ⊢
  have uc : 0 < u.cfg.chunkBytes := w2.outside.cfg ▸ tc
  obtain ⟨w3, p3⟩ := initConfiguring_frame v u
  refine (initConfiguring_endsWithin ha uc a2 v).failsAs ha p3 (fun h12 => ?_) fun h12 s3 a3 => ?_
  · rw [initFailure_eq, if_neg (by omega), if_neg (by omega), if_pos (by omega), s2]
  generalize (initConfiguring v u).1 = w at w3 s3 a3 ⊢
  obtain ⟨_, p4⟩ := initWaking_frame w
  rw [← Run.andThen_pure (initWaking w)]
  refine (initWaking_endsWithin ha (w3.outside.cfg ▸ uc) a3).failsAs ha p4 (fun _ => ?_) fun h16 => by omega
  rw [initFailure_eq, if_neg (by omega), if_neg (by omega), if_neg (by omega), s3]

/-- Settles O30: the walk ends at its failing event, in the state of the part that emits it. -/
theorem failedInitStaysInItsState : Obligations.FailedInitStaysInItsState := by
  intro s v n draw rest hs hp hn hans
  have hc := hs.chunk_two
  obtain ⟨hreply, hpd⟩ := initSequence_failsAs (a := .fail draw) nofun (by omega) hn hans v
  obtain ⟨hwalk, _⟩ := initSequence_frame v s
  refine ⟨(initSequence v s).1.finishSeq (initFailure n).2 0, ?_, hpd, ?_, hwalk.orient, hwalk.cur, hwalk.snt,
    hwalk.win, { hwalk.payload with }, { hwalk.outside with }⟩
  · rw [exec_init, gated_of_eq hp, conclude_of_err hreply]
  · rw [Returns, finishSeq_seqResults, hwalk.seqResults, initStart_seqResults]

end Sys2Proof.Machine
end

