-- ==== Sys2Proof/Proofs/Flush.lean ====
section
/-! PROOFS. FLUSH (41_panel_driver.md R167 to R170): the dirty box, what a FLUSH leaves whatever is answered, what it
sends when every event is answered `ok`, and with it what the panel shows after CLEAR and FLUSH (70_reset_and_hazards.md
R291). -/

namespace Sys2Proof.Machine

/-! ### The dirty box -/

theorem dirtyBox_eq_none {s : State} : boundingBox s.dirtyCells = none ↔ ∀ x y, ¬ s.differs x y := by
  rw [boundingBox_none, List.eq_nil_iff_forall_not_mem]
  exact ⟨fun h x y hd => h (x, y) (mem_dirtyCells.2 hd), fun h p hp => h p.1 p.2 (mem_dirtyCells.1 hp)⟩

theorem dirtyBox_contains {s : State} {b : Box} (hb : boundingBox s.dirtyCells = some b) {x y : Nat}
    (h : s.differs x y) : b.contains x y :=
  (boundingBox_spec hb).1 (x, y) (mem_dirtyCells.2 h)

/-- Settles O36: the dirty cells are the differing ones, and the box bounds them. -/
theorem dirtyBoxIsTheLeastRectangle : Obligations.DirtyBoxIsTheLeastRectangle := by
  intro s
  refine ⟨dirtyBox_eq_none, fun b hb => ⟨dirtyBox_inside hb, fun x y => dirtyBox_contains hb, fun c hc => ?_⟩⟩
  exact (boundingBox_spec hb).2 c fun p hp => hc p.1 p.2 (mem_dirtyCells.1 hp)

/-- Settles O35: no differing cell is no dirty box. -/
theorem flushOfEqualFramesIsQuiet : Obligations.FlushOfEqualFramesIsQuiet := by
  intro s hp heq
  rw [exec_flush, gated_of_eq hp, flushReady_of_equal (dirtyBox_eq_none.2 heq)]
  rfl

/-! ### Whatever is answered -/

/-- What a FLUSH that went on to the bus left of the driver's elements: `cur`, and with it what the dirty box and its
pixels are made of, and `snt` replaced by `cur` exactly when it returned `(OK, 0)` (R170). -/
structure Flushed (s t : State) : Prop where
  cfg : t.cfg = s.cfg
  pd : t.pd = s.pd
  orient : t.orient = s.orient
  cur : t.cur = s.cur
  commit : (Returns s t .ok 0 ∧ t.snt = s.cur) ∨ (¬ Returns s t .ok 0 ∧ t.snt = s.snt)

theorem flushed_of_conclude {b : Box} {pixels : List HalfWord} {s t : State}
    (ht : conclude .hungInDriver (flushBox b pixels s) = .next t) : Flushed s t := by
  have hret := conclude_returns_iff (flushBox_honest b pixels s) (flushBox_keepsResults b pixels s) ht
  obtain ⟨hcur, horient, hpd, _, houtside, _, _, _, hsnt⟩ := flushBox_frame b pixels s
  rw [conclude_keeps ht] at hret ⊢
  exact {
    cfg := houtside.cfg
    pd := hpd
    orient := horient
    cur := hcur
    commit := hsnt.imp (fun ⟨hok, h⟩ => ⟨hret.2 hok, h⟩) fun ⟨hne, h⟩ => ⟨fun hr => hne (hret.1 hr), h⟩ }

/-- The three ways a FLUSH ends: `BadState`, nothing to send, or its sending part (R161, R167). -/
theorem exec_flush_cases {s t : State} (ht : exec .flush s = .next t) :
    (s.pd ≠ .ready ∧ t = s.finishSeq .badState 0) ∨
      ((∀ x y, ¬ s.differs x y) ∧ t = s.finishSeq .ok 0) ∨ Flushed s t := by
  rw [exec_flush] at ht
  rcases gated_cases ht with ⟨_, hready⟩ | hbad
  · right
    cases hb : boundingBox s.dirtyCells with
    | none =>
      rw [flushReady_of_equal hb] at hready
      cases hready
      exact .inl ⟨dirtyBox_eq_none.1 hb, rfl⟩
    | some b =>
      cases hpix : s.boxPixels b with
      | none => rw [flushReady_of_unspecified hb hpix] at hready; cases hready
      | some pixels =>
        rw [flushReady_of_pixels hb hpix] at hready
        exact .inr (flushed_of_conclude hready)
  · exact .inl hbad

/-- Settles O38: only the sending part writes `snt`. -/
theorem flushCommitsOnlyOnSuccess : Obligations.FlushCommitsOnlyOnSuccess := by
  intro s t ht
  rcases exec_flush_cases ht with ⟨_, rfl⟩ | ⟨_, rfl⟩ | h
  · exact ⟨rfl, .inl rfl⟩
  · exact ⟨rfl, .inl rfl⟩
  · exact ⟨h.cur, h.commit.symm.imp And.right And.symm⟩

/-- Settles O39: after a FLUSH that succeeded the framebuffers do not differ. -/
theorem secondFlushIsQuiet : Obligations.SecondFlushIsQuiet := by
  intro s t hp ht hret
  rcases exec_flush_cases ht with ⟨hne, _⟩ | ⟨heq, rfl⟩ | h
  · exact absurd hp hne
  · exact flushOfEqualFramesIsQuiet _ hp heq
  · have hsnt : t.snt = t.cur := (h.commit.resolve_right fun hc => hc.1 hret).2.trans h.cur.symm
    refine flushOfEqualFramesIsQuiet t (h.pd.trans hp) fun x y ⟨_, _, hne⟩ => ?_
    rw [hsnt] at hne
    exact hne rfl

/-- Settles O40: what the dirty box and its pixels are made of is as before. -/
theorem failedFlushIsRepeatedWhole : Obligations.FailedFlushIsRepeatedWhole := by
  intro s t hp ht hret
  rcases exec_flush_cases ht with ⟨hne, _⟩ | ⟨_, rfl⟩ | h
  · exact absurd hp hne
  · exact absurd rfl hret
  · have hsnt := (h.commit.resolve_left fun hc => hret hc.1).2
    have hwidth : t.width = s.width := by rw [State.width, State.width, h.cfg, h.orient]
    have hheight : t.height = s.height := by rw [State.height, State.height, h.cfg, h.orient]
    have hindex : t.cellIndex = s.cellIndex := by funext x y; rw [State.cellIndex, State.cellIndex, hwidth]
    refine ⟨?_, fun b => ?_⟩
    · rw [State.dirtyCells, State.dirtyCells, hwidth, hheight, hindex, h.cur, hsnt]
    · rw [State.boxPixels, State.boxPixels, hindex, h.cur, h.cfg]

/-! ### Every event answered `ok` -/

/-- Settles O37: the box has a pixel for each of its cells, and the sending part completes. -/
theorem flushSendsTheDirtyBox : Obligations.FlushSendsTheDirtyBox := by
  intro s b hs hfilled hok hp hb
  have hc := hs.chunk_two
  obtain ⟨pixels, hpix, hlen, hcells⟩ := boxPixels_spec hfilled (dirtyBox_inside hb)
  have hne : pixels ≠ [] := by
    rw [← List.length_pos_iff, hlen]
    exact Nat.mul_pos (Nat.succ_pos _) (Nat.succ_pos _)
  obtain ⟨u, hrun, hhistory, hpanel, hdc, hwin, hsnt, hstaging, _⟩ := flushBox_ok hok (by omega) b hne
  obtain ⟨hcur, horient, hpd, hrst, houtside, hpayload, hmode, hresults, _⟩ := flushBox_frame b pixels s
  rw [hrun] at hcur horient hpd hrst houtside hpayload hmode hresults
  refine ⟨u.finishSeq .ok 0, pixels, ?_, ⟨hlen, hcells⟩, ?_, hsnt, hwin, hdc, hpd, horient, hcur, hrst⟩
  · rw [exec_flush, gated_of_eq hp, flushReady_of_pixels hb hpix, hrun, conclude_of_ok rfl]
  · exact succeeded_of_run hhistory hpanel hstaging ⟨hmode, hresults⟩ houtside hpayload

/-! ### What the panel shows -/

/-- The panel after the three transactions of a FLUSH of the box (R169). -/
def flushedPanel (s : State) (b : Box) (pixels : List HalfWord) : Panel :=
  takeTransaction s opcMemoryWrite (serAll .be pixels)
    (takeTransaction s opcPageRange (rangeBytes b.window.y0 b.window.y1)
      (takeTransaction s opcColumnRange (rangeBytes b.window.x0 b.window.x1) s.panel))

/-- A box of the framebuffer fits its window's 16 bits (R71, R168). -/
theorem window_toNat {s : State} {b : Box} (hb : b.inside s) :
    b.window.x0.toNat = b.xmin ∧ b.window.y0.toNat = b.ymin ∧ b.window.x1.toNat = b.xmax ∧
      b.window.y1.toNat = b.ymax := by
  obtain ⟨hx, hxw, hy, hyh⟩ := hb
  have hw := s.width.isLt
  have hh := s.height.isLt
  simp only [Box.window, BitVec.toNat_ofNat]
  omega

/-- The panel's window after both range commands, with no half pixel pending (R81). -/
theorem rangedPanel {s : State} (hl : s.cfg.dcCmd ≠ s.cfg.dcData) (w : Window) {p q : Panel}
    (hq : takeTransaction s opcPageRange (rangeBytes w.y0 w.y1)
      (takeTransaction s opcColumnRange (rangeBytes w.x0 w.x1) p) = q) :
    q.Settled ∧ q.columns = some (w.x0, w.x1) ∧ q.pages = some (w.y0, w.y1) := by
  rw [takeTransaction_columns hl, takeTransaction_pages hl] at hq
  subst hq
  have hop : some opcPageRange ≠ some opcMemoryWrite := by decide
  exact ⟨fun hcommand => absurd hcommand hop, endData_columns _, rfl⟩

/-- Column and row of a number in row order. -/
theorem column_row {w dx : Nat} (h : dx < w) (dy : Nat) : (dy * w + dx) % w = dx ∧ (dy * w + dx) / w = dy := by
  constructor
  · exact Nat.mul_add_mod_of_lt h
  · rw [Nat.mul_comm, Nat.mul_add_div (by omega), Nat.div_eq_of_lt h, Nat.add_zero]

/-- The panel shows every cell of a box it was sent, expanded (R82, R169). -/
theorem flushedPanel_pixel {s : State} (hs : s.cfg.WellFormed) {b : Box} (hb : b.inside s) {pixels : List HalfWord}
    (hlist : ListsTheBox s b pixels) {x y : Nat} (hxy : b.contains x y) {v : HalfWord}
    (hcell : Memory.read s.cur (s.cellIndex x y) = some v) :
    (flushedPanel s b pixels).pixel x y = some (s.cfg.expand v) := by
  obtain ⟨hlen, hcells⟩ := hlist
  have hpixel := hcells x y hxy
  rw [hcell, Option.map_some] at hpixel
  obtain ⟨ex0, ey0, ex1, ey1⟩ := window_toNat hb
  obtain ⟨hx, hxw, hy, hyh⟩ := hb
  obtain ⟨hx0, hx1, hy0, hy1⟩ := hxy
  rw [flushedPanel]
  generalize hq : takeTransaction s opcPageRange _ _ = q
  obtain ⟨hset, hcol, hpage⟩ := rangedPanel hs.levels_differ b.window hq
  have hstore := takeTransaction_memoryWrite (pixels := pixels) hs.levels_differ hset hcol hpage
  rw [ex0, ex1, ey0, ey1] at hstore
  have hshown := (hstore hx hxw hy hyh (Nat.le_of_eq hlen)).1 _ _ hpixel
  obtain ⟨hcolumn, hrow⟩ := column_row (show x - b.xmin < b.xmax - b.xmin + 1 by omega) (y - b.ymin)
  rwa [hcolumn, hrow, Nat.add_sub_cancel' hx0, Nat.add_sub_cancel' hy0] at hshown

/-- A framebuffer has a cell in every orientation (R10, R26). -/
theorem dimensions_pos {s : State} (hs : s.cfg.WellFormed) : 0 < s.width.toNat ∧ 0 < s.height.toNat := by
  have hw : 0 < s.cfg.w0.toNat := Nat.pos_of_ne_zero fun h => hs.width_pos (BitVec.eq_of_toNat_eq h)
  have hh : 0 < s.cfg.h0.toNat := Nat.pos_of_ne_zero fun h => hs.height_pos (BitVec.eq_of_toNat_eq h)
  rw [State.width, State.height, Config.width, Config.height]
  cases isLandscape s.orient
  · exact ⟨hw, hh⟩
  · exact ⟨hh, hw⟩

/-- FLUSH over framebuffers that differ in every cell: it succeeds, and the panel shows every cell of `cur`, expanded
(R167, R169, R170). -/
theorem flush_shows_cur {s : State} (hs : s.cfg.WellFormed) (hok : AllOk s) (hp : s.pd = .ready)
    (hfilled : Filled s.cfg s.cur)
    (hdiff : ∀ x y, x < s.width.toNat → y < s.height.toNat → s.differs x y) :
    ∃ t, exec .flush s = .next t ∧ t.snt = t.cur ∧
      ∀ x y v, x < s.width.toNat → y < s.height.toNat → Memory.read s.cur (s.cellIndex x y) = some v →
        t.panel.pixel x y = some (s.cfg.expand v) := by
  obtain ⟨hw, hh⟩ := dimensions_pos hs
  cases hb : boundingBox s.dirtyCells with
  | none => exact absurd (hdiff 0 0 hw hh) (dirtyBox_eq_none.1 hb 0 0)
  | some b =>
    obtain ⟨t, pixels, ht, hlist, hrun, hsnt, _, _, _, _, hcur, _⟩ := flushSendsTheDirtyBox s b hs hfilled hok hp hb
    refine ⟨t, ht, hsnt.trans hcur.symm, fun x y v hx hy hcell => ?_⟩
    rw [hrun.panel]
    exact flushedPanel_pixel hs (dirtyBox_inside hb) hlist (dirtyBox_contains hb (hdiff x y hx hy)) hcell

/-- Settles O53: after the CLEAR every cell of `cur` holds the colour, and so differs. -/
theorem clearThenFlushShowsTheColour : Obligations.ClearThenFlushShowsTheColour := by
  intro s color hs hok hp hdiff
  let t : State := State.finishSeq .ok 0 { s with cur := Memory.fill s.cfg.cells (s.cfg.reduce color) }
  have hclear : exec (.clear color) s = .next t := exec_clear_ready hp color
  have hcell (i : Nat) (hi : i < s.cfg.cells) : Memory.read t.cur i = some (s.cfg.reduce color) :=
    (Memory.read_fill _ _ i).trans (if_pos hi)
  have hall (x y : Nat) (hx : x < t.width.toNat) (hy : y < t.height.toNat) : t.differs x y := by
    have hi : t.cellIndex x y < s.cfg.cells := State.cellIndex_lt (s := t) hx hy
    refine ⟨hx, hy, ?_⟩
    rw [hcell _ hi]
    exact (hdiff _ hi).symm
  obtain ⟨u, hflush, hsnt, hshown⟩ := flush_shows_cur (s := t) hs hok hp (fun i hi => ⟨_, hcell i hi⟩) hall
  exact ⟨t, u, hclear, hflush, hsnt, fun x y hx hy =>
    hshown x y _ hx hy (hcell _ (State.cellIndex_lt (s := t) hx hy))⟩

end Sys2Proof.Machine
end

