-- ==== Sys2Proof/Proofs/Quadrature.lean ====
section
/-! PROOFS. POLL of the Quadrature Decoder (42_quadrature_decoder.md R220 to R227): what each of its three ways to end
makes of the registers and returns, and how many polls the first press needs (70_reset_and_hazards.md R294). -/

namespace Sys2Proof.Machine

/-! ### The ways a POLL ends -/

/-- How a POLL ends, by the pattern and the button register after the shift: QDA's registers and the event code it
returns (R222 to R226). -/
inductive PollEnd (s : State) : Qda → HalfWord → Prop
  | direction (d : Direction) (hdir : directionOf s.cfg (patternAfter s) = some d) :
      PollEnd s (sample s.pins s.qda) d.eventCode
  | select (hdir : directionOf s.cfg (patternAfter s) = none)
      (hpress : pressAcceptable s.cfg s.pins (sample s.pins s.qda) = true) :
      PollEnd s { sample s.pins s.qda with tLast := s.pins.now, tValid := true } eventSelect
  | quiet (hdir : directionOf s.cfg (patternAfter s) = none)
      (hpress : pressAcceptable s.cfg s.pins (sample s.pins s.qda) = false) :
      PollEnd s (sample s.pins s.qda) eventNone

/-- A POLL completes in one of these ways, and appends one result with `OK` (R225). -/
theorem exec_poll_end (s : State) :
    ∃ q ev, PollEnd s q ev ∧ exec .poll s = .next (s.setQda q (s.qdaResults ++ [⟨.ok, ev⟩])) := by
  rcases execPoll_cases s with ⟨d, hdir, he⟩ | ⟨hdir, hpress, he⟩ | ⟨hdir, hpress, he⟩
  · exact ⟨_, _, .direction d hdir, he⟩
  · exact ⟨_, _, .select hdir hpress, he⟩
  · exact ⟨_, _, .quiet hdir hpress, he⟩

theorem pollEnd_of_exec {s t : State} (ht : exec .poll s = .next t) :
    ∃ q ev, PollEnd s q ev ∧ t = s.setQda q (s.qdaResults ++ [⟨.ok, ev⟩]) := by
  obtain ⟨q, ev, hend, he⟩ := exec_poll_end s
  rw [he] at ht
  cases ht
  exact ⟨q, ev, hend, rfl⟩

/-- The appended result tells which event was returned. -/
theorem results_append_inj {rs : List Result} {st : Status} {a b : HalfWord} :
    rs ++ [⟨st, a⟩] = rs ++ [⟨st, b⟩] ↔ a = b := by
  simp

theorem eventCode_le (d : Direction) : d.eventCode.toNat ≤ 3 := by cases d <;> decide

section
variable {s : State} {q : Qda} {ev : HalfWord}

/-- However it ends, a POLL has shifted each register by the sample of its line (R221). -/
theorem PollEnd.registers (h : PollEnd s q ev) :
    q.qa = (sample s.pins s.qda).qa ∧ q.qb = (sample s.pins s.qda).qb ∧ q.btn = (sample s.pins s.qda).btn := by
  cases h <;> exact ⟨rfl, rfl, rfl⟩

/-- The event codes are 0 to 3 (R226). -/
theorem PollEnd.event_le (h : PollEnd s q ev) : ev.toNat ≤ 3 := by
  cases h with
  | direction d => exact eventCode_le d
  | select => decide
  | quiet => decide

/-- A direction is returned, and the registers are the shifted ones (R224). -/
theorem PollEnd.of_direction (h : PollEnd s q ev) {d : Direction}
    (hd : directionOf s.cfg (patternAfter s) = some d) : q = sample s.pins s.qda ∧ ev = d.eventCode := by
  cases h with
  | direction d' hdir => exact ⟨rfl, by rw [Option.some.inj (hdir.symm.trans hd)]⟩
  | select hdir => cases hdir.symm.trans hd
  | quiet hdir => cases hdir.symm.trans hd

/-- Without a pattern neither `Up` nor `Down` is returned (R222, R226). -/
theorem PollEnd.of_noDirection (h : PollEnd s q ev) (hd : directionOf s.cfg (patternAfter s) = none) :
    ev ≠ 1 ∧ ev ≠ 2 := by
  cases h with
  | direction d hdir => cases hdir.symm.trans hd
  | select => exact ⟨by decide, by decide⟩
  | quiet => exact ⟨by decide, by decide⟩

/-- `Select` is returned exactly when no pattern matches and the press is acceptable (R223, R224). -/
theorem PollEnd.event_eq_select (h : PollEnd s q ev) :
    ev = eventSelect ↔ directionOf s.cfg (patternAfter s) = none ∧
      pressAcceptable s.cfg s.pins (sample s.pins s.qda) = true := by
  cases h with
  | direction d hdir => simp [hdir, eventCode_ne_select]
  | select hdir hpress => simp [hdir, hpress]
  | quiet hdir hpress => simp [hpress, eventNone, eventSelect]

/-- `Select` stamps the press (R223). -/
theorem PollEnd.stamped (h : PollEnd s q ev) (hev : ev = eventSelect) : q.tLast = s.pins.now ∧ q.tValid = true := by
  cases h with
  | direction d => exact absurd hev (eventCode_ne_select d)
  | select => exact ⟨rfl, rfl⟩
  | quiet => exact absurd hev (by decide)

/-- Any other event leaves the stamp (R224). -/
theorem PollEnd.notStamped (h : PollEnd s q ev) (hev : ev ≠ eventSelect) :
    q.tLast = s.qda.tLast ∧ q.tValid = s.qda.tValid := by
  cases h with
  | direction => exact ⟨rfl, rfl⟩
  | select => exact absurd rfl hev
  | quiet => exact ⟨rfl, rfl⟩

end

/-- Settles O45: every way a POLL ends shifts the registers and returns a code of R226. -/
theorem pollShiftsEveryRegister : Obligations.PollShiftsEveryRegister := by
  intro s
  obtain ⟨q, ev, hend, he⟩ := exec_poll_end s
  obtain ⟨hqa, hqb, hbtn⟩ := hend.registers
  exact ⟨_, he, hqa, hqb, hbtn, ev, rfl, hend.event_le⟩

/-! ### The direction -/

theorem directionOf_patALeads (c : Config) : directionOf c c.patALeads = some c.evALeads := if_pos rfl

/-- The second pattern is reached because the two differ (R10, R222). -/
theorem directionOf_patBLeads {c : Config} (hc : c.WellFormed) : directionOf c c.patBLeads = some c.evBLeads := by
  rw [directionOf, if_neg hc.patterns_differ.symm, if_pos rfl]

/-- A POLL that sees a direction returns its code and leaves the stamp of the last press (R224). -/
theorem poll_of_direction {s t : State} (ht : exec .poll s = .next t) {d : Direction}
    (hd : directionOf s.cfg (patternAfter s) = some d) :
    t.qdaResults = s.qdaResults ++ [⟨.ok, d.eventCode⟩] ∧ t.qda.tLast = s.qda.tLast ∧
      t.qda.tValid = s.qda.tValid := by
  obtain ⟨q, ev, hend, rfl⟩ := pollEnd_of_exec ht
  obtain ⟨rfl, rfl⟩ := hend.of_direction hd
  exact ⟨rfl, rfl, rfl⟩

/-- Settles O46: the two patterns are the two directions, and without one neither is returned. -/
theorem directionWinsOverTheButton : Obligations.DirectionWinsOverTheButton := by
  intro s t hc ht
  refine ⟨fun ha => poll_of_direction ht ?_, fun hb => poll_of_direction ht ?_, fun ha hb => ?_⟩
  · rw [ha, directionOf_patALeads]
  · rw [hb, directionOf_patBLeads hc]
  · obtain ⟨q, ev, hend, rfl⟩ := pollEnd_of_exec ht
    obtain ⟨hup, hdown⟩ := hend.of_noDirection (directionOf_none.2 ⟨ha, hb⟩)
    exact ⟨mt results_append_inj.1 hup, mt results_append_inj.1 hdown⟩

/-! ### The press -/

/-- Settles O47: `Select` is returned exactly in the way of an accepted press, the only one that stamps. -/
theorem selectNeedsASustainedPress : Obligations.SelectNeedsASustainedPress := by
  intro s t ht
  obtain ⟨q, ev, hend, rfl⟩ := pollEnd_of_exec ht
  have hresult : s.qdaResults ++ [(⟨.ok, ev⟩ : Result)] = s.qdaResults ++ [⟨.ok, 3⟩] ↔ ev = eventSelect :=
    results_append_inj
  obtain ⟨-, -, hbtn⟩ := hend.registers
  refine ⟨?_, fun h => hend.stamped (hresult.1 h), fun h => hend.notStamped (mt hresult.2 h)⟩
  calc s.qdaResults ++ [(⟨.ok, ev⟩ : Result)] = s.qdaResults ++ [⟨.ok, 3⟩]
      ↔ ev = eventSelect := hresult
    _ ↔ directionOf s.cfg (patternAfter s) = none ∧ pressAcceptable s.cfg s.pins (sample s.pins s.qda) = true :=
      hend.event_eq_select
    _ ↔ (patternAfter s ≠ s.cfg.patALeads ∧ patternAfter s ≠ s.cfg.patBLeads) ∧ q.btn = 0xFF ∧
        (s.qda.tValid = false ∨ s.cfg.minInterval.toNat ≤ (s.pins.now - s.qda.tLast).toNat) := by
      rw [directionOf_none, pressAcceptable_iff, hbtn]; rfl
    _ ↔ _ := and_assoc

/-! ### The first press -/

/-- A shift by one sample at most doubles the register and adds one. -/
theorem toNat_shiftIn_le (btn : BitVec 8) (x : BitVec 1) :
    (btn.extractLsb' 0 7 ++ x).toNat ≤ 2 * btn.toNat + 1 := by
  have hx := x.isLt
  have hlow : (btn.extractLsb' 0 7).toNat = btn.toNat % 128 := by simp
  rw [BitVec.toNat_append, ← Nat.shiftLeft_add_eq_or_of_lt hx, hlow, Nat.shiftLeft_eq]
  omega

/-- One POLL of a register with samples in its low `k` bits, fewer than seven, fills at most one bit more, and returns
no `Select` (R221, R223). -/
theorem poll_of_btn_lt {s t : State} {k : Nat} (hk : k < 7) (hbtn : s.qda.btn.toNat < 2 ^ k)
    (ht : exec .poll s = .next t) :
    t.qda.btn.toNat < 2 ^ (k + 1) ∧ ∃ r, r.res ≠ 3 ∧ t.qdaResults = s.qdaResults ++ [r] := by
  obtain ⟨hselect, -, -⟩ := selectNeedsASustainedPress s t ht
  obtain ⟨q, ev, hend, rfl⟩ := pollEnd_of_exec ht
  obtain ⟨-, -, hq⟩ := hend.registers
  have hle : q.btn.toNat ≤ 2 * s.qda.btn.toNat + 1 := hq ▸ toNat_shiftIn_le _ _
  have hlt : q.btn.toNat < 2 ^ (k + 1) := by omega
  refine ⟨hlt, ⟨.ok, ev⟩, fun hev => ?_, rfl⟩
  obtain ⟨-, -, hfull, -⟩ := hselect.1 (results_append_inj.2 hev)
  have hpow : 2 ^ (k + 1) ≤ 2 ^ 7 := Nat.pow_le_pow_right (by decide) hk
  exact absurd (hlt.trans_le hpow) (by rw [show q.btn = 0xFF from hfull]; decide)

theorem pollAll_cons {s t : State} {p : Pins} (ht : exec .poll { s with pins := p } = .next t) (ps : List Pins) :
    pollAll s (p :: ps) = pollAll t ps := by
  rw [pollAll, ht]

/-- Polls that cannot fill the register, counted with the `k` samples already in it, return no `Select`. -/
theorem pollAll_noSelect {ps : List Pins} :
    ∀ {s : State} {k : Nat}, k + ps.length < 8 → s.qda.btn.toNat < 2 ^ k → (∀ r ∈ s.qdaResults, r.res ≠ 3) →
      ∀ r ∈ (pollAll s ps).qdaResults, r.res ≠ 3 := by
  induction ps with
  | nil => exact fun _ _ hres => hres
  | cons p ps ih =>
    intro s k hk hbtn hres
    rw [List.length_cons] at hk
    obtain ⟨q, ev, -, he⟩ := exec_poll_end { s with pins := p }
    obtain ⟨hbtn', r, hr, happend⟩ := poll_of_btn_lt (s := { s with pins := p }) (k := k) (by omega) hbtn he
    rw [pollAll_cons he]
    refine ih (k := k + 1) (by omega) hbtn' ?_
    rw [happend]
    exact List.forall_mem_append.2 ⟨hres, by simpa using hr⟩

/-- Settles O48: a register of zeros holds no sample, and each POLL adds one. -/
theorem firstSelectNeedsEightPolls : Obligations.FirstSelectNeedsEightPolls := by
  intro s ps hbtn hres hlen
  refine pollAll_noSelect (k := 0) (by omega) (by rw [hbtn]; decide) ?_
  rw [hres]
  exact List.forall_mem_nil _

end Sys2Proof.Machine
end

