-- ==== Sys2Proof/Proofs/Exceptions.lean ====
section
/-! PROOFS. The operations that end at once with a status and no effect (60_exceptions.md R255, R258): a command word its
port does not execute, a slice longer than the payload buffer, and a shape code that names no shape. -/

namespace Sys2Proof.Machine

/-! ### A command word the port does not execute -/

/-- `SEQ_CMD` rejects a command word that is no operation, or none but POLL (R93, R258). -/
theorem fetchSeq_of_rejected {cw : CommandWord} (h : ∀ i, decodeCommand cw = .ok i → i = .poll) (s : State) :
    fetchSeq cw s = .done (.next (s.finishSeq .illegalOp 0)) := by
  cases hdec : decodeCommand cw with
  | error e => simp [fetchSeq, hdec]
  | ok i =>
    have hport : portOf i ≠ .seqCmd := by rw [h i hdec]; decide
    simp [fetchSeq, hdec, hport]

/-- `QDA_CMD` rejects every command word but POLL's (R93, R258). -/
theorem fetchQda_of_rejected {cw : CommandWord} (h : decodeCommand cw ≠ .ok .poll) (s : State) :
    fetchQda cw s = .done (.next (s.finishQda .illegalOp 0)) := by
  cases hdec : decodeCommand cw with
  | error e => simp [fetchQda, hdec]
  | ok i =>
    have hi : i ≠ .poll := fun hi => h (hi ▸ hdec)
    have hport : portOf i ≠ .qdaCmd := by rw [portOf_of_decodeCommand hdec, if_neg hi]; decide
    simp [fetchQda, hdec, hport]

/-- A step that takes an input with nothing to execute ends as the input says. -/
theorem step_of_done {s : State} {input : Input} {rest : List Input} {o : Outcome} (hin : s.inputs = input :: rest)
    (ha : acceptable s.seqMode input = true) (hdone : take input { s with inputs := rest } = .done o) :
    step s = o := by
  rw [step_of_acceptable hin ha, hdone, Fetched.outcome]

/-! ### A slice longer than the payload buffer -/

/-- A SENDC or SENDD over a slice that does not fit `PB` returns `IllegalOp` and does nothing else (R129, R258). -/
theorem exec_slice_of_long (ph : Phase) {sh : Shape} (h : sh.isSlice = true) {len : Word} {s : State}
    (hlong : s.cfg.pbBytes < len.toNat * sh.itemSize) :
    exec (transportOp ph sh len) s = .next (s.finishSeq .illegalOp 0) := by
  rw [exec_slice ph h, sendSlice_of_long hlong, returnStatus]

/-- Settles O5: the ports reject the words outside their classes, and each slice shape a slice beyond `PB`. -/
theorem illegalOpHasNoEffect : Obligations.IllegalOpHasNoEffect := by
  refine ⟨fun s rest cw hin hidle hop => ?seq, fun s rest cw hin hop => ?qda, fun s len hlong => ?bytes,
    fun s len hlong => ?words⟩
  case seq =>
    have houtside : (opField cw).toNat < 0x10 ∨ 0x3C ≤ (opField cw).toNat := by omega
    have hrejected (i : Instr) (hdec : decodeCommand cw = .ok i) : i = .poll := decodeCommand_outside houtside hdec
    exact step_of_done hin (by rw [hidle]; rfl) (fetchSeq_of_rejected hrejected _)
  case qda =>
    exact step_of_done hin rfl (fetchQda_of_rejected (mt decodeCommand_poll_iff.1 hop) _)
  case bytes =>
    have illegal (ph : Phase) : exec (transportOp ph .u8 len) s = .next (s.finishSeq .illegalOp 0) :=
      exec_slice_of_long ph rfl (by rwa [Shape.itemSize, Nat.mul_one])
    exact ⟨illegal .command, illegal .data⟩
  case words =>
    have illegal (ph : Phase) {sh : Shape} (hsh : sh.isSlice = true) (hsize : sh.itemSize = 2) :
        exec (transportOp ph sh len) s = .next (s.finishSeq .illegalOp 0) :=
      exec_slice_of_long ph hsh (by rwa [hsize, Nat.mul_comm])
    exact ⟨illegal .command (sh := .u16) rfl rfl, illegal .data (sh := .u16) rfl rfl,
      illegal .command (sh := .u16le) rfl rfl, illegal .data (sh := .u16le) rfl rfl,
      illegal .command (sh := .u16be) rfl rfl, illegal .data (sh := .u16be) rfl rfl⟩

/-! ### A shape code that names no shape -/

/-- Settles O22: every reserved shape code has the one meaning `sendReserved`, which looks at no length. -/
theorem reservedShapesAreUnsupported : Obligations.ReservedShapesAreUnsupported := by
  intro s len i hi
  have hreserved : exec i s = sendReserved s := by fin_cases hi <;> rfl
  rw [hreserved, sendReserved, returnStatus]

end Sys2Proof.Machine
end

