-- ==== Sys2Proof/Proofs/Steps.lean ====
section
/-! PROOFS. What one step can do, input by input (30_encoding.md R93, 20_memory.md R64, R65), and with it what no step
changes: the parameters (70_reset_and_hazards.md R282), and nearly everything while SEQ hangs (R293). -/

namespace Sys2Proof.Machine

/-! ### What taking an input does -/

/-- The state that an input, once taken, makes of `s`. -/
inductive Taken (s : State) : Input → State → Prop
  | seqCmd {i : Instr} {t : State} (cw : CommandWord) (hexec : exec i s = .next t) : Taken s (.seqCmd cw) t
  | seqRejected (cw : CommandWord) : Taken s (.seqCmd cw) (s.finishSeq .illegalOp 0)
  | qdaCmd (cw : CommandWord) : Taken s (.qdaCmd cw) (s.setQda (polledQda s) (polledResults s))
  | qdaRejected (cw : CommandWord) : Taken s (.qdaCmd cw) (s.finishQda .illegalOp 0)
  | wire {i : Instr} {t : State} (bytes : List Byte) (hexec : exec i s = .next t) : Taken s (.wire bytes) t
  | payloadBytes (i : Nat) (bytes : List Byte) :
      Taken s (.payloadBytes i bytes) (s.setPb (Memory.writeFrom s.pb i bytes))
  | payloadWords (i : Nat) (words : List HalfWord) :
      Taken s (.payloadWords i words) (s.setPb (Memory.writeFrom s.pb (2 * i) (serAll s.cfg.nativeOrder words)))
  | readBytes (i n : Nat) (l : List Byte) :
      Taken s (.readBytes i n) { s with hostReads := s.hostReads ++ [.bytes i l] }
  | readWords (i n : Nat) (l : List HalfWord) :
      Taken s (.readWords i n) { s with hostReads := s.hostReads ++ [.words i l] }
  | produceBytes (items : List Byte) : Taken s (.produceBytes items) { s with prod8 := items }
  | produceWords (items : List HalfWord) : Taken s (.produceWords items) { s with prod16 := items }
  | answers (list : List Answer) : Taken s (.answers list) { s with answers := list }
  | pins (levels : Pins) : Taken s (.pins levels) { s with pins := levels }
  | bench (assumed : Bench) : Taken s (.bench assumed) (assume assumed s)
  | blockReset : Taken s .blockReset (blockReset s)

theorem fetchSeq_taken {cw : CommandWord} {s t : State} (ht : (fetchSeq cw s).outcome = .next t) :
    Taken s (.seqCmd cw) t := by
  rcases fetchSeq_cases cw s with ⟨i, hrun⟩ | hdone
  · rw [hrun] at ht
    exact .seqCmd cw ht
  · rw [hdone] at ht
    cases ht
    exact .seqRejected cw

/-- `QDA_CMD` executes POLL and nothing else (R93). -/
theorem fetchQda_taken {cw : CommandWord} {s t : State} (ht : (fetchQda cw s).outcome = .next t) :
    Taken s (.qdaCmd cw) t := by
  by_cases hpoll : decodeCommand cw = .ok .poll
  · rw [fetchQda_of_decode hpoll, Fetched.outcome, exec_poll] at ht
    cases ht
    exact .qdaCmd cw
  · rw [fetchQda_of_rejected hpoll] at ht
    cases ht
    exact .qdaRejected cw

theorem fetchWire_taken {bytes : List Byte} {s t : State} (ht : (fetchWire bytes s).outcome = .next t) :
    Taken s (.wire bytes) t := by
  rcases fetchWire_cases bytes s with ⟨i, hrun⟩ | hdone
  · rw [hrun] at ht
    exact .wire bytes ht
  · rw [hdone] at ht
    cases ht

/-- A HOST write that does not fault writes its bytes (R64). -/
theorem hostWrite_next {i : Nat} {bytes : List Byte} {s t : State} (ht : hostWrite i bytes s = .next t) :
    t = s.setPb (Memory.writeFrom s.pb i bytes) := by
  by_cases hbeyond : s.cfg.pbBytes < i + bytes.length
  · rw [hostWrite, if_pos hbeyond] at ht
    cases ht
  · rw [hostWrite, if_neg hbeyond] at ht
    cases ht
    rfl

/-- A HOST read that does not fault gives HOST what it read (R64). -/
theorem hostReadBytes_next {i n : Nat} {s t : State} (ht : hostReadBytes i n s = .next t) :
    ∃ l, t = { s with hostReads := s.hostReads ++ [.bytes i l] } := by
  by_cases hbeyond : s.cfg.pbBytes < i + n
  · rw [hostReadBytes_of_beyond hbeyond] at ht
    cases ht
  · cases hread : Memory.readFrom s.pb i n with
    | none => rw [hostReadBytes_of_unwritten (Nat.not_lt.mp hbeyond) hread] at ht; cases ht
    | some l => rw [hostReadBytes_of_read (Nat.not_lt.mp hbeyond) hread] at ht; cases ht; exact ⟨l, rfl⟩

theorem hostReadWords_next {i n : Nat} {s t : State} (ht : hostReadWords i n s = .next t) :
    ∃ l, t = { s with hostReads := s.hostReads ++ [.words i l] } := by
  by_cases hbeyond : s.cfg.pbBytes < 2 * i + 2 * n
  · rw [hostReadWords_of_beyond hbeyond] at ht
    cases ht
  · cases hread : Memory.words s.cfg.nativeOrder s.pb i n with
    | none => rw [hostReadWords_of_unwritten (Nat.not_lt.mp hbeyond) hread] at ht; cases ht
    | some l => rw [hostReadWords_of_read (Nat.not_lt.mp hbeyond) hread] at ht; cases ht; exact ⟨l, rfl⟩

theorem take_taken {input : Input} {s t : State} (ht : (take input s).outcome = .next t) : Taken s input t := by
  cases input with
  | seqCmd cw => exact fetchSeq_taken ht
  | qdaCmd cw => exact fetchQda_taken ht
  | wire bytes => exact fetchWire_taken ht
  | payloadBytes i bytes => rw [hostWrite_next ht]; exact .payloadBytes i bytes
  | payloadWords i words => rw [hostWrite_next ht]; exact .payloadWords i words
  | readBytes i n =>
    obtain ⟨l, rfl⟩ := hostReadBytes_next ht
    exact .readBytes i n l
  | readWords i n =>
    obtain ⟨l, rfl⟩ := hostReadWords_next ht
    exact .readWords i n l
  | produceBytes items => cases ht; exact .produceBytes items
  | produceWords items => cases ht; exact .produceWords items
  | answers list => cases ht; exact .answers list
  | pins levels => cases ht; exact .pins levels
  | bench assumed => cases ht; exact .bench assumed
  | blockReset => cases ht; exact .blockReset

/-- A step takes the first input that can be taken, or there is none and the block waits. -/
theorem step_cases {s t : State} (ht : step s = .next t) :
    t = s ∨ ∃ input rest, takeInput s.seqMode s.inputs = some (input, rest) ∧
      Taken { s with inputs := rest } input t := by
  rw [step_eq, fetch] at ht
  cases htake : takeInput s.seqMode s.inputs with
  | none =>
    rw [htake] at ht
    cases ht
    exact .inl rfl
  | some taken =>
    obtain ⟨input, rest⟩ := taken
    rw [htake] at ht
    exact .inr ⟨input, rest, rfl, take_taken ht⟩

/-! ### The parameters -/

theorem exec_cfg {i : Instr} {s t : State} (ht : exec i s = .next t) : t.cfg = s.cfg := by
  by_cases hi : i = .poll
  · subst hi
    rw [exec_poll] at ht
    cases ht
    rfl
  · exact (exec_keepsOutside hi ht).cfg

theorem Taken.cfg {s t : State} {input : Input} (h : Taken s input t) : t.cfg = s.cfg := by
  cases h with
  | seqCmd cw hexec => exact exec_cfg hexec
  | wire bytes hexec => exact exec_cfg hexec
  | seqRejected | qdaCmd | qdaRejected | payloadBytes | payloadWords | readBytes | readWords | produceBytes
  | produceWords | answers | pins | bench | blockReset => rfl

/-- Settles O13: no operation and no other input changes the parameters. -/
theorem parametersNeverChange : Obligations.ParametersNeverChange := by
  intro s t ht
  rcases step_cases ht with rfl | ⟨input, rest, _, htaken⟩
  · rfl
  · exact htaken.cfg

/-! ### While SEQ hangs -/

/-- What stays of the block while SEQ hangs (R293): all but QDA's part, what HOST and ENV have ready, what a test bench
assumes, and `PB` unless the hang locks it (R64, R297). -/
structure KeepsHang (s t : State) : Prop where
  seqMode : t.seqMode = s.seqMode
  driver : KeepsDriver s t
  cb : t.cb = s.cb
  dc : t.dc = s.dc
  history : t.history = s.history
  panel : { t.panel with bench := s.panel.bench } = s.panel
  seqResults : t.seqResults = s.seqResults
  pb : s.seqMode = .hungInTransport → t.pb = s.pb

theorem KeepsHang.refl (s : State) : KeepsHang s s :=
  ⟨rfl, ⟨rfl, rfl, rfl, rfl, rfl, rfl⟩, rfl, rfl, rfl, rfl, rfl, fun _ => rfl⟩

/-- HOST writes `PB` only when no hang locks it (R64, R297). -/
theorem setPb_keepsHang {s : State} (h : s.seqMode ≠ .hungInTransport) (pb : Memory Byte) : KeepsHang s (s.setPb pb) :=
  ⟨rfl, ⟨rfl, rfl, rfl, rfl, rfl, rfl⟩, rfl, rfl, rfl, rfl, rfl, fun hlocked => absurd hlocked h⟩

/-- No input that a hung SEQ leaves to be taken goes on with it, but block reset (R293). -/
theorem Taken.keepsHang {s t : State} {input : Input} (h : Taken s input t) (hhung : s.seqMode ≠ .idle)
    (hacc : acceptable s.seqMode input = true) (hreset : input ≠ .blockReset) : KeepsHang s t := by
  cases h with
  | seqCmd | seqRejected | wire => exact absurd (beq_iff_eq.mp hacc) hhung
  | payloadBytes | payloadWords => exact setPb_keepsHang (bne_iff_ne.mp hacc) _
  | blockReset => exact absurd rfl hreset
  | qdaCmd | qdaRejected | readBytes | readWords | produceBytes | produceWords | answers | pins | bench =>
    exact ⟨rfl, ⟨rfl, rfl, rfl, rfl, rfl, rfl⟩, rfl, rfl, rfl, rfl, rfl, fun _ => rfl⟩

/-- Settles O6: what a hung SEQ lets be taken leaves its hang and all it was working on. -/
theorem hungSeqGoesNoFurther : Obligations.HungSeqGoesNoFurther := by
  intro s t hhung hreset ht
  have hkeep : KeepsHang s t := by
    rcases step_cases ht with rfl | ⟨input, rest, htake, htaken⟩
    · exact .refl t
    · have hinput : input ≠ .blockReset := fun h => hreset rest (h ▸ htake)
      have hkept := htaken.keepsHang hhung (takeInput_acceptable htake) hinput
      exact { hkept with driver := { hkept.driver with } }
  obtain ⟨hmode, hdriver, hcb, hdc, hhistory, hpanel, hresults, hpb⟩ := hkeep
  exact ⟨hmode, hdriver, hcb, hdc, hhistory, hpanel, hresults, hpb⟩

end Sys2Proof.Machine
end

