-- ==== Sys2Proof/Proofs/Reset.lean ====
section
/-! PROOFS. Block reset (70_reset_and_hazards.md R280): the reset values of R20, and the invariant they meet. -/

namespace Sys2Proof.Machine

theorem reset_atReset : AtReset State.reset :=
  ⟨rfl, rfl, rfl, rfl, rfl, rfl, rfl, rfl, rfl, rfl, rfl, rfl, rfl, rfl, rfl, rfl, rfl, rfl⟩

/-- Block reset keeps only what is no element with a reset value (R280). -/
theorem blockReset_atReset (s : State) : AtReset (blockReset s) := reset_atReset

/-- Settles O54: block reset can always be taken, hung or not. -/
theorem blockResetSetsEveryElement : Obligations.BlockResetSetsEveryElement := by
  refine ⟨reset_atReset, fun s rest hin => ?_⟩
  exact ⟨blockReset { s with inputs := rest }, step_of_acceptable hin rfl, blockReset_atReset _, rfl, rfl⟩

/-- The parameters after reset are in R10's ranges. -/
theorem reset_config : State.reset.cfg.WellFormed where
  chunk_even := rfl
  chunk_two := by decide
  pb_even := rfl
  pb_two := by decide
  width_pos := by decide
  height_pos := by decide
  levels_differ := by decide
  patterns_differ := by decide
  interval_bound := by decide

/-- Settles O15: every memory is empty, and INIT has not been accepted yet. -/
theorem resetMeetsTheInvariant : Obligations.ResetMeetsTheInvariant where
  config := reset_config
  pb_wf := .nil
  cb_wf := .nil
  cur_wf := .nil
  snt_wf := .nil
  pixels_wf := .nil
  bench_wf := .nil
  pb_below := Below.nil _
  cb_below := Below.nil _
  cur_below := Below.nil _
  snt_below := Below.nil _
  cur_filled := fun hp => absurd rfl hp
  snt_filled := fun hp => absurd rfl hp
  writes_fit := nofun

end Sys2Proof.Machine
end

