-- ==== Sys2Proof/Proofs/RoundTrip.lean ====
section
/-! PROOFS. INIT, CLEAR and FLUSH on a panel that starts with `expand(FB_INIT)` (70_reset_and_hazards.md R291,
20_memory.md R83, D41): INIT leaves the panel's assumed pixels, and FLUSH has either all of them to replace or none. -/

namespace Sys2Proof.Machine

/-- All that is known of the panel after a successful INIT: what a test bench assumes of it after its resets, and what
INIT's own commands set (R80, R83, R162). -/
theorem initPanel_eq {s : State} (hl : s.cfg.dcCmd ≠ s.cfg.dcData) :
    initPanel s = { s.panel.afterReset with
      command := some opcDisplayOn, asleep := some false, displayOn := some true
      accessControl := some (s.cfg.madctl s.orient), pixelFormat := some s.cfg.pixfmt16bpp } := by
  have hreset : takeTransaction s opcSoftwareReset [] s.panel.afterReset =
      { s.panel.afterReset with command := some opcSoftwareReset } := by
    have hsettled : s.panel.afterReset.Settled := fun _ => rfl
    rw [takeTransaction_noData hl opcSoftwareReset hsettled, obey_softwareReset]
    exact congrArg (fun pixels => { s.panel.afterReset with command := some opcSoftwareReset, pixels := pixels })
      (ite_self _)
  show takeTransaction s opcDisplayOn [] (takeTransaction s opcSleepOff []
    (takeTransaction s opcPixelFormat [s.cfg.pixfmt16bpp]
      (takeTransaction s opcMemoryAccessControl [s.cfg.madctl s.orient]
        (takeTransaction s opcSoftwareReset [] s.panel.afterReset)))) = _
  rw [hreset]
  simp only [takeTransaction_eq hl]
  rfl

/-- What a successful INIT leaves for the operations after it (R162): framebuffers that agree in every cell, a panel
with its assumed pixels, and an ENV that still answers `ok`. -/
theorem exec_init_ready {s : State} (hs : s.cfg.WellFormed) (hok : AllOk s) (hp : s.pd = .uninitialized)
    (v : Orientation) :
    ∃ t, exec (.init v) s = .next t ∧ t.cfg = s.cfg ∧ t.pd = .ready ∧ t.orient = v ∧ AllOk t ∧
      t.panel.pixels = s.panel.bench.pixels ∧
      ∀ i, Memory.read t.snt i = if i < s.cfg.cells then some s.cfg.fbInit else none := by
  obtain ⟨t, ht, hrun, hpd, horient, hcells, _⟩ := initBringsThePanelUp s v hs hok hp
  have hallOk : AllOk t := by
    have hc : 0 < s.cfg.chunkBytes := by have := hs.chunk_two; omega
    obtain ⟨u, hu, _, _, _, _, _, _, huok⟩ := initSequence_ok hok hc v
    rw [exec_init, gated_of_eq hp, hu, conclude_of_ok rfl] at ht
    cases ht
    exact huok
  refine ⟨t, ht, hrun.outside.cfg, hpd, horient, hallOk, ?_, fun i => (hcells i).2.trans (hcells i).1⟩
  rw [hrun.panel, initPanel_eq (s := initStart v s) hs.levels_differ]
  rfl

/-- CLEAR to the colour `snt` already holds everywhere leaves FLUSH nothing to send (R166, R167). -/
theorem clear_then_flush_quiet {s : State} (hp : s.pd = .ready) {color : HalfWord}
    (hsnt : ∀ i, Memory.read s.snt i = if i < s.cfg.cells then some (s.cfg.reduce color) else none) :
    ∃ t u, exec (.clear color) s = .next t ∧ exec .flush t = .next u ∧ u.panel = s.panel := by
  refine ⟨_, _, exec_clear_ready hp color, flushOfEqualFramesIsQuiet _ hp fun x y hdiffers => ?_, rfl⟩
  obtain ⟨_, _, hne⟩ := hdiffers
  exact hne ((Memory.read_fill _ _ _).trans (hsnt _).symm)

/-- Settles O60: a colour that reduces to `FB_INIT` is on the panel already, and any other differs everywhere from what
INIT left in `snt`. -/
theorem roundTripFromInit : Obligations.RoundTripFromInit := by
  intro s v color hs hok hp hassumed
  obtain ⟨t, hinit, hcfg, hready, horient, htok, hpixels, hsnt⟩ := exec_init_ready hs hok hp v
  by_cases hcolor : s.cfg.reduce color = s.cfg.fbInit
  · rw [← hcolor, ← hcfg] at hsnt
    obtain ⟨u, w, hclear, hflush, hpanel⟩ := clear_then_flush_quiet hready hsnt
    refine ⟨t, u, w, hinit, hclear, hflush, fun x y hx hy => ?_⟩
    rw [hpanel, Panel.pixel, hpixels, hassumed x y hx hy, hcolor]
  · have hdiff (i : Nat) (hi : i < t.cfg.cells) : Memory.read t.snt i ≠ some (t.cfg.reduce color) := by
      rw [hsnt, if_pos (hcfg ▸ hi), hcfg]
      exact fun h => hcolor (Option.some.inj h).symm
    obtain ⟨u, w, hclear, hflush, _, hshown⟩ :=
      clearThenFlushShowsTheColour t color (hcfg ▸ hs) htok hready hdiff
    rw [State.width, State.height, hcfg, horient] at hshown
    exact ⟨t, u, w, hinit, hclear, hflush, hshown⟩

end Sys2Proof.Machine
end
